-- ==== Sys2Proof/Word.lean ====
section
/-! DEFINITION. The words of the machine (`00_scope.md` R6, R7; `10_state.md` R21): a word is 39 bits, bit 0 the least
significant, bit 38 the sign. The duplicated sign bit of the source's 40-bit container is `ext40` of the word. -/

namespace Sys2Proof

/-- A store or accumulator word, `w[38:0]` (R7, R21). -/
abbrev Word := BitVec 39

/-- A store address or address field `N` (R4 `ADDR_BITS`, R83). -/
abbrev Address := BitVec 13

/-- A six-bit function code `F` (R8). -/
abbrev FnCode := BitVec 6

/-- The 19 bits of one instruction, the content of `IR` (R81). -/
abbrev InstrBits := BitVec 19

/-- `signed(w)` of R7: the two's-complement value, -2^38 to 2^38 - 1. -/
def signed (w : Word) : Int := w.toInt

/-- `word(v)` of R7: `v mod 2^39` as a word. -/
def word (v : Int) : Word := BitVec.ofInt 39 v

/-- `fits39(v)` of R7. -/
def fits39 (v : Int) : Bool := decide (-2 ^ 38 ≤ v) && decide (v ≤ 2 ^ 38 - 1)

/-- `ext40(w)` of R7: the 40-bit container form with the duplicated sign bit. -/
def ext40 (w : Word) : BitVec 40 := w.signExtend 40

/-- `STORE_WORDS` of R4. -/
def storeWords : Nat := 8192

/-- `RESERVED_LOW` of R4: operand accesses below this address read 0 and write nothing. -/
def reservedLow : Nat := 4

end Sys2Proof
end

