-- ==== Sys2Proof/Syntax.lean ====
section
/-! DEFINITION. The instructions: one constructor for each row of `spec/opcode_table.json` (`30_encoding.md` R86, R95).
A function is known by its two octal digits (R94); each constructor carries the 13-bit address field `N` (R83). -/

namespace Sys2Proof

/-- One instruction (R81, R86). In the two rows of function 65 bit 12 of `N` is fixed by the row and is still the top bit of
`N` (R95), so `N` is held whole and `Instr.wellFormed` asks for that bit. -/
inductive Instr where
  /-- 00: do nothing (R132) -/
  | fn00 (n : Address)
  /-- 01: negate (R133) -/
  | fn01 (n : Address)
  /-- 02: replace and count (R134) -/
  | fn02 (n : Address)
  /-- 03: collate (R135) -/
  | fn03 (n : Address)
  /-- 04: add (R136) -/
  | fn04 (n : Address)
  /-- 05: subtract (R137) -/
  | fn05 (n : Address)
  /-- 06: clear (R138) -/
  | fn06 (n : Address)
  /-- 07: negate and add (R139) -/
  | fn07 (n : Address)
  /-- 10: exchange (R140) -/
  | fn10 (n : Address)
  /-- 11: exchange and negate (R141) -/
  | fn11 (n : Address)
  /-- 12: exchange and count (R142) -/
  | fn12 (n : Address)
  /-- 13: write and collate (R143) -/
  | fn13 (n : Address)
  /-- 14: write and add (R144) -/
  | fn14 (n : Address)
  /-- 15: write and subtract (R145) -/
  | fn15 (n : Address)
  /-- 16: write and clear (R146) -/
  | fn16 (n : Address)
  /-- 17: write and negate-add (R147) -/
  | fn17 (n : Address)
  /-- 20: write (R148) -/
  | fn20 (n : Address)
  /-- 21: write negatively (R149) -/
  | fn21 (n : Address)
  /-- 22: count in store (R150) -/
  | fn22 (n : Address)
  /-- 23: collate in store (R151) -/
  | fn23 (n : Address)
  /-- 24: add into store (R152) -/
  | fn24 (n : Address)
  /-- 25: negate store and add (R153) -/
  | fn25 (n : Address)
  /-- 26: clear store (R154) -/
  | fn26 (n : Address)
  /-- 27: subtract from store (R155) -/
  | fn27 (n : Address)
  /-- 30: replace (R156) -/
  | fn30 (n : Address)
  /-- 31: replace and negate store (R157) -/
  | fn31 (n : Address)
  /-- 32: replace and count in store (R158) -/
  | fn32 (n : Address)
  /-- 33: replace and collate in store (R159) -/
  | fn33 (n : Address)
  /-- 34: replace and add to store (R160) -/
  | fn34 (n : Address)
  /-- 35: replace, negate store and add (R161) -/
  | fn35 (n : Address)
  /-- 36: replace and clear store (R162) -/
  | fn36 (n : Address)
  /-- 37: replace and subtract from store (R163) -/
  | fn37 (n : Address)
  /-- 40: jump to first half (R172) -/
  | fn40 (n : Address)
  /-- 41: jump to first half if negative (R173) -/
  | fn41 (n : Address)
  /-- 42: jump to first half if zero (R174) -/
  | fn42 (n : Address)
  /-- 43: jump to first half if overflow, clear overflow (R175) -/
  | fn43 (n : Address)
  /-- 44: jump to second half (R177) -/
  | fn44 (n : Address)
  /-- 45: jump to second half if negative (R178) -/
  | fn45 (n : Address)
  /-- 46: jump to second half if zero (R179) -/
  | fn46 (n : Address)
  /-- 47: jump to second half if overflow, clear overflow (R180) -/
  | fn47 (n : Address)
  /-- 50: double-length arithmetic shift right (R192) -/
  | fn50 (n : Address)
  /-- 51: single-length logical shift right, clear AR (R193) -/
  | fn51 (n : Address)
  /-- 52: double-length multiply (R194) -/
  | fn52 (n : Address)
  /-- 53: single-length rounded multiply, clear AR (R195) -/
  | fn53 (n : Address)
  /-- 54: double-length arithmetic shift left (R196) -/
  | fn54 (n : Address)
  /-- 55: single-length shift left, clear AR (R197) -/
  | fn55 (n : Address)
  /-- 56: divide, clear AR (R198) -/
  | fn56 (n : Address)
  /-- 57: read AR into the accumulator (R199) -/
  | fn57 (n : Address)
  /-- 60: floating add (R233) -/
  | fn60 (n : Address)
  /-- 61: floating subtract (R234) -/
  | fn61 (n : Address)
  /-- 62: floating reverse subtract (R235) -/
  | fn62 (n : Address)
  /-- 63: floating multiply (R237) -/
  | fn63 (n : Address)
  /-- 64: floating divide (R238) -/
  | fn64 (n : Address)
  /-- 65, N < 4096: fast shift left (R239) -/
  | fn65Shift (n : Address)
  /-- 65, N >= 4096: standardise (R240) -/
  | fn65Std (n : Address)
  /-- 66: no operation (unimplemented option) (R241) -/
  | fn66 (n : Address)
  /-- 67: no operation (unimplemented option) (R242) -/
  | fn67 (n : Address)
  /-- 70: read the word generator (R261) -/
  | fn70 (n : Address)
  /-- 71: read the tape reader (R262) -/
  | fn71 (n : Address)
  /-- 72: output to a channel (R263) -/
  | fn72 (n : Address)
  /-- 73: store the link (R264) -/
  | fn73 (n : Address)
  /-- 74: output a character (R265) -/
  | fn74 (n : Address)
  /-- 75: stall (unused process-control hook) (R266) -/
  | fn75 (n : Address)
  /-- 76: stall (unused process-control hook) (R267) -/
  | fn76 (n : Address)
  /-- 77: two-beat no operation (R268) -/
  | fn77 (n : Address)
deriving DecidableEq, Repr

/-- The address field `N` of an instruction (R83). -/
def Instr.address : Instr → Address
  | .fn00 n => n
  | .fn01 n => n
  | .fn02 n => n
  | .fn03 n => n
  | .fn04 n => n
  | .fn05 n => n
  | .fn06 n => n
  | .fn07 n => n
  | .fn10 n => n
  | .fn11 n => n
  | .fn12 n => n
  | .fn13 n => n
  | .fn14 n => n
  | .fn15 n => n
  | .fn16 n => n
  | .fn17 n => n
  | .fn20 n => n
  | .fn21 n => n
  | .fn22 n => n
  | .fn23 n => n
  | .fn24 n => n
  | .fn25 n => n
  | .fn26 n => n
  | .fn27 n => n
  | .fn30 n => n
  | .fn31 n => n
  | .fn32 n => n
  | .fn33 n => n
  | .fn34 n => n
  | .fn35 n => n
  | .fn36 n => n
  | .fn37 n => n
  | .fn40 n => n
  | .fn41 n => n
  | .fn42 n => n
  | .fn43 n => n
  | .fn44 n => n
  | .fn45 n => n
  | .fn46 n => n
  | .fn47 n => n
  | .fn50 n => n
  | .fn51 n => n
  | .fn52 n => n
  | .fn53 n => n
  | .fn54 n => n
  | .fn55 n => n
  | .fn56 n => n
  | .fn57 n => n
  | .fn60 n => n
  | .fn61 n => n
  | .fn62 n => n
  | .fn63 n => n
  | .fn64 n => n
  | .fn65Shift n => n
  | .fn65Std n => n
  | .fn66 n => n
  | .fn67 n => n
  | .fn70 n => n
  | .fn71 n => n
  | .fn72 n => n
  | .fn73 n => n
  | .fn74 n => n
  | .fn75 n => n
  | .fn76 n => n
  | .fn77 n => n

end Sys2Proof
end

