-- ==== Sys2Proof/WellFormed.lean ====
section
/-! DEFINITION. Which terms of `Instr` are instructions of the encoding (`30_encoding.md` R95): every one, but that the two
rows of function 65 fix bit 12 of `N`. -/

namespace Sys2Proof

/-- The term lies in its row of the opcode table: 65 with N < 4096 is `fn65Shift`, 65 with N >= 4096 is `fn65Std` (R239, R240). -/
def Instr.wellFormed : Instr → Bool
  | .fn00 _ => true
  | .fn01 _ => true
  | .fn02 _ => true
  | .fn03 _ => true
  | .fn04 _ => true
  | .fn05 _ => true
  | .fn06 _ => true
  | .fn07 _ => true
  | .fn10 _ => true
  | .fn11 _ => true
  | .fn12 _ => true
  | .fn13 _ => true
  | .fn14 _ => true
  | .fn15 _ => true
  | .fn16 _ => true
  | .fn17 _ => true
  | .fn20 _ => true
  | .fn21 _ => true
  | .fn22 _ => true
  | .fn23 _ => true
  | .fn24 _ => true
  | .fn25 _ => true
  | .fn26 _ => true
  | .fn27 _ => true
  | .fn30 _ => true
  | .fn31 _ => true
  | .fn32 _ => true
  | .fn33 _ => true
  | .fn34 _ => true
  | .fn35 _ => true
  | .fn36 _ => true
  | .fn37 _ => true
  | .fn40 _ => true
  | .fn41 _ => true
  | .fn42 _ => true
  | .fn43 _ => true
  | .fn44 _ => true
  | .fn45 _ => true
  | .fn46 _ => true
  | .fn47 _ => true
  | .fn50 _ => true
  | .fn51 _ => true
  | .fn52 _ => true
  | .fn53 _ => true
  | .fn54 _ => true
  | .fn55 _ => true
  | .fn56 _ => true
  | .fn57 _ => true
  | .fn60 _ => true
  | .fn61 _ => true
  | .fn62 _ => true
  | .fn63 _ => true
  | .fn64 _ => true
  | .fn65Shift n => !n.getLsbD 12
  | .fn65Std n => n.getLsbD 12
  | .fn66 _ => true
  | .fn67 _ => true
  | .fn70 _ => true
  | .fn71 _ => true
  | .fn72 _ => true
  | .fn73 _ => true
  | .fn74 _ => true
  | .fn75 _ => true
  | .fn76 _ => true
  | .fn77 _ => true

end Sys2Proof
end

