-- ==== Sys2Proof/Decode.lean ====
section
/-! DEFINITION. From bits to instructions and back (`30_encoding.md`): the fields of an instruction word (R80, R82), the total
decoder (R85, R88), the encoder, and the written form of instruction words (R93). -/

namespace Sys2Proof

/-- `IR.F`, bits 18 to 13 (R81). -/
def fnField (x : InstrBits) : FnCode := x.extractLsb' 13 6

/-- `IR.N`, bits 12 to 0 (R81). -/
def addressField (x : InstrBits) : Address := x.extractLsb' 0 13

/-- The group `F[5:3]` (R85). -/
def fnGroup (f : FnCode) : BitVec 3 := f.extractLsb' 3 3

/-- The member `F[2:0]` (R85). -/
def fnMember (f : FnCode) : BitVec 3 := f.extractLsb' 0 3

/-- "A jump is recognised by `F[5:3] = 4`" (R85, R303). -/
def isJumpBits (x : InstrBits) : Bool := fnGroup (fnField x) == 4#3

/-- Group 0: arithmetic into the accumulator, store unchanged (R85). -/
def decodeGroup0 (member : BitVec 3) (n : Address) : Instr :=
  match member with
  | 0#3 => .fn00 n
  | 1#3 => .fn01 n
  | 2#3 => .fn02 n
  | 3#3 => .fn03 n
  | 4#3 => .fn04 n
  | 5#3 => .fn05 n
  | 6#3 => .fn06 n
  | _ => .fn07 n

/-- Group 1: accumulator to store, combined value to accumulator (R85). -/
def decodeGroup1 (member : BitVec 3) (n : Address) : Instr :=
  match member with
  | 0#3 => .fn10 n
  | 1#3 => .fn11 n
  | 2#3 => .fn12 n
  | 3#3 => .fn13 n
  | 4#3 => .fn14 n
  | 5#3 => .fn15 n
  | 6#3 => .fn16 n
  | _ => .fn17 n

/-- Group 2: combined value to store, accumulator unchanged (R85). -/
def decodeGroup2 (member : BitVec 3) (n : Address) : Instr :=
  match member with
  | 0#3 => .fn20 n
  | 1#3 => .fn21 n
  | 2#3 => .fn22 n
  | 3#3 => .fn23 n
  | 4#3 => .fn24 n
  | 5#3 => .fn25 n
  | 6#3 => .fn26 n
  | _ => .fn27 n

/-- Group 3: store to accumulator, combined value to store (R85). -/
def decodeGroup3 (member : BitVec 3) (n : Address) : Instr :=
  match member with
  | 0#3 => .fn30 n
  | 1#3 => .fn31 n
  | 2#3 => .fn32 n
  | 3#3 => .fn33 n
  | 4#3 => .fn34 n
  | 5#3 => .fn35 n
  | 6#3 => .fn36 n
  | _ => .fn37 n

/-- Group 4: jumps (R85). -/
def decodeGroup4 (member : BitVec 3) (n : Address) : Instr :=
  match member with
  | 0#3 => .fn40 n
  | 1#3 => .fn41 n
  | 2#3 => .fn42 n
  | 3#3 => .fn43 n
  | 4#3 => .fn44 n
  | 5#3 => .fn45 n
  | 6#3 => .fn46 n
  | _ => .fn47 n

/-- Group 5: shifts, multiply, divide, read AR (R85). -/
def decodeGroup5 (member : BitVec 3) (n : Address) : Instr :=
  match member with
  | 0#3 => .fn50 n
  | 1#3 => .fn51 n
  | 2#3 => .fn52 n
  | 3#3 => .fn53 n
  | 4#3 => .fn54 n
  | 5#3 => .fn55 n
  | 6#3 => .fn56 n
  | _ => .fn57 n

/-- Group 6: floating point, fast shift (R85). -/
def decodeGroup6 (member : BitVec 3) (n : Address) : Instr :=
  match member with
  | 0#3 => .fn60 n
  | 1#3 => .fn61 n
  | 2#3 => .fn62 n
  | 3#3 => .fn63 n
  | 4#3 => .fn64 n
  | 5#3 => if n.getLsbD 12 then .fn65Std n else .fn65Shift n
  | 6#3 => .fn66 n
  | _ => .fn67 n

/-- Group 7: input, output, link, stalls (R85). -/
def decodeGroup7 (member : BitVec 3) (n : Address) : Instr :=
  match member with
  | 0#3 => .fn70 n
  | 1#3 => .fn71 n
  | 2#3 => .fn72 n
  | 3#3 => .fn73 n
  | 4#3 => .fn74 n
  | 5#3 => .fn75 n
  | 6#3 => .fn76 n
  | _ => .fn77 n
/-- The decoder (R85, R88): every 19-bit value is an instruction, so nothing is rejected (R87). -/
def decode (x : InstrBits) : Instr :=
  let k := fnMember (fnField x)
  let n := addressField x
  match fnGroup (fnField x) with
  | 0#3 => decodeGroup0 k n
  | 1#3 => decodeGroup1 k n
  | 2#3 => decodeGroup2 k n
  | 3#3 => decodeGroup3 k n
  | 4#3 => decodeGroup4 k n
  | 5#3 => decodeGroup5 k n
  | 6#3 => decodeGroup6 k n
  | _ => decodeGroup7 k n

/-- The function code of an instruction (R86). -/
def Instr.code : Instr → FnCode
  | .fn00 _ => 0#6
  | .fn01 _ => 1#6
  | .fn02 _ => 2#6
  | .fn03 _ => 3#6
  | .fn04 _ => 4#6
  | .fn05 _ => 5#6
  | .fn06 _ => 6#6
  | .fn07 _ => 7#6
  | .fn10 _ => 8#6
  | .fn11 _ => 9#6
  | .fn12 _ => 10#6
  | .fn13 _ => 11#6
  | .fn14 _ => 12#6
  | .fn15 _ => 13#6
  | .fn16 _ => 14#6
  | .fn17 _ => 15#6
  | .fn20 _ => 16#6
  | .fn21 _ => 17#6
  | .fn22 _ => 18#6
  | .fn23 _ => 19#6
  | .fn24 _ => 20#6
  | .fn25 _ => 21#6
  | .fn26 _ => 22#6
  | .fn27 _ => 23#6
  | .fn30 _ => 24#6
  | .fn31 _ => 25#6
  | .fn32 _ => 26#6
  | .fn33 _ => 27#6
  | .fn34 _ => 28#6
  | .fn35 _ => 29#6
  | .fn36 _ => 30#6
  | .fn37 _ => 31#6
  | .fn40 _ => 32#6
  | .fn41 _ => 33#6
  | .fn42 _ => 34#6
  | .fn43 _ => 35#6
  | .fn44 _ => 36#6
  | .fn45 _ => 37#6
  | .fn46 _ => 38#6
  | .fn47 _ => 39#6
  | .fn50 _ => 40#6
  | .fn51 _ => 41#6
  | .fn52 _ => 42#6
  | .fn53 _ => 43#6
  | .fn54 _ => 44#6
  | .fn55 _ => 45#6
  | .fn56 _ => 46#6
  | .fn57 _ => 47#6
  | .fn60 _ => 48#6
  | .fn61 _ => 49#6
  | .fn62 _ => 50#6
  | .fn63 _ => 51#6
  | .fn64 _ => 52#6
  | .fn65Shift _ => 53#6
  | .fn65Std _ => 53#6
  | .fn66 _ => 54#6
  | .fn67 _ => 55#6
  | .fn70 _ => 56#6
  | .fn71 _ => 57#6
  | .fn72 _ => 58#6
  | .fn73 _ => 59#6
  | .fn74 _ => 60#6
  | .fn75 _ => 61#6
  | .fn76 _ => 62#6
  | .fn77 _ => 63#6

/-- The 19 bits of an instruction: function code, then address (R81). -/
def encode (i : Instr) : InstrBits := i.code ++ i.address

/-- A jump: group 4 (R85, R170). -/
def Instr.isJump (i : Instr) : Bool := fnGroup i.code == 4#3

/-- The first instruction of a word, F1 and N1, bits 38 to 20 (R80, R82). -/
def firstHalf (w : Word) : InstrBits := w.extractLsb' 20 19

/-- The second instruction of a word, F2 and N2, bits 18 to 0 (R80, R82). -/
def secondHalf (w : Word) : InstrBits := w.extractLsb' 0 19

/-- The B digit, bit 19 (R80). -/
def bDigit (w : Word) : Bool := w.getLsbD 19

/-- The word of two instructions and a B digit (R80, R93). -/
def packWord (x1 : InstrBits) (b : Bool) (x2 : InstrBits) : Word := x1 ++ BitVec.ofBool b ++ x2

/-- The instruction the decoder reads from the table's numbering of its bits: bit 0 of `w` is bit 0 of the instruction, bits
from `nbits` on are 0, and an instruction has 19 bits (R81; log 27). -/
def decodeTableWord (nbits w : Nat) : Option Instr :=
  some (decode (BitVec.ofNat 19 (w % 2 ^ nbits)))

/-! ### The written form of instruction words (R93) -/

/-- An octal digit (R93 `octdigit`). -/
def octDigit? (c : Char) : Option Nat :=
  if 48 ≤ c.toNat ∧ c.toNat ≤ 55 then some (c.toNat - 48) else none

/-- A decimal digit. -/
def decDigit? (c : Char) : Option Nat :=
  if 48 ≤ c.toNat ∧ c.toNat ≤ 57 then some (c.toNat - 48) else none

/-- The rest of a `decnumber` (R93): the digits up to the end or to a separator, and what follows them. -/
def decNumberFrom (acc : Nat) : List Char → Nat × List Char
  | [] => (acc, [])
  | c :: cs =>
    match decDigit? c with
    | some d => decNumberFrom (10 * acc + d) cs
    | none => (acc, c :: cs)

/-- `half` of R93: two octal digits of function and a decimal address from 0 to 8191. -/
def parseHalf? : List Char → Option (InstrBits × List Char)
  | a :: b :: c :: cs =>
    match octDigit? a, octDigit? b, decDigit? c with
    | some f1, some f0, some d =>
      let r := decNumberFrom d cs
      if r.1 < 8192 then some (BitVec.ofNat 19 ((8 * f1 + f0) * 8192 + r.1), r.2) else none
    | _, _, _ => none
  | _ => none

/-- `sep` of R93: `:` is B digit 0, `/` is B digit 1. -/
def parseSep? : List Char → Option (Bool × List Char)
  | ':' :: cs => some (false, cs)
  | '/' :: cs => some (true, cs)
  | _ => none

/-- `word` of R93: the encoded word of an instruction literal, none for text outside the grammar. -/
def parseWord? (cs : List Char) : Option Word :=
  match parseHalf? cs with
  | none => none
  | some (x1, r1) =>
    match parseSep? r1 with
    | none => none
    | some (b, r2) =>
      match parseHalf? r2 with
      | some (x2, []) => some (packWord x1 b x2)
      | _ => none

end Sys2Proof
end

