-- ==== Sys2Proof/Machine/Flags.lean ====
section
/-! DEFINITION. The word arithmetic with its overflow indicator (`40_alu_primitives.md` R100 to R106), the two condition flags
(R39, R40), and the double-length values and one-place shifts with theirs (R110 to R116). -/

namespace Sys2Proof.Machine

open Sys2Proof

/-! ### Single length -/

/-- A result with its overflow indicator: `word(v)` and `not fits39(v)` of the true integer result `v` (R101). -/
def aluResult (v : Int) : Word × Bool := (word v, !fits39 v)

/-- `add(a, b)` (R102). -/
def aluAdd (a b : Word) : Word × Bool := aluResult (signed a + signed b)

/-- `sub(a, b)`, minuend first (R103). -/
def aluSub (a b : Word) : Word × Bool := aluResult (signed a - signed b)

/-- `neg(a)` (R104). -/
def aluNeg (a : Word) : Word × Bool := aluSub 0 a

/-- `inc(a)` (R105). -/
def aluInc (a : Word) : Word × Bool := aluAdd a 1

/-- `and(a, b)`, which cannot overflow (R106). -/
def aluAnd (a b : Word) : Word × Bool := (a &&& b, false)

/-- The plain value of an operand (R130, member 0). -/
def aluPlain (p : Word) : Word × Bool := (p, false)

/-- The combined value of member 6 (R130). -/
def aluZero : Word × Bool := (0, false)

/-- The source's overflow test (R101): bits 39 and 38 of the raw 40-bit result differ. -/
def overflow40 (raw : BitVec 40) : Bool := raw.getLsbD 39 ^^ raw.getLsbD 38

/-- `Z` as recomputed from the accumulator (R39, R310). -/
def zeroFlag (acc : Word) : Bool := acc == 0

/-- `NEGA` as recomputed from the accumulator (R40, R310). -/
def negFlag (acc : Word) : Bool := acc.getLsbD 38

/-! ### Double length -/

/-- `AR[37:0]` as a number (R110). -/
def arLow (ar : Word) : Nat := ar.toNat % 2 ^ 38

/-- `dl(ACC, AR)`: the 77-bit value of the double-length accumulator (R110). -/
def dl (acc ar : Word) : Int := signed acc * 2 ^ 38 + (arLow ar : Int)

/-- `dlpair(v)` (R110): the pair that represents `v` when it fits 77 bits. -/
def dlpair (v : Int) : Word × Word := (word (v / 2 ^ 38), word (v % 2 ^ 38))

/-- `dladd` with its overflow indicator (R116). -/
def dlAdd (x y : Word × Word) : (Word × Word) × Bool :=
  let v := dl x.1 x.2 + dl y.1 y.2
  (dlpair v, !(decide (-2 ^ 76 ≤ v) && decide (v ≤ 2 ^ 76 - 1)))

/-- What one place of a shift gives: the two registers and the overflow of that place. -/
structure Shifted where
  acc : Word
  ar : Word
  ov : Bool
deriving DecidableEq, Repr

/-- `signed_shift_right`, one place (R111): `ACC[0]` enters `AR` at bit 37, the sign is copied down. -/
def shiftRightDouble (acc ar : Word) : Shifted :=
  { acc := BitVec.ofBool (acc.getLsbD 38) ++ acc.extractLsb' 1 38
    ar := 0#1 ++ BitVec.ofBool (acc.getLsbD 0) ++ ar.extractLsb' 1 37
    ov := false }

/-- `unsigned_shift_right`, one place (R112): a zero enters at bit 38; `AR` takes no part. -/
def shiftRightSingle (acc ar : Word) : Shifted :=
  { acc := 0#1 ++ acc.extractLsb' 1 38, ar := ar, ov := false }

/-- The overflow of a left shift by one place (R113, R114): the sign would change. -/
def leftOverflow (acc : Word) : Bool := acc.getLsbD 38 ^^ acc.getLsbD 37

/-- `shift_left`, one place, double length (R113): `AR[37]` enters `ACC` at bit 0. -/
def shiftLeftDouble (acc ar : Word) : Shifted :=
  { acc := acc.extractLsb' 0 38 ++ BitVec.ofBool (ar.getLsbD 37)
    ar := 0#1 ++ ar.extractLsb' 0 37 ++ 0#1
    ov := leftOverflow acc }

/-- `shift_left1`, one place, single length (R114); `AR` takes no part. -/
def shiftLeftSingle (acc ar : Word) : Shifted :=
  { acc := acc.extractLsb' 0 38 ++ 0#1, ar := ar, ov := leftOverflow acc }

/-- `shl_n(a, c)` (R115). -/
def shlN (a : Word) (c : Nat) : Word := a <<< c

/-- `rol_n(a, c)` (R115). -/
def rolN (a : Word) (c : Nat) : Word := a <<< (c % 39) ||| a >>> (39 - c % 39)

end Sys2Proof.Machine
end

