-- ==== Sys2Proof/Config.lean ====
section
/-! DEFINITION. The implementation parameters the spec leaves open (`00_scope.md` R5) with the spec's defaults, and the
free values (`93_implementation_defined.md`): constants without a body, which no proof can evaluate. -/

namespace Sys2Proof

/-- The five floating-point result functions of `FPNUM` (R225). -/
inductive FpOp where
  | add | sub | mul | div | std
deriving DecidableEq, Repr

/-- Parameter `DIV56` (R5, R198): how function 56 rounds an inexact quotient. `floor` is the spec's default; `free` is any
admissible function, floor or ceiling chosen for each dividend and divisor by `Config.div56RoundsUp` (log 5). -/
inductive DivRounding where
  | floor | free
deriving DecidableEq, Repr

/-- Parameter `FPNUM` (R5, R225): how an inexact floating-point result is rounded. `halfUp` is the spec's default `FpRound`;
`free` is any admissible function, the lower or the upper neighbour chosen for each operation and operands by
`Config.fpRoundsUp` (log 6). -/
inductive FpRounding where
  | halfUp | free
deriving DecidableEq, Repr

/-- Parameter `F65_FAST` (R5, R239). -/
inductive Fast65 where
  | shift | rotate
deriving DecidableEq, Repr

/-- The open parameters of R5 that an implementation fixes. A beat count `K` is held as `K - 1`, the value `T` takes on the
first beat (R308), so 1 to 128 beats are admissible (log 4). `IMAGE` is the argument of `State.powerOn`. -/
structure Params where
  /-- `MUL_BEATS - 1` -/
  mulLast : BitVec 7
  /-- `DIV_BEATS - 1` -/
  divLast : BitVec 7
  /-- `STD_BEATS - 1` -/
  stdLast : BitVec 7
  div56 : DivRounding
  fpNum : FpRounding
  fast65 : Fast65
deriving DecidableEq, Repr

/-- The defaults of R5: 39, 40 and 2 beats, floor division, round half up, shift. -/
def Params.default : Params :=
  { mulLast := 38, divLast := 39, stdLast := 1, div56 := .floor, fpNum := .halfUp, fast65 := .shift }

/-- The scratch registers of R29, whose widths and contents the spec does not give (log 13). -/
structure Scratch where
  qacc : Word
  qar : Word
  mantreg : Word
  expreg : Word
deriving DecidableEq, Repr, Inhabited

/-- FREE VALUE: the `k`-th unspecified word, `draw(Word)` of R9 (log 7). -/
opaque Config.drawWord : Nat → Word

/-- FREE VALUE: the `k`-th unspecified truth value (log 7). -/
opaque Config.drawFlag : Nat → Bool

/-- FREE VALUE: the `k`-th unspecified content of the scratch registers (R29, log 13). -/
opaque Config.drawScratch : Nat → Scratch

/-- FREE VALUE: whether an admissible `DIV56` other than the default rounds the inexact quotient of this dividend and
divisor up (R198, U8, log 5). -/
opaque Config.div56RoundsUp : Int → Int → Bool

/-- FREE VALUE: whether an admissible `FPNUM` other than the default takes the upper neighbour of this inexact result
(R225, U9, log 6). -/
opaque Config.fpRoundsUp : FpOp → Word → Word → Bool

end Sys2Proof
end

