-- ==== Sys2Proof/Machine/State.lean ====
section
/-! DEFINITION. The state of the machine as plain data (`10_state.md` R20), its value at power-on (R50), and the reasons a
step can stop. The names of the manual stand in the docstrings of the fields. -/

namespace Sys2Proof.Machine

open Sys2Proof

/-- The store (`20_memory.md` R60) as (address, word) pairs, addresses strictly rising, no pair equal to what an unlisted
address reads as (`Store.initial`): equal stores are equal lists. The smallest addressable unit is the 39-bit word (R65, log 1). -/
abbrev Store := List (Nat × Word)

/-- The three-way selector `in.RON` (`50_cycle_controller.md` R320). -/
inductive Ron where
  | read | normal | obey
deriving DecidableEq, Repr

/-- The input wires of R320, as sampled in one word-time. -/
structure Wires where
  /-- `in.F1`, function buttons of the first half -/
  f1 : FnCode
  /-- `in.N1`, address buttons of the first half -/
  n1 : Address
  /-- `in.F2` -/
  f2 : FnCode
  /-- `in.N2` -/
  n2 : Address
  /-- `in.RON` -/
  ron : Ron
  /-- `in.OPERATE`, an event of one word-time -/
  operate : Bool
  /-- `in.MD`, manual data -/
  md : Bool
  /-- `in.RESET`, manual reset -/
  reset : Bool
  /-- `in.CS`, clear store -/
  cs : Bool
  /-- `in.SS`, selected stop enabled -/
  ss : Bool
  /-- `in.READY` -/
  ready : Bool
  /-- `in.TRLINES` -/
  trlines : BitVec 5
deriving DecidableEq, Repr

/-- No button pressed, no peripheral ready, the selector at Normal (DESIGN CHOICE, log 14). -/
def Wires.quiet : Wires :=
  { f1 := 0, n1 := 0, f2 := 0, n2 := 0, ron := .normal, operate := false, md := false, reset := false, cs := false,
    ss := false, ready := false, trlines := 0 }

/-- The output wires of R321, as driven in one word-time. -/
structure Outputs where
  /-- `out.F71` -/
  f71 : Bool
  /-- `out.F72` -/
  f72 : Bool
  /-- `out.F74` -/
  f74 : Bool
  /-- `out.ACT` -/
  act : Bool
  /-- `out.CLINES` -/
  clines : Address
deriving DecidableEq, Repr

/-- The outputs of a word-time that drives none (R290). -/
def Outputs.quiet : Outputs := { f71 := false, f72 := false, f74 := false, act := false, clines := 0 }

/-- The whole state of the machine. -/
structure State where
  /-- `ACC` (R22) -/
  acc : Word
  /-- `AR` (R23), bit 38 always 0 -/
  ar : Word
  /-- `SCR` (R24): bits 13 to 1 the word address, bit 0 the half -/
  scr : BitVec 14
  /-- `IR` (R25) -/
  ir : InstrBits
  /-- `BREG` (R26) -/
  breg : BitVec 19
  /-- `T` (R27) -/
  t : BitVec 7
  /-- `MREG` (R28) -/
  mreg : Word
  /-- `QACC`, `QAR`, `MANTREG`, `EXPREG` (R29) -/
  scratch : Scratch
  /-- `R` (R30): true in the fetch phase, false in the execute phase -/
  fetching : Bool
  /-- `S` (R31) -/
  stopped : Bool
  /-- `L` (R32) -/
  longFn : Bool
  /-- `LW` (R33) -/
  lastWt : Bool
  /-- `B` (R34) -/
  busy : Bool
  /-- `M` (R35) -/
  modPending : Bool
  /-- `OFLOW` (R36) -/
  oflow : Bool
  /-- `PARITY` (R37) -/
  parity : Bool
  /-- `FPO` (R38) -/
  fpo : Bool
  /-- `Z` (R39) -/
  z : Bool
  /-- `NEGA` (R40) -/
  nega : Bool
  /-- `STORE` (`20_memory.md` R60) -/
  store : Store
  /-- the output wires as driven in the word-time just made (`50_cycle_controller.md` R321, log 15) -/
  out : Outputs
  /-- the input wires as they stand for the coming word-time (R320, log 14) -/
  wires : Wires
  /-- MODEL'S OWN: what the environment puts on the input wires in the word-times after that (log 14) -/
  feed : List Wires
  /-- MODEL'S OWN: the open parameters of `00_scope.md` R5 (log 3) -/
  params : Params
  /-- MODEL'S OWN: how many free values have been drawn (log 7) -/
  draws : Nat
deriving DecidableEq, Repr

/-- The machine right after power-on with no core image (R50; `70_reset_and_hazards.md` R360): stopped, in the fetch phase, at
word 0, nothing listed in the store; the parameters at their defaults (R5). -/
def State.reset : State :=
  { acc := 0, ar := 0, scr := 0, ir := 0, breg := 0, t := 0, mreg := 0,
    scratch := { qacc := 0, qar := 0, mantreg := 0, expreg := 0 },
    fetching := true, stopped := true, longFn := false, lastWt := false, busy := false, modPending := false,
    oflow := false, parity := true, fpo := false, z := false, nega := false,
    store := [], out := .quiet, wires := .quiet, feed := [], params := .default, draws := 0 }

/-- Why the machine stops with a fault. The spec's machine has none (`60_exceptions.md` R340). -/
inductive Fault where
  /-- Raised by the execute beat (`executeBeat`) when `IR` holds a jump. "Group 4 never reaches this rule" (R307), so the spec
  gives that state no successor. No run reaches it (`State.Inv`); safe (log 18). -/
  | jumpInExecutePhase
deriving DecidableEq, Repr

/-- Why an instruction has no meaning. No arm of `exec` raises it: all 64 functions are modelled. -/
inductive Refusal where
  /-- Raised by an arm of `exec` for an instruction without a meaning, by its name in the opcode table; safe. -/
  | notModelled (mnemonic : String)
deriving DecidableEq, Repr

end Sys2Proof.Machine
end

