-- ==== Sys2Proof/Machine/Operands.lean ====
section
/-! DEFINITION. How the address field is used (`30_encoding.md` R83), how an instruction is taken from a word and B-modified
(R82, R84), how functions 00 to 37 route their values (`41_group0_3_arith.md` R130), and the beat counts that depend on the
operand (`50_cycle_controller.md` R315). -/

namespace Sys2Proof.Machine

open Sys2Proof

/-- `N` is one of the reserved addresses 0 to 3 (R62, R63). -/
def reserved (n : Address) : Bool := decide (n.toNat < reservedLow)

/-- `SCR[13:1]`, the word address of an instruction (R24). -/
def scrWord (scr : BitVec 14) : Address := scr.extractLsb' 1 13

/-- `SCR[0]`: the second half is selected (R24). -/
def scrSecond (scr : BitVec 14) : Bool := scr.getLsbD 0

/-- `{N, half}`: the sequence control value of a half of word `N` (R171). -/
def scrOf (n : Address) (second : Bool) : BitVec 14 := n ++ BitVec.ofBool second

/-- `N[6:0]`, the places of functions 50, 51, 54, 55 (R83). -/
def shiftCount (n : Address) : BitVec 7 := n.extractLsb' 0 7

/-- `N[5:0]`, the places of function 65 (R83, R239). -/
def fastCount (n : Address) : Nat := (n.extractLsb' 0 6).toNat

/-- `K - 1` for the shifts, `K = max(1, N[6:0])` (R191, R315). -/
def shiftLast (n : Address) : BitVec 7 := if shiftCount n = 0 then 0 else shiftCount n - 1

/-- `K - 1` for function 64: one beat on the zero-word divisor, else 32 (R226, R236, R315). -/
def divideLast (sc : Word) : BitVec 7 := if sc = 0 then 0 else 31

/-- The second instruction of a word as it is fetched (R84, R302): with `M` set, `BREG` is added over all 19 bits. -/
def modified (w : Word) (m : Bool) (breg : BitVec 19) : InstrBits :=
  if m then secondHalf w + breg else secondHalf w

/-- `in.WG`, the word on the buttons (R320); bit 19 is 0. -/
def Wires.wordGenerator (w : Wires) : Word := w.f1 ++ w.n1 ++ 0#1 ++ w.f2 ++ w.n2

/-- The first instruction on the buttons, `{in.F1, in.N1}` (R296). -/
def Wires.buttons (w : Wires) : InstrBits := w.f1 ++ w.n1

/-- What a function of groups 0 to 3 makes of the accumulator and the operand: the new accumulator, the word written back, and the
overflow of its one primitive (R130). -/
structure Routed where
  acc : Word
  sc : Word
  ov : Bool
deriving DecidableEq, Repr

/-- Group 0: the combined value to the accumulator, the store unchanged (R130). -/
def routeToAcc (c : Word × Bool) (n : Word) : Routed := { acc := c.1, sc := n, ov := c.2 }

/-- Group 1: the combined value to the accumulator, the old accumulator to the store (R130). -/
def routeSwap (c : Word × Bool) (a : Word) : Routed := { acc := c.1, sc := a, ov := c.2 }

/-- Group 2: the combined value to the store, the accumulator unchanged (R130). -/
def routeToStore (c : Word × Bool) (a : Word) : Routed := { acc := a, sc := c.1, ov := c.2 }

/-- Group 3: the operand to the accumulator, the combined value to the store (R130). -/
def routeLoad (c : Word × Bool) (n : Word) : Routed := { acc := n, sc := c.1, ov := c.2 }

end Sys2Proof.Machine
end

