-- ==== Sys2Proof/Machine/Ops.lean ====
section
/-! DEFINITION. The shared operations on the state: the store (`20_memory.md`), free values, the floating-point stop, and the
frame of every beat (`50_cycle_controller.md` R307 to R311). The machine has no exceptions (`60_exceptions.md` R340, R352): what
stands where another machine takes one is `State.floatStop` (R342). -/

namespace Sys2Proof.Machine

open Sys2Proof

/-! ### The store -/

/-- What an address that is not listed reads as: the bootstrap words at 0 to 3 (`70_reset_and_hazards.md` R361), zero elsewhere (the
default of `IMAGE`, R5; log 2). -/
def Store.initial (a : Nat) : Word :=
  match a with
  | 0 => packWord (22#6 ++ 4#13) false (6#6 ++ 0#13)
  | 1 => packWord (18#6 ++ 4#13) true (14#6 ++ 3#13)
  | 2 => packWord (45#6 ++ 5#13) false (57#6 ++ 0#13)
  | 3 => packWord (35#6 ++ 1#13) false (32#6 ++ 2#13)
  | _ => 0

/-- `STORE[a]` (R9, R60). -/
def Store.read (m : Store) (a : Nat) : Word :=
  match m with
  | [] => Store.initial a
  | (b, w) :: rest => if a = b then w else Store.read rest a

/-- `STORE[a] <- v`, in canonical form: writing what an unlisted address reads as removes the entry. -/
def Store.write (m : Store) (a : Nat) (v : Word) : Store :=
  match m with
  | [] => if v = Store.initial a then [] else [(a, v)]
  | (b, w) :: rest =>
    if a < b then (if v = Store.initial a then (b, w) :: rest else (a, v) :: (b, w) :: rest)
    else if a = b then (if v = Store.initial a then rest else (a, v) :: rest)
    else (b, w) :: Store.write rest a v

/-- The canonical form from address `lo` on: addresses strictly rising and below 8192, no entry equal to what an unlisted
address reads as. -/
def Store.wfFrom (lo : Nat) (m : Store) : Bool :=
  match m with
  | [] => true
  | (a, w) :: rest =>
    decide (lo ≤ a) && decide (a < storeWords) && (w != Store.initial a) && Store.wfFrom (a + 1) rest

/-- The canonical form of the store. -/
def Store.wf (m : Store) : Bool := Store.wfFrom 0 m

/-- The store read makes `STORE[a]` zero while `in.CS` is true and `a >= 4` (R75); otherwise it has no effect (R67). -/
def State.clearOnRead (s : State) (a : Address) : State :=
  { s with store := if s.wires.cs && !reserved a then s.store.write a.toNat 0 else s.store }

/-- `FetchRead(a)` (R61), zero while `in.CS` is true and `a >= 4` (R75). -/
def State.fetchRead (s : State) (a : Address) : Word :=
  if s.wires.cs && !reserved a then 0 else s.store.read a.toNat

/-- `MemRead(a)` (R62), zero also while `in.CS` is true (R75). -/
def State.memRead (s : State) (a : Address) : Word :=
  if s.wires.cs || reserved a then 0 else s.store.read a.toNat

/-- `MemWrite(a, v)` (R63). -/
def State.memWrite (s : State) (a : Address) (v : Word) : State :=
  { s with store := if reserved a then s.store else s.store.write a.toNat v }

/-! ### Free values (log 7) -/

/-- The unspecified word of this draw. -/
def State.freeWord (s : State) : Word := Config.drawWord s.draws

/-- The unspecified truth value of this draw. -/
def State.freeFlag (s : State) : Bool := Config.drawFlag s.draws

/-- A draw is used up: the next one is another. -/
def State.drawn (s : State) : State := { s with draws := s.draws + 1 }

/-- The scratch registers after a beat of a long function that works in them: unspecified (R29, log 13). -/
def State.workScratch (s : State) : State := { s with scratch := Config.drawScratch s.draws, draws := s.draws + 1 }

/-! ### The stop in place of a trap -/

/-- The machine's reaction to a floating-point fault (R231, R236, R342): `FPO` and `S` are set, always together. The instruction
goes on to its normal end; the stop takes effect in the next fetch phase (R295). -/
def State.floatStop (s : State) : State := { s with fpo := true, stopped := true }

/-! ### The frame of a beat -/

/-- No output is driven (R290). -/
def State.quietOutputs (s : State) : State := { s with out := .quiet }

/-- `Sequence` (R308): `k` is `K - 1` of this instruction, `latch` says whether `MREG` takes the operand on the first beat. -/
def State.sequence (s : State) (k : BitVec 7) (latch : Bool) (sc : Word) : State :=
  let t := if s.longFn then s.t - 1 else k
  { s with t := t, longFn := t != 0, lastWt := (t == 0) && s.longFn, mreg := if latch && !s.longFn then sc else s.mreg }

/-- `BREG` at the end of a beat that leaves `sc` at address `n` (R310). -/
def nextBreg (n : Address) (sc : Word) : BitVec 19 := if reserved n then 0 else sc.extractLsb' 0 19

/-- `EndOfBeat` (R310): `sc` is the word written back. -/
def State.endOfBeat (s : State) (n : Address) (sc : Word) : State :=
  { s with breg := nextBreg n sc, z := zeroFlag s.acc, nega := negFlag s.acc }

/-- `Advance` (R311). -/
def State.advance (s : State) : State :=
  { s with
    fetching := s.fetching || !(s.longFn || s.busy)
    scr := if s.longFn || s.busy then s.scr else s.scr + 1 }

/-- The end of every execute beat: write-back, `BREG`, `Z`, `NEGA`, phase (R307). -/
def State.finish (s : State) (n : Address) (sc : Word) : State := ((s.memWrite n sc).endOfBeat n sc).advance

/-- What a handler leaves: the state and the store chain (R45, R307). -/
structure Handled where
  state : State
  sc : Word

/-- One execute beat of a function that goes through `Sequence` (R307). `k` gives `K - 1` from the operand (R315); the handler `h`
is given `first`, `last`, the operand and the state. -/
def sequencedBeat (n : Address) (k : Word → BitVec 7) (latch : Bool)
    (h : Bool → Bool → Word → State → Handled) (s : State) : State :=
  let sc := s.memRead n
  let s1 := (s.clearOnRead n).sequence (k sc) latch sc
  let r := h (!s.longFn) (!s1.longFn) sc s1
  r.state.finish n r.sc

/-- One execute beat of functions 70, 71, 72, 74, 75, 76 (R307): `LW` false, `L` and `T` untouched, the store word unchanged (R260).
The handler `h` may set or clear `B`. -/
def ioBeat (n : Address) (h : State → State) (s : State) : State :=
  let sc := s.memRead n
  (h { s.clearOnRead n with lastWt := false }).finish n sc

/-- One beat of functions 00 to 37 (R131): `f` is given the accumulator and the operand. -/
def arithBeat (n : Address) (f : Word → Word → Routed) (s : State) : State :=
  sequencedBeat n (fun _ => 0) false
    (fun _ _ sc s =>
      let r := f s.acc sc
      { state := { s with acc := r.acc, oflow := s.oflow || r.ov }, sc := r.sc }) s

/-- One beat of a function that leaves the store word unchanged and does its whole work in one beat of `K = 1` (57, 65 with N < 4096,
66, 67). -/
def plainBeat (n : Address) (h : State → State) (s : State) : State :=
  sequencedBeat n (fun _ => 0) false (fun _ _ sc s => { state := h s, sc := sc }) s

/-- One place of a shift applied to the registers (R191). -/
def State.shiftPlace (s : State) (place : Word → Word → Shifted) : State :=
  let r := place s.acc s.ar
  { s with acc := r.acc, ar := r.ar, oflow := s.oflow || r.ov }

/-- One beat of the shifts 50, 51, 54, 55 (R191): `clearAr` clears `AR` on the first beat; with a count of 0 nothing is shifted. -/
def shiftBeat (n : Address) (clearAr : Bool) (place : Word → Word → Shifted) (s : State) : State :=
  sequencedBeat n (fun _ => shiftLast n) false
    (fun first _ sc s =>
      let s1 := if clearAr && first then { s with ar := 0 } else s
      { state := if shiftCount n = 0 then s1 else s1.shiftPlace place, sc := sc }) s

/-- One beat of a long function that commits its result on its last beat (R309): `k` is `K - 1`. -/
def longBeat (n : Address) (k : BitVec 7) (latch : Bool) (commit : State → State) (s : State) : State :=
  sequencedBeat n (fun _ => k) latch
    (fun _ last sc s => { state := if last then commit s.workScratch else s.workScratch, sc := sc }) s

end Sys2Proof.Machine
end

