-- ==== Sys2Proof/Machine/Arith.lean ====
section
/-! DEFINITION. Functions 00 to 37 (`41_group0_3_arith.md` R130 to R164): arithmetic and transfer between the accumulator `a` and the
store word `n`. -/

namespace Sys2Proof.Machine

open Sys2Proof

/-- Function 00, do nothing (R132). -/
def execFn00 (n : Address) (s : State) : Host.Outcome State Fault Refusal :=
  .next (arithBeat n (fun a w => routeToAcc (aluPlain a) w) s)

/-- Function 01, negate (R133). -/
def execFn01 (n : Address) (s : State) : Host.Outcome State Fault Refusal :=
  .next (arithBeat n (fun a w => routeToAcc (aluNeg a) w) s)

/-- Function 02, replace and count (R134). -/
def execFn02 (n : Address) (s : State) : Host.Outcome State Fault Refusal :=
  .next (arithBeat n (fun _ w => routeToAcc (aluInc w) w) s)

/-- Function 03, collate (R135). -/
def execFn03 (n : Address) (s : State) : Host.Outcome State Fault Refusal :=
  .next (arithBeat n (fun a w => routeToAcc (aluAnd a w) w) s)

/-- Function 04, add (R136). -/
def execFn04 (n : Address) (s : State) : Host.Outcome State Fault Refusal :=
  .next (arithBeat n (fun a w => routeToAcc (aluAdd a w) w) s)

/-- Function 05, subtract (R137). -/
def execFn05 (n : Address) (s : State) : Host.Outcome State Fault Refusal :=
  .next (arithBeat n (fun a w => routeToAcc (aluSub a w) w) s)

/-- Function 06, clear (R138). -/
def execFn06 (n : Address) (s : State) : Host.Outcome State Fault Refusal :=
  .next (arithBeat n (fun _ w => routeToAcc aluZero w) s)

/-- Function 07, negate and add (R139). -/
def execFn07 (n : Address) (s : State) : Host.Outcome State Fault Refusal :=
  .next (arithBeat n (fun a w => routeToAcc (aluSub w a) w) s)

/-- Function 10, exchange (R140). -/
def execFn10 (n : Address) (s : State) : Host.Outcome State Fault Refusal :=
  .next (arithBeat n (fun a w => routeSwap (aluPlain w) a) s)

/-- Function 11, exchange and negate (R141). -/
def execFn11 (n : Address) (s : State) : Host.Outcome State Fault Refusal :=
  .next (arithBeat n (fun a w => routeSwap (aluNeg w) a) s)

/-- Function 12, exchange and count (R142). -/
def execFn12 (n : Address) (s : State) : Host.Outcome State Fault Refusal :=
  .next (arithBeat n (fun a w => routeSwap (aluInc w) a) s)

/-- Function 13, write and collate (R143). -/
def execFn13 (n : Address) (s : State) : Host.Outcome State Fault Refusal :=
  .next (arithBeat n (fun a w => routeSwap (aluAnd a w) a) s)

/-- Function 14, write and add (R144). -/
def execFn14 (n : Address) (s : State) : Host.Outcome State Fault Refusal :=
  .next (arithBeat n (fun a w => routeSwap (aluAdd a w) a) s)

/-- Function 15, write and subtract (R145). -/
def execFn15 (n : Address) (s : State) : Host.Outcome State Fault Refusal :=
  .next (arithBeat n (fun a w => routeSwap (aluSub a w) a) s)

/-- Function 16, write and clear (R146). -/
def execFn16 (n : Address) (s : State) : Host.Outcome State Fault Refusal :=
  .next (arithBeat n (fun a _ => routeSwap aluZero a) s)

/-- Function 17, write and negate-add (R147). -/
def execFn17 (n : Address) (s : State) : Host.Outcome State Fault Refusal :=
  .next (arithBeat n (fun a w => routeSwap (aluSub w a) a) s)

/-- Function 20, write (R148). -/
def execFn20 (n : Address) (s : State) : Host.Outcome State Fault Refusal :=
  .next (arithBeat n (fun a _ => routeToStore (aluPlain a) a) s)

/-- Function 21, write negatively (R149). -/
def execFn21 (n : Address) (s : State) : Host.Outcome State Fault Refusal :=
  .next (arithBeat n (fun a _ => routeToStore (aluNeg a) a) s)

/-- Function 22, count in store (R150). -/
def execFn22 (n : Address) (s : State) : Host.Outcome State Fault Refusal :=
  .next (arithBeat n (fun a w => routeToStore (aluInc w) a) s)

/-- Function 23, collate in store (R151). -/
def execFn23 (n : Address) (s : State) : Host.Outcome State Fault Refusal :=
  .next (arithBeat n (fun a w => routeToStore (aluAnd a w) a) s)

/-- Function 24, add into store (R152). -/
def execFn24 (n : Address) (s : State) : Host.Outcome State Fault Refusal :=
  .next (arithBeat n (fun a w => routeToStore (aluAdd a w) a) s)

/-- Function 25, negate store and add (R153). -/
def execFn25 (n : Address) (s : State) : Host.Outcome State Fault Refusal :=
  .next (arithBeat n (fun a w => routeToStore (aluSub a w) a) s)

/-- Function 26, clear store (R154). -/
def execFn26 (n : Address) (s : State) : Host.Outcome State Fault Refusal :=
  .next (arithBeat n (fun a _ => routeToStore aluZero a) s)

/-- Function 27, subtract from store (R155). -/
def execFn27 (n : Address) (s : State) : Host.Outcome State Fault Refusal :=
  .next (arithBeat n (fun a w => routeToStore (aluSub w a) a) s)

/-- Function 30, replace (R156). -/
def execFn30 (n : Address) (s : State) : Host.Outcome State Fault Refusal :=
  .next (arithBeat n (fun _ w => routeLoad (aluPlain w) w) s)

/-- Function 31, replace and negate store (R157). -/
def execFn31 (n : Address) (s : State) : Host.Outcome State Fault Refusal :=
  .next (arithBeat n (fun _ w => routeLoad (aluNeg w) w) s)

/-- Function 32, replace and count in store (R158). -/
def execFn32 (n : Address) (s : State) : Host.Outcome State Fault Refusal :=
  .next (arithBeat n (fun _ w => routeLoad (aluInc w) w) s)

/-- Function 33, replace and collate in store (R159). -/
def execFn33 (n : Address) (s : State) : Host.Outcome State Fault Refusal :=
  .next (arithBeat n (fun a w => routeLoad (aluAnd a w) w) s)

/-- Function 34, replace and add to store (R160). -/
def execFn34 (n : Address) (s : State) : Host.Outcome State Fault Refusal :=
  .next (arithBeat n (fun a w => routeLoad (aluAdd a w) w) s)

/-- Function 35, replace, negate store and add (R161). -/
def execFn35 (n : Address) (s : State) : Host.Outcome State Fault Refusal :=
  .next (arithBeat n (fun a w => routeLoad (aluSub a w) w) s)

/-- Function 36, replace and clear store (R162). -/
def execFn36 (n : Address) (s : State) : Host.Outcome State Fault Refusal :=
  .next (arithBeat n (fun _ w => routeLoad aluZero w) s)

/-- Function 37, replace and subtract from store (R163). -/
def execFn37 (n : Address) (s : State) : Host.Outcome State Fault Refusal :=
  .next (arithBeat n (fun a w => routeLoad (aluSub w a) w) s)

end Sys2Proof.Machine
end

