-- ==== Sys2Proof/Machine/FloatNum.lean ====
section
/-! DEFINITION. Floating-point numbers (`44_group6_float.md` R220 to R222, `40_alu_primitives.md` R118) and the reference arithmetic
`FpRound` (R224) with the admissible `FPNUM` (R225). A rational is held as `num / den * 2^exp`. -/

namespace Sys2Proof.Machine

open Sys2Proof

/-- The exponent field of a packed word (R220). -/
def fpExp (w : Word) : Nat := (w.extractLsb' 0 9).toNat

/-- The mantissa of a packed word as a signed integer (R220). -/
def fpMant (w : Word) : Int := (w.extractLsb' 9 30).toInt

/-- `fp_split(w)` (R118, R220). -/
def fpSplit (w : Word) : Nat × Int := (fpExp w, fpMant w)

/-- `fp_join(m, e)` (R118, R220). -/
def fpJoin (m : Int) (e : Nat) : Word := BitVec.ofInt 30 m ++ BitVec.ofNat 9 e

/-- The word is in standard form (R222): the zero word, or the two top bits differ. -/
def fpStandard (w : Word) : Bool := w == 0 || (w.getLsbD 38 != w.getLsbD 37)

/-- An exact rational result, `num / den * 2^exp`. -/
structure Exact where
  num : Int
  den : Nat
  exp : Int
deriving DecidableEq, Repr

/-- Numerator and denominator of `num / den * 2^k`. -/
def Exact.scaled (v : Exact) (k : Int) : Int × Nat :=
  if 0 ≤ k then (v.num * 2 ^ k.toNat, v.den) else (v.num, v.den * 2 ^ (-k).toNat)

/-- `floor(num / den * 2^k)`. -/
def Exact.floorAt (v : Exact) (k : Int) : Int := (v.scaled k).1 / ((v.scaled k).2 : Int)

/-- `num / den * 2^k` is an integer. -/
def Exact.integralAt (v : Exact) (k : Int) : Bool := (v.scaled k).1 % ((v.scaled k).2 : Int) == 0

/-- A 30-bit mantissa is normalised (R222). -/
def normalised (m : Int) : Bool :=
  (decide (2 ^ 28 ≤ m) && decide (m < 2 ^ 29)) || (decide (-2 ^ 29 ≤ m) && decide (m < -2 ^ 28))

/-- The shift that normalises (R224): `num / den * 2^k` lies in [2^28, 2^29) or in [-2^29, -2^28). -/
def Exact.normShift (v : Exact) : Int :=
  let k : Int := 28 - ((v.num.natAbs.log2 : Int) - (v.den.log2 : Int))
  if normalised (v.floorAt k) then k else k + 1

/-- The end of `FpRound` (R224): rounding may have carried out of the mantissa; an exponent field above 511 is `overflow` (none), one
below 0 is the zero word (R232). `x` is the true exponent. -/
def fpPack (m x : Int) : Option Word :=
  let r : Int × Int := if m = 2 ^ 29 then (2 ^ 28, x + 1) else if m = -2 ^ 28 then (-2 ^ 29, x - 1) else (m, x)
  let e := r.2 + 256
  if e > 511 then none else if e < 0 then some 0 else some (fpJoin r.1 e.toNat)

/-- The result with the lower (`up` false) or the upper neighbour as mantissa; an exact result is kept (R225). -/
def fpRoundTo (up : Bool) (v : Exact) : Option Word :=
  if v.num = 0 then some 0
  else
    let k := v.normShift
    fpPack (v.floorAt k + if up && !v.integralAt k then 1 else 0) (v.exp + 29 - k)

/-- Half up (R120, R224): the first discarded bit is 1. -/
def Exact.halfUp (v : Exact) : Bool := v.floorAt (v.normShift + 1) % 2 == 1

/-- `FpRound(v)` (R224); none is `overflow`. -/
def fpRound (v : Exact) : Option Word := fpRoundTo v.halfUp v

/-- `val(w) = m * 2^(e - 256 - 29)` (R221). -/
def fpVal (w : Word) : Exact := { num := fpMant w, den := 1, exp := (fpExp w : Int) - 285 }

/-- `x + y`, both with denominator 1. -/
def Exact.add (x y : Exact) : Exact :=
  let lo := min x.exp y.exp
  { num := x.num * 2 ^ (x.exp - lo).toNat + y.num * 2 ^ (y.exp - lo).toNat, den := 1, exp := lo }

/-- `-x`. -/
def Exact.neg (x : Exact) : Exact := { x with num := -x.num }

/-- `x * y`. -/
def Exact.mul (x y : Exact) : Exact := { num := x.num * y.num, den := x.den * y.den, exp := x.exp + y.exp }

/-- `x / y` for `y` not 0, both with denominator 1. -/
def Exact.div (x y : Exact) : Exact := { num := x.num * y.num.sign, den := y.num.natAbs, exp := x.exp - y.exp }

/-- The exact result of a floating-point operation (R225); `std` converts the integer `a` (R240). -/
def fpExact (op : FpOp) (a n : Word) : Exact :=
  match op with
  | .add => (fpVal a).add (fpVal n)
  | .sub => (fpVal a).add (fpVal n).neg
  | .mul => (fpVal a).mul (fpVal n)
  | .div => (fpVal a).div (fpVal n)
  | .std => { num := signed a, den := 1, exp := 0 }

/-- `FPNUM` (R225): the default is `FpRound`, any other admissible function takes a neighbour of its own (log 6). -/
def fpNum (r : FpRounding) (op : FpOp) (a n : Word) : Option Word :=
  match r with
  | .halfUp => fpRound (fpExact op a n)
  | .free => fpRoundTo (Config.fpRoundsUp op a n) (fpExact op a n)

end Sys2Proof.Machine
end

