-- ==== Sys2Proof/Machine/Float.lean ====
section
/-! DEFINITION. Functions 60 to 67 (`44_group6_float.md` R226 to R242): floating point, fast shift, standardise, no operations. -/

namespace Sys2Proof.Machine

open Sys2Proof

/-- Floating-point overflow (R231): `FPO` and `S` set, `AR` cleared, `ACC` a free value (U5, log 9). -/
def State.floatOverflow (s : State) : State := { s.drawn.floatStop with acc := s.freeWord, ar := 0 }

/-- A result, or `overflow` (R230, R231). -/
def State.floatResult (s : State) (r : Option Word) : State :=
  match r with
  | some w => { s with acc := w, ar := 0 }
  | none => s.floatOverflow

/-- A divisor with a zero mantissa and a non-zero exponent (R236, U4, log 11): `ACC` is a free value, `AR` is cleared, and `FPO` and `S`
are both left or both set, a free choice. -/
def State.floatZeroMantissa (s : State) : State :=
  let s1 := if s.freeFlag then s.floatStop else s
  { s1.drawn with acc := s.freeWord, ar := 0 }

/-- An operand that is not in standard form (R223, U7, log 10): the result is unspecified, either overflow or a word in standard form. -/
def State.floatUnspecified (s : State) : State :=
  if s.freeFlag then s.floatOverflow
  else { s.drawn with acc := if fpStandard s.freeWord then s.freeWord else 0, ar := 0 }

/-- The result of functions 60 to 64 on their last beat (R230). -/
def State.commitFloat (s : State) (op : FpOp) (a n : Word) : State :=
  if op = .div ∧ fpMant n = 0 then s.floatZeroMantissa
  else if fpStandard a && fpStandard n then s.floatResult (fpNum s.params.fpNum op a n)
  else s.floatUnspecified

/-- Function 60, floating add (R233): 2 beats. -/
def execFn60 (n : Address) (s : State) : Host.Outcome State Fault Refusal :=
  .next (longBeat n 1 true (fun s => s.commitFloat .add s.acc s.mreg) s)

/-- Function 61, floating subtract (R234): 2 beats. -/
def execFn61 (n : Address) (s : State) : Host.Outcome State Fault Refusal :=
  .next (longBeat n 1 true (fun s => s.commitFloat .sub s.acc s.mreg) s)

/-- Function 62, floating reverse subtract (R235): 2 beats. -/
def execFn62 (n : Address) (s : State) : Host.Outcome State Fault Refusal :=
  .next (longBeat n 1 true (fun s => s.commitFloat .sub s.mreg s.acc) s)

/-- Function 63, floating multiply (R237): 16 beats. -/
def execFn63 (n : Address) (s : State) : Host.Outcome State Fault Refusal :=
  .next (longBeat n 15 true (fun s => s.commitFloat .mul s.acc s.mreg) s)

/-- What function 64 does in a beat (R236, R238): on the first beat the zero-word divisor stops the machine with `ACC` and `AR`
kept; otherwise the result comes on the last beat. That the zero-divisor beat leaves the scratch registers as they are, where the other
beats draw their contents, is the model's choice: R29 and R236 give their contents at no beat (log 13). -/
def State.divideWork (s : State) (first last : Bool) (sc : Word) : State :=
  if first && sc == 0 then s.floatStop
  else if last then s.workScratch.commitFloat .div s.acc s.mreg
  else s.workScratch

/-- Function 64, floating divide (R238): 32 beats, or 1 on the zero-word divisor. -/
def execFn64 (n : Address) (s : State) : Host.Outcome State Fault Refusal :=
  .next (sequencedBeat n divideLast true
    (fun first last sc s => { state := s.divideWork first last sc, sc := sc }) s)

/-- The fast shift of parameter `F65_FAST` (R239). -/
def fastShift (f : Fast65) (a : Word) (c : Nat) : Word :=
  match f with
  | .shift => shlN a c
  | .rotate => rolN a c

/-- Function 65 with N < 4096, fast shift left (R239): one beat, no overflow. -/
def execFn65Shift (n : Address) (s : State) : Host.Outcome State Fault Refusal :=
  .next (plainBeat n (fun s => { s with acc := fastShift s.params.fast65 s.acc (fastCount n), ar := 0 }) s)

/-- Function 65 with N >= 4096, standardise (R240): `STD_BEATS` beats. -/
def execFn65Std (n : Address) (s : State) : Host.Outcome State Fault Refusal :=
  .next (longBeat n s.params.stdLast false
    (fun s => s.floatResult (fpNum s.params.fpNum .std s.acc 0)) s)

/-- Function 66, no operation (R241). -/
def execFn66 (n : Address) (s : State) : Host.Outcome State Fault Refusal :=
  .next (plainBeat n (fun s => s) s)

/-- Function 67, no operation (R242). -/
def execFn67 (n : Address) (s : State) : Host.Outcome State Fault Refusal :=
  .next (plainBeat n (fun s => s) s)

end Sys2Proof.Machine
end

