-- ==== Sys2Proof/Machine/Io.lean ====
section
/-! DEFINITION. Functions 70 to 77 (`45_group7_io.md` R260 to R268): input, output, link, stalls. -/

namespace Sys2Proof.Machine

open Sys2Proof

/-- Function 70, read the word generator (R261): with manual data it waits for the operate event. -/
def State.readGenerator (s : State) : State :=
  if s.wires.md && !s.wires.operate then { s with busy := true }
  else { s with acc := s.wires.wordGenerator, busy := false }

/-- Function 70, read the word generator (R261). -/
def execFn70 (n : Address) (s : State) : Host.Outcome State Fault Refusal :=
  .next (ioBeat n State.readGenerator s)

/-- The busy/ready protocol (R260): the lines `o` are driven (the strobe of the function, with `CLINES`), and the transfer `f` is made
with the acknowledge when `in.READY` is true; else the core stays busy. -/
def State.transfer (s : State) (o : Outputs) (f : State → State) : State :=
  if s.wires.ready then { f s with busy := false, out := { o with act := true } } else { s with busy := true, out := o }

/-- Function 71, read a tape character (R262): the five data lines are ORed into the accumulator. -/
def execFn71 (n : Address) (s : State) : Host.Outcome State Fault Refusal :=
  .next (ioBeat n (fun s => s.transfer { Outputs.quiet with f71 := true, clines := n }
    (fun s => { s with acc := s.acc ||| s.wires.trlines.setWidth 39 })) s)

/-- Function 72, output to a channel (R263). -/
def execFn72 (n : Address) (s : State) : Host.Outcome State Fault Refusal :=
  .next (ioBeat n (fun s => s.transfer { Outputs.quiet with f72 := true, clines := n } (fun s => s)) s)

/-- The link (R264): the address of the word that holds this instruction. -/
def linkWord (scr : BitVec 14) : Word := (scrWord scr).setWidth 39

/-- Function 73, store the link (R264). -/
def execFn73 (n : Address) (s : State) : Host.Outcome State Fault Refusal :=
  .next (sequencedBeat n (fun _ => 0) false (fun _ _ _ s => { state := s, sc := linkWord s.scr }) s)

/-- Function 74, output a character (R265). -/
def execFn74 (n : Address) (s : State) : Host.Outcome State Fault Refusal :=
  .next (ioBeat n (fun s => s.transfer { Outputs.quiet with f74 := true, clines := n } (fun s => s)) s)

/-- Function 75, busy stall (R266): every beat sets `B`; only RESET ends it. -/
def execFn75 (n : Address) (s : State) : Host.Outcome State Fault Refusal :=
  .next (ioBeat n (fun s => { s with busy := true }) s)

/-- Function 76, busy stall (R267). -/
def execFn76 (n : Address) (s : State) : Host.Outcome State Fault Refusal :=
  .next (ioBeat n (fun s => { s with busy := true }) s)

/-- Function 77, no operation of two beats (R268). -/
def execFn77 (n : Address) (s : State) : Host.Outcome State Fault Refusal :=
  .next (sequencedBeat n (fun _ => 1) false (fun _ _ sc s => { state := s, sc := sc }) s)

end Sys2Proof.Machine
end

