-- ==== Sys2Proof/Machine/Jump.lean ====
section
/-! DEFINITION. Functions 40 to 47 (`42_group4_jumps.md` R170 to R181): jumps, carried out in the fetch beat. No operand access is made,
`R` stays true, and nothing but `SCR`, `M` and (43, 47) `OFLOW` is written. -/

namespace Sys2Proof.Machine

open Sys2Proof

/-- R171: a taken jump loads `SCR` and clears `M`, an untaken one advances `SCR` and leaves `M` (log 20). -/
def State.jump (s : State) (cond : Bool) (n : Address) (second : Bool) : State :=
  { s with scr := if cond then scrOf n second else s.scr + 1, modPending := !cond && s.modPending }

/-- R176: the jumps on overflow clear `OFLOW` after testing it, taken or not. -/
def State.jumpOverflow (s : State) (n : Address) (second : Bool) : State :=
  { s.jump s.oflow n second with oflow := false }

/-- Function 40, jump to first half (R172). -/
def execFn40 (n : Address) (s : State) : Host.Outcome State Fault Refusal :=
  .next (s.jump true n false)

/-- Function 41, jump to first half if negative (R173). -/
def execFn41 (n : Address) (s : State) : Host.Outcome State Fault Refusal :=
  .next (s.jump s.nega n false)

/-- Function 42, jump to first half if zero (R174). -/
def execFn42 (n : Address) (s : State) : Host.Outcome State Fault Refusal :=
  .next (s.jump s.z n false)

/-- Function 43, jump to first half if overflow, clear overflow (R175). -/
def execFn43 (n : Address) (s : State) : Host.Outcome State Fault Refusal :=
  .next (s.jumpOverflow n false)

/-- Function 44, jump to second half (R177). -/
def execFn44 (n : Address) (s : State) : Host.Outcome State Fault Refusal :=
  .next (s.jump true n true)

/-- Function 45, jump to second half if negative (R178). -/
def execFn45 (n : Address) (s : State) : Host.Outcome State Fault Refusal :=
  .next (s.jump s.nega n true)

/-- Function 46, jump to second half if zero (R179). -/
def execFn46 (n : Address) (s : State) : Host.Outcome State Fault Refusal :=
  .next (s.jump s.z n true)

/-- Function 47, jump to second half if overflow, clear overflow (R180). -/
def execFn47 (n : Address) (s : State) : Host.Outcome State Fault Refusal :=
  .next (s.jumpOverflow n true)

end Sys2Proof.Machine
end

