-- ==== Sys2Proof/Machine/ShiftMulDiv.lean ====
section
/-! DEFINITION. Functions 50 to 57 (`43_group5_shift_mul_div.md` R190 to R201): shifts, multiply, divide, read AR. -/

namespace Sys2Proof.Machine

open Sys2Proof

/-- Function 50, double-length arithmetic shift right (R192). -/
def execFn50 (n : Address) (s : State) : Host.Outcome State Fault Refusal :=
  .next (shiftBeat n false shiftRightDouble s)

/-- Function 51, single-length logical shift right, clear AR (R193). -/
def execFn51 (n : Address) (s : State) : Host.Outcome State Fault Refusal :=
  .next (shiftBeat n true shiftRightSingle s)

/-- The result of function 52 (R194): the exact signed product as a double-length pair; it overflows only as 2^76. -/
def State.commitMultiply (s : State) : State :=
  let p := signed s.acc * signed s.mreg
  { s with acc := (dlpair p).1, ar := (dlpair p).2, oflow := s.oflow || decide (p = 2 ^ 76) }

/-- Function 52, double-length multiply (R194). -/
def execFn52 (n : Address) (s : State) : Host.Outcome State Fault Refusal :=
  .next (longBeat n s.params.mulLast true State.commitMultiply s)

/-- The result of function 53 (R195): the high half of the product, rounded half up. -/
def State.commitRoundedMultiply (s : State) : State :=
  let q := (signed s.acc * signed s.mreg + 2 ^ 37) / 2 ^ 38
  { s with acc := word q, ar := 0, oflow := s.oflow || !fits39 q }

/-- Function 53, single-length rounded multiply, clear AR (R195). -/
def execFn53 (n : Address) (s : State) : Host.Outcome State Fault Refusal :=
  .next (longBeat n s.params.mulLast true State.commitRoundedMultiply s)

/-- Function 54, double-length arithmetic shift left (R196). -/
def execFn54 (n : Address) (s : State) : Host.Outcome State Fault Refusal :=
  .next (shiftBeat n false shiftLeftDouble s)

/-- Function 55, single-length shift left, clear AR (R197). -/
def execFn55 (n : Address) (s : State) : Host.Outcome State Fault Refusal :=
  .next (shiftBeat n true shiftLeftSingle s)

/-- `DIV56(D, d)` for `d` not 0 (R198): the exact quotient where the division is exact, else its floor or its ceiling. -/
def div56 (r : DivRounding) (dividend divisor : Int) : Int :=
  let q := dividend.fdiv divisor
  let up := match r with
    | .floor => false
    | .free => Config.div56RoundsUp dividend divisor
  if q * divisor = dividend then q else if up then q + 1 else q

/-- The result of function 56 (R198). With a zero divisor `ACC` is `DIV56_ZERO`, a free value (U3, log 8). -/
def State.commitDivide (s : State) : State :=
  let d := signed s.mreg
  if d = 0 then { s.drawn with acc := s.freeWord, ar := 0, oflow := true }
  else
    let q := div56 s.params.div56 (dl s.acc s.ar) d
    { s with acc := word q, ar := 0, oflow := s.oflow || !fits39 q }

/-- Function 56, divide, clear AR (R198). -/
def execFn56 (n : Address) (s : State) : Host.Outcome State Fault Refusal :=
  .next (longBeat n s.params.divLast true State.commitDivide s)

/-- `{0, AR[37:0]}` (R199). -/
def arValue (ar : Word) : Word := 0#1 ++ ar.extractLsb' 0 38

/-- Function 57, read AR into the accumulator (R199). -/
def execFn57 (n : Address) (s : State) : Host.Outcome State Fault Refusal :=
  .next (plainBeat n (fun s => { s with acc := arValue s.ar }) s)

end Sys2Proof.Machine
end

