-- ==== Sys2Proof/Machine/Dispatch.lean ====
section
/-! DEFINITION. The dispatch table of 64 function handlers (`00_scope.md` R2, `50_cycle_controller.md` R303, R307): one arm per
constructor. For a jump the meaning is what the fetch beat does with it, for every other function one execute beat. -/

namespace Sys2Proof.Machine

open Sys2Proof

def exec (i : Instr) (s : State) : Host.Outcome State Fault Refusal :=
  match i with
  | .fn00 n => Sys2Proof.Machine.execFn00 n s
  | .fn01 n => Sys2Proof.Machine.execFn01 n s
  | .fn02 n => Sys2Proof.Machine.execFn02 n s
  | .fn03 n => Sys2Proof.Machine.execFn03 n s
  | .fn04 n => Sys2Proof.Machine.execFn04 n s
  | .fn05 n => Sys2Proof.Machine.execFn05 n s
  | .fn06 n => Sys2Proof.Machine.execFn06 n s
  | .fn07 n => Sys2Proof.Machine.execFn07 n s
  | .fn10 n => Sys2Proof.Machine.execFn10 n s
  | .fn11 n => Sys2Proof.Machine.execFn11 n s
  | .fn12 n => Sys2Proof.Machine.execFn12 n s
  | .fn13 n => Sys2Proof.Machine.execFn13 n s
  | .fn14 n => Sys2Proof.Machine.execFn14 n s
  | .fn15 n => Sys2Proof.Machine.execFn15 n s
  | .fn16 n => Sys2Proof.Machine.execFn16 n s
  | .fn17 n => Sys2Proof.Machine.execFn17 n s
  | .fn20 n => Sys2Proof.Machine.execFn20 n s
  | .fn21 n => Sys2Proof.Machine.execFn21 n s
  | .fn22 n => Sys2Proof.Machine.execFn22 n s
  | .fn23 n => Sys2Proof.Machine.execFn23 n s
  | .fn24 n => Sys2Proof.Machine.execFn24 n s
  | .fn25 n => Sys2Proof.Machine.execFn25 n s
  | .fn26 n => Sys2Proof.Machine.execFn26 n s
  | .fn27 n => Sys2Proof.Machine.execFn27 n s
  | .fn30 n => Sys2Proof.Machine.execFn30 n s
  | .fn31 n => Sys2Proof.Machine.execFn31 n s
  | .fn32 n => Sys2Proof.Machine.execFn32 n s
  | .fn33 n => Sys2Proof.Machine.execFn33 n s
  | .fn34 n => Sys2Proof.Machine.execFn34 n s
  | .fn35 n => Sys2Proof.Machine.execFn35 n s
  | .fn36 n => Sys2Proof.Machine.execFn36 n s
  | .fn37 n => Sys2Proof.Machine.execFn37 n s
  | .fn40 n => Sys2Proof.Machine.execFn40 n s
  | .fn41 n => Sys2Proof.Machine.execFn41 n s
  | .fn42 n => Sys2Proof.Machine.execFn42 n s
  | .fn43 n => Sys2Proof.Machine.execFn43 n s
  | .fn44 n => Sys2Proof.Machine.execFn44 n s
  | .fn45 n => Sys2Proof.Machine.execFn45 n s
  | .fn46 n => Sys2Proof.Machine.execFn46 n s
  | .fn47 n => Sys2Proof.Machine.execFn47 n s
  | .fn50 n => Sys2Proof.Machine.execFn50 n s
  | .fn51 n => Sys2Proof.Machine.execFn51 n s
  | .fn52 n => Sys2Proof.Machine.execFn52 n s
  | .fn53 n => Sys2Proof.Machine.execFn53 n s
  | .fn54 n => Sys2Proof.Machine.execFn54 n s
  | .fn55 n => Sys2Proof.Machine.execFn55 n s
  | .fn56 n => Sys2Proof.Machine.execFn56 n s
  | .fn57 n => Sys2Proof.Machine.execFn57 n s
  | .fn60 n => Sys2Proof.Machine.execFn60 n s
  | .fn61 n => Sys2Proof.Machine.execFn61 n s
  | .fn62 n => Sys2Proof.Machine.execFn62 n s
  | .fn63 n => Sys2Proof.Machine.execFn63 n s
  | .fn64 n => Sys2Proof.Machine.execFn64 n s
  | .fn65Shift n => Sys2Proof.Machine.execFn65Shift n s
  | .fn65Std n => Sys2Proof.Machine.execFn65Std n s
  | .fn66 n => Sys2Proof.Machine.execFn66 n s
  | .fn67 n => Sys2Proof.Machine.execFn67 n s
  | .fn70 n => Sys2Proof.Machine.execFn70 n s
  | .fn71 n => Sys2Proof.Machine.execFn71 n s
  | .fn72 n => Sys2Proof.Machine.execFn72 n s
  | .fn73 n => Sys2Proof.Machine.execFn73 n s
  | .fn74 n => Sys2Proof.Machine.execFn74 n s
  | .fn75 n => Sys2Proof.Machine.execFn75 n s
  | .fn76 n => Sys2Proof.Machine.execFn76 n s
  | .fn77 n => Sys2Proof.Machine.execFn77 n s

end Sys2Proof.Machine
end

