-- ==== Sys2Proof/Machine/Controller.lean ====
section
/-! DEFINITION. The fetch/execute cycle controller (`50_cycle_controller.md` R290 to R304): the reset beat, the stopped beat with the
console, the fetch beat, the execute beat, and the environment's wires between word-times. -/

namespace Sys2Proof.Machine

open Sys2Proof

/-- `IR` holds one of 52, 53, 56, 60 to 65, whose registers are unspecified in the middle (U1, R309). -/
def worksUnseen (ir : InstrBits) : Bool :=
  let f := fnField ir
  f == 42#6 || f == 43#6 || f == 46#6 || (decide (48 ≤ f.toNat) && decide (f.toNat ≤ 53))

/-- `ACC` and `AR` when RESET cuts off one of those functions: free values, `AR[38]` 0 (U1, log 12). In every other case, the shifts
among them, they are as the last completed beat left them (R293). `Z` and `NEGA` stay as they were, as R293 says, so that they need not
describe the free `ACC` until the next execute beat, against the equality of R372: the model's choice (log 12). -/
def State.cutOff (s : State) : State :=
  let cut := s.longFn && worksUnseen s.ir
  { s with
    acc := if cut then Config.drawWord s.draws else s.acc
    ar := if cut then 0#1 ++ (Config.drawWord (s.draws + 1)).extractLsb' 0 38 else s.ar
    draws := if cut then s.draws + 2 else s.draws }

/-- `ResetBeat` (R293). -/
def resetBeat (s : State) : State :=
  { s.cutOff with
    stopped := true, fetching := true, longFn := false, lastWt := false, busy := false, modPending := false, t := 0
    oflow := false, fpo := false, parity := true }

/-- `Decode` (R303): a jump is carried out at once, any other function waits for its first execute beat. -/
def decodeBeat (s : State) : Host.Outcome State Fault Refusal :=
  if isJumpBits s.ir then exec (decode s.ir) s else .next { s with fetching := false }

/-- The buttons as the instruction register takes them on Read and Obey (R296). -/
def State.loadButtons (s : State) : State := { s with ir := s.wires.buttons, modPending := false }

/-- `StoppedBeat` (R295, R296). -/
def stoppedBeat (s : State) : Host.Outcome State Fault Refusal :=
  if s.wires.operate then
    match s.wires.ron with
    | .normal => .next { s with stopped := false }
    | .read => .next s.loadButtons
    | .obey => decodeBeat s.loadButtons
  else .next s

/-- `LoadIR` (R301, R302) from the word `w`. -/
def State.loadIr (s : State) (w : Word) : State :=
  { s with
    ir := if scrSecond s.scr then modified w s.modPending s.breg else firstHalf w
    modPending := !scrSecond s.scr && bDigit w }

/-- `SelectedStop` (R304) at word address `a`. -/
def State.selectedStop (s : State) (a : Address) : State :=
  { s with stopped := s.stopped || (s.wires.ss && s.wires.n1 == a) }

/-- The fetch of the instruction at `SCR`, up to `Decode` (R300). -/
def State.fetched (s : State) : State :=
  let a := scrWord s.scr
  ((s.clearOnRead a).loadIr (s.fetchRead a)).selectedStop a

/-- `FetchBeat` (R300). -/
def fetchBeat (s : State) : Host.Outcome State Fault Refusal := decodeBeat s.fetched

/-- `ExecuteBeat` (R307): the meaning of the instruction in `IR`, which is no jump (log 18). -/
def executeBeat (s : State) : Host.Outcome State Fault Refusal :=
  if isJumpBits s.ir then .fault .jumpInExecutePhase else exec (decode s.ir) s

/-- `WordTime` (R290, R351): RESET first, then the phase, then `S`. -/
def wordTime (s : State) : Host.Outcome State Fault Refusal :=
  let s := s.quietOutputs
  if s.wires.reset then .next (resetBeat s)
  else if s.fetching then (if s.stopped then stoppedBeat s else fetchBeat s)
  else executeBeat s

/-- The wires for the next word-time (R320, log 14): what the environment puts there next, or the levels as they are with the operate
event over. -/
def State.nextWires (s : State) : State :=
  { s with wires := s.feed.headD { s.wires with operate := false }, feed := s.feed.tail }

/-- One word-time and the environment's change of the wires after it. -/
def wordTimeThenWires (s : State) : Host.Outcome State Fault Refusal :=
  match wordTime s with
  | .next t => .next t.nextWires
  | .fault r => .fault r
  | .refused r => .refused r

/-- The word whose half selected by `second` is `x` and whose rest is 0. -/
def wordWithHalf (x : InstrBits) (second : Bool) : Word := if second then packWord 0 false x else packWord x false 0

/-- One instruction is loaded at `SCR` and the machine started on it (log 17): it stands in its half of the word at `SCR`, the machine
runs (`S` false, no RESET, no clear store), and `IR` holds it with the phase as its fetch leaves it, so that the next word-time
carries it out: an execute beat, or for a jump the fetch beat. -/
def State.placeInstruction (s : State) (x : InstrBits) : State :=
  { s with
    store := s.store.write (scrWord s.scr).toNat (wordWithHalf x (scrSecond s.scr))
    ir := x, fetching := isJumpBits x, stopped := false, longFn := false, busy := false, modPending := false, t := 0
    wires := { s.wires with reset := false, cs := false } }

end Sys2Proof.Machine
end

