-- ==== Sys2Proof/Machine/Step.lean ====
section
/-! DEFINITION. One step of the machine is one word-time (`00_scope.md` R11, `50_cycle_controller.md` R290; log 16), and the host's way
to have one instruction run next (log 17). -/

namespace Sys2Proof.Machine

open Sys2Proof

/-- The transition of R290. -/
def step (s : State) : Host.Outcome State Fault Refusal := wordTimeThenWires s

/-- `s` with the instruction of the table's bits `w` placed where the next step carries it out. -/
def State.withFetchWord (s : State) (nbits w : Nat) : State := s.placeInstruction (BitVec.ofNat 19 (w % 2 ^ nbits))

end Sys2Proof.Machine
end

