-- ==== Sys2Proof/Machine/Image.lean ====
section
/-! DEFINITION. What the host can do to the core between word-times (`70_reset_and_hazards.md` R364): power-on with a core image
(R360, `20_memory.md` R76), saving the store, assigning `S`, presetting a test. -/

namespace Sys2Proof.Machine

open Sys2Proof

/-- A 64-bit container from eight bytes of the image file, the least significant first (R76). -/
def containerOfBytes (b0 b1 b2 b3 b4 b5 b6 b7 : BitVec 8) : BitVec 64 := b7 ++ b6 ++ b5 ++ b4 ++ b3 ++ b2 ++ b1 ++ b0

/-- The containers of an image file; bytes after the last whole container are ignored (log 22). -/
def containersOfBytes (bytes : List (BitVec 8)) : List (BitVec 64) :=
  match bytes with
  | b0 :: b1 :: b2 :: b3 :: b4 :: b5 :: b6 :: b7 :: rest => containerOfBytes b0 b1 b2 b3 b4 b5 b6 b7 :: containersOfBytes rest
  | _ => []

/-- The eight bytes of a container, the least significant first (R76). -/
def bytesOfContainer (c : BitVec 64) : List (BitVec 8) := (List.range 8).map (fun k => c.extractLsb' (8 * k) 8)

/-- The store word of a container: bits 38 to 0; bits 39 to 63 are ignored (R76). -/
def wordOfContainer (c : BitVec 64) : Word := c.setWidth 39

/-- The container of a store word: `ext40` extended with zeros (R76). -/
def containerOfWord (w : Word) : BitVec 64 := (ext40 w).setWidth 64

/-- The store that containers give from address `a` on. Words at 0 to 3 are replaced by the bootstrap words (R76, R360), containers
beyond address 8191 are ignored (log 22). -/
def storeFrom (a : Nat) (cs : List (BitVec 64)) : Store :=
  match cs with
  | [] => []
  | c :: rest =>
    if reservedLow ≤ a ∧ a < storeWords ∧ wordOfContainer c ≠ 0 then (a, wordOfContainer c) :: storeFrom (a + 1) rest
    else storeFrom (a + 1) rest

/-- The store loaded from a core image file (R76). -/
def loadImage (bytes : List (BitVec 8)) : Store := storeFrom 0 (containersOfBytes bytes)

/-- The core image file of a store, 8192 containers (R76). -/
def saveImage (m : Store) : List (BitVec 8) :=
  (List.range storeWords).flatMap (fun a => bytesOfContainer (containerOfWord (m.read a)))

/-- Power-on (R360) with the parameters `p` and the core image, or none: "a missing file gives a zero-filled store" (R76). -/
def State.powerOn (p : Params) (image : Option (List (BitVec 8))) : State :=
  { State.reset with
    params := p
    store := match image with
      | none => []
      | some bytes => loadImage bytes }

/-- The host assigns `S` (R364). -/
def State.assignStop (s : State) (b : Bool) : State := { s with stopped := b }

/-- The host writes a store word from 4 to 8191 for a test (R364); the bootstrap words stay. -/
def State.presetWord (s : State) (a : Address) (v : Word) : State := s.memWrite a v

/-- The host presets the registers of a test (R364): `R` true, `L`, `B`, `M` false, `T` 0. `Z` and `NEGA` stay as they were, so that they
need not describe the new `ACC`: R372 lets the host accept that hazard or preset them too, which is `State.presetFlags` (DESIGN CHOICE,
log 28). -/
def State.preset (s : State) (scr : BitVec 14) (acc ar : Word) (oflow : Bool) : State :=
  { s with
    scr := scr, acc := acc, ar := ar, oflow := oflow, fetching := true, longFn := false, busy := false, modPending := false
    t := 0 }

/-- The host presets `Z` and `NEGA` to match the `ACC` it has preset (R372, log 28). -/
def State.presetFlags (s : State) : State := { s with z := zeroFlag s.acc, nega := negFlag s.acc }

end Sys2Proof.Machine
end

