-- ==== Sys2Proof/Safety.lean ====
section
/-! DEFINITION. The terms the statements use: the invariant of the machine's states, the ends of a run (`70_reset_and_hazards.md` R365),
the instruction words a program is advised not to hold (U2). -/

namespace Sys2Proof.Machine

open Sys2Proof

/-- `IR` holds one of 70, 71, 72, 74, 75, 76, whose beats do not go through `Sequence` (`50_cycle_controller.md` R307). -/
def stallFunction (ir : InstrBits) : Bool :=
  let f := fnField ir
  f == 56#6 || f == 57#6 || f == 58#6 || f == 60#6 || f == 61#6 || f == 62#6

/-! ### What a beat does, as the rules say it (used by the statements) -/

/-- The combined value of member `k` of groups 0 to 3 with its overflow, from the table of `41_group0_3_arith.md` R130: `p` is the plain
first operand. -/
def combined (k : Nat) (a n p : Word) : Word × Bool :=
  match k with
  | 0 => (p, false)
  | 1 => (word (-signed p), decide (signed p = -2 ^ 38))
  | 2 => (word (signed n + 1), decide (signed n = 2 ^ 38 - 1))
  | 3 => (a &&& n, false)
  | 4 => (word (signed a + signed n), !fits39 (signed a + signed n))
  | 5 => (word (signed a - signed n), !fits39 (signed a - signed n))
  | 6 => (0, false)
  | _ => (word (signed n - signed a), !fits39 (signed n - signed a))

/-- The store after the write-back of `sc` to address `n`: nothing is written below 4 (R63). -/
def State.writtenBack (s : State) (n : Address) (sc : Word) : Store :=
  if n.toNat < 4 then s.store else s.store.write n.toNat sc

/-- The one-beat end of an instruction whose registers are already as in `s` (R307 to R311): `sc` is written back to `n`, `BREG`, `Z`, `NEGA`
are reloaded, `T`, `L`, `LW` are those of `K = 1`, and the core goes on to the next instruction. -/
def State.ended (s : State) (n : Address) (sc : Word) : State :=
  { s with
    t := 0, longFn := false, lastWt := false, fetching := true, scr := s.scr + 1
    breg := if n.toNat < 4 then 0 else sc.extractLsb' 0 19
    z := decide (s.acc = 0), nega := decide (signed s.acc < 0), store := s.writtenBack n sc }

/-- This execute beat is the last of an instruction of `k + 1` beats (R308). -/
def State.lastBeat (s : State) (k : BitVec 7) : Prop := if s.longFn then s.t = 1 else k = 0

/-- `T` after this execute beat of an instruction of `k + 1` beats (R308). -/
def State.nextT (s : State) (k : BitVec 7) : BitVec 7 := if s.longFn then s.t - 1 else k

/-- The end of one execute beat of an instruction of `k + 1` beats (R307 to R311): as `State.ended` on its last beat; before it the core
stays in the execute phase with `L` true and `SCR` unchanged. -/
def State.afterBeat (s : State) (n : Address) (sc : Word) (k : BitVec 7) : State :=
  { s with
    t := s.nextT k
    longFn := decide (s.nextT k ≠ 0)
    lastWt := decide (s.nextT k = 0) && s.longFn
    fetching := decide (s.nextT k = 0)
    scr := if s.nextT k = 0 then s.scr + 1 else s.scr
    breg := if n.toNat < 4 then 0 else sc.extractLsb' 0 19
    z := decide (s.acc = 0), nega := decide (signed s.acc < 0), store := s.writtenBack n sc }

/-- The end of one execute beat of 70, 71, 72, 74, 75, 76 (R307, R310, R311), `B` already as in `s`: the store word read is written back
and the core leaves the execute phase only when `B` is false. -/
def State.afterIo (s : State) (n : Address) (sc : Word) : State :=
  { s with
    lastWt := false, fetching := !s.busy
    scr := if s.busy then s.scr else s.scr + 1
    breg := if n.toNat < 4 then 0 else sc.extractLsb' 0 19
    z := decide (s.acc = 0), nega := decide (signed s.acc < 0), store := s.writtenBack n sc }

/-- `s` is in the execute phase of a sequenced function, with its store in canonical form (R30, R34, R308). -/
def State.Executing (s : State) : Prop := s.fetching = false ∧ s.busy = false ∧ s.store.wf = true

/-- The operand a long function computes with on this beat: `MREG`, which takes the operand read on the first beat (R28, R308). -/
def State.operandNow (s : State) (n : Address) : Word := if s.longFn then s.mreg else s.memRead n

/-- The rational number of a packed word (R221). -/
def ratVal (w : Word) : ℚ := (fpMant w : ℚ) * (2 : ℚ) ^ ((fpExp w : ℤ) - 256 - 29)

/-- The rational number an exact result stands for. -/
def Exact.toRat (v : Exact) : ℚ := (v.num : ℚ) / (v.den : ℚ) * (2 : ℚ) ^ v.exp

/-- The states a run can reach keep this. It holds at power-on and after every word-time. -/
structure State.Inv (s : State) : Prop where
  /-- the store is in its canonical form (log 1) -/
  storeWf : s.store.wf = true
  /-- operand writes never change the bootstrap words (R63, R68) -/
  bootWords : ∀ a : Nat, a < reservedLow → s.store.read a = Store.initial a
  /-- "`AR` ..., of which bit 38 is always 0" (R23) -/
  arSign : s.ar.getLsbD 38 = false
  /-- `PARITY` is constant true (R37) -/
  parityTrue : s.parity = true
  /-- `L` only in the execute phase (R32, R308) -/
  longExecutes : s.longFn = true → s.fetching = false
  /-- `B` only in the execute phase (R34, R311) -/
  busyExecutes : s.busy = true → s.fetching = false
  /-- `T` counts the beats still to come, and `L` is true exactly while some are (R308) -/
  counter : s.longFn = (s.t != 0)
  /-- "Group 4 never reaches this rule" (R307) -/
  noJumpExecutes : s.fetching = false → isJumpBits s.ir = false
  /-- only the functions outside `Sequence` set `B` (R307) -/
  busyStalls : s.busy = true → stallFunction s.ir = true
  /-- those functions never touch `L` (R307) -/
  longSequenced : s.longFn = true → stallFunction s.ir = false

/-- The condition flags describe the accumulator (R372). -/
def State.FlagsDescribeAcc (s : State) : Prop := s.z = zeroFlag s.acc ∧ s.nega = negFlag s.acc

/-- No RESET and no operate event on the wires (R365 "while the console wires stay quiet"). -/
def Wires.consoleQuiet (w : Wires) : Bool := !w.reset && !w.operate

/-- `p` holds of the wires of the coming word-time and of all the environment has still to send (log 14). -/
def State.Always (s : State) (p : Wires → Prop) : Prop := p s.wires ∧ ∀ w ∈ s.feed, p w

/-- The console stays quiet now and in all the environment has still to send. -/
def State.ConsoleQuiet (s : State) : Prop := s.Always (fun w => w.consoleQuiet = true)

/-- No RESET now or in all the environment has still to send. -/
def State.NoReset (s : State) : Prop := s.Always (fun w => w.reset = false)

/-- End of a run, condition 1 (R365): `R` and `S` both true. -/
def State.isStopped (s : State) : Bool := s.fetching && s.stopped

/-- `t` differs from `s` in nothing but `SCR`, `IR`, `M` and the wires: all that fetch beats of jumps which leave `OFLOW` alone can change. -/
def State.DiffersInFetchOnly (s t : State) : Prop :=
  ∃ (c : BitVec 14) (x : InstrBits) (m : Bool) (o : Outputs) (b : Wires) (f : List Wires),
    t = { s with scr := c, ir := x, modPending := m, out := o, wires := b, feed := f }

/-- The console is at rest: neither RESET nor the operate event (R365), and neither the clear-store button nor the selected stop, which
act on every running machine (R75, R304) and would end any loop (DEDUCED, log 29). -/
def Wires.consoleAtRest (w : Wires) : Bool := w.consoleQuiet && !w.cs && !w.ss

/-- `s` with other wires, now and to come. -/
def State.withWires (s : State) (b : Wires) (f : List Wires) : State := { s with wires := b, feed := f }

/-- End of a run, condition 2 (R365), a property of the state alone and not of the wires to come: the core is in the fetch phase with `S`
false, and under whatever wires with the console at rest it stays so for ever, "`ACC`, `AR`, the store and all flags but `M` are constant
and `SCR` cycles": every `p` word-times it is back at the same `SCR`. -/
def State.DynamicStop (s : State) : Prop :=
  s.fetching = true ∧ s.stopped = false ∧
  ∃ p, 0 < p ∧ ∀ (b : Wires) (f : List Wires), (s.withWires b f).Always (fun w => w.consoleAtRest = true) →
    ∀ k, ∃ t u, Sys2Proof.core.run k (s.withWires b f) = .next t ∧ Sys2Proof.core.run (k + p) (s.withWires b f) = .next u ∧
      s.DiffersInFetchOnly t ∧ u.scr = t.scr

/-- What keeps the function in `IR` stalling for ever, given the wires to come (R365, condition 3): nothing for 75 and 76, `in.READY` never
true for 71, 72 and 74, `in.MD` held with no operate event for 70. -/
def State.StallsForEver (s : State) : Prop :=
  let f := fnField s.ir
  (f = 61#6 ∨ f = 62#6) ∨
  ((f = 57#6 ∨ f = 58#6 ∨ f = 60#6) ∧ s.Always (fun w => w.ready = false)) ∨
  (f = 56#6 ∧ s.Always (fun w => w.md = true ∧ w.operate = false))

/-- End of a run, condition 3 (R365): the execute phase of a function that stalls for ever. -/
def State.PermanentStall (s : State) : Prop := s.fetching = false ∧ s.StallsForEver

/-- A word a well-formed program does not hold (U2, R371): a jump in the first half with the B digit 1. The model gives it the spec's
definite rule R171 (log 20). -/
def unadvisedWord (w : Word) : Bool := isJumpBits (firstHalf w) && bDigit w

end Sys2Proof.Machine
end

