-- ==== Sys2Proof/Certificates/Slice0/Obligations.lean ====
section
/-! DEFINITION. The statements for the provers. `State.ended`, `State.afterBeat`, `State.afterIo`, `combined` and the other terms of
`Sys2Proof/Safety.lean` spell out the rules; they are not the model's own operations. -/

open Sys2Proof Sys2Proof.Machine

/-! ### Encoding -/

/-- R81, R95: decoding the encoding of a well-formed instruction gives it back, for all 65 rows and every address. -/
def Obligations.DecodeOfEncode : Prop := ∀ i : Instr, i.wellFormed = true → decode (encode i) = i

/-- R88, R95: every 19-bit value is exactly one instruction. -/
def Obligations.EveryWordIsExactlyOneInstruction : Prop :=
  ∀ x : InstrBits, (decode x).wellFormed = true ∧ encode (decode x) = x ∧
    ∀ i : Instr, i.wellFormed = true → encode i = x → i = decode x

/-- R81, R86: one word of each group, written out from the encoding column of the opcode table. -/
def Obligations.SampleWordsDecode : Prop :=
  decode 0b0001000000001100100#19 = .fn04 100 ∧ decode 0b0010100000000000011#19 = .fn12 3 ∧
  decode 0b0101111111111111111#19 = .fn27 8191 ∧ decode 0b0110000000000000111#19 = .fn30 7 ∧
  decode 0b1000110000000000001#19 = .fn43 1 ∧ decode 0b1011010000000000101#19 = .fn55 5 ∧
  decode 0b1101010111111111111#19 = .fn65Shift 4095 ∧ decode 0b1101011000000000000#19 = .fn65Std 4096 ∧
  decode 0b1110110000000111100#19 = .fn73 60

/-- R80, R82, R93: the two halves and the B digit of a packed word are what was packed, and make up the word. -/
def Obligations.HalvesMakeTheWord : Prop :=
  (∀ (x1 x2 : InstrBits) (b : Bool),
    firstHalf (packWord x1 b x2) = x1 ∧ secondHalf (packWord x1 b x2) = x2 ∧ bDigit (packWord x1 b x2) = b) ∧
  ∀ w : Word, packWord (firstHalf w) (bDigit w) (secondHalf w) = w

/-- R361: the bootstrap words at 0 to 3 are the encodings of the four literals, and the store of the power-on state reads so. -/
def Obligations.BootstrapWords : Prop :=
  (parseWord? ['2', '6', '4', ':', '0', '6', '0'] = some 188982804480#39 ∧ State.reset.store.read 0 = 188982804480#39) ∧
  (parseWord? ['2', '2', '4', '/', '1', '6', '3'] = some 154623655939#39 ∧ State.reset.store.read 1 = 154623655939#39) ∧
  (parseWord? ['5', '5', '5', ':', '7', '1', '0'] = some 386552766464#39 ∧ State.reset.store.read 2 = 386552766464#39) ∧
  (parseWord? ['4', '3', '1', ':', '4', '0', '2'] = some 300649021442#39 ∧ State.reset.store.read 3 = 300649021442#39)

/-! ### Word arithmetic -/

/-- R101: the source's test, bits 39 and 38 of the raw 40-bit sum or difference, is the test that the true result fits 39 bits, and the
low 39 bits of the raw result are the result. -/
def Obligations.OverflowIsTheFortyBitTest : Prop :=
  ∀ a b : Word,
    (aluAdd a b = ((ext40 a + ext40 b).setWidth 39, overflow40 (ext40 a + ext40 b))) ∧
    (aluSub a b = ((ext40 a - ext40 b).setWidth 39, overflow40 (ext40 a - ext40 b)))

/-- R121: 39 left shifts and then 39 right shifts of the double-length accumulator restore it exactly when `AR[38]` is 0 and the value
lies in -2^37 to 2^37 - 1. -/
def Obligations.DoubleShiftRestoresExactly : Prop :=
  ∀ acc ar : Word,
    let left := fun p : Word × Word => ((shiftLeftDouble p.1 p.2).acc, (shiftLeftDouble p.1 p.2).ar)
    let right := fun p : Word × Word => ((shiftRightDouble p.1 p.2).acc, (shiftRightDouble p.1 p.2).ar)
    (right^[39] (left^[39] (acc, ar)) = (acc, ar)) ↔
      (ar.getLsbD 38 = false ∧ -2 ^ 37 ≤ dl acc ar ∧ dl acc ar < 2 ^ 37)

/-- R118: `fp_join` is the inverse of `fp_split` on every word, and the other way round on every mantissa and exponent. -/
def Obligations.FpSplitAndJoinAreInverse : Prop :=
  (∀ w : Word, fpJoin (fpSplit w).2 (fpSplit w).1 = w) ∧
  ∀ (m : Int) (e : Nat), -2 ^ 29 ≤ m → m < 2 ^ 29 → e < 512 → fpSplit (fpJoin m e) = (e, m)

/-! ### Functions 00 to 37 -/

/-- R132 to R139: group 0, the combined value to the accumulator, the store word written back unchanged. -/
def Obligations.GroupZeroResults : Prop :=
  ∀ (n : Address) (s : State), s.Executing → s.longFn = false →
    let w := s.memRead n
    let result := fun k : Nat =>
      let c := combined k s.acc w s.acc
      State.ended { s with acc := c.1, oflow := s.oflow || c.2 } n w
    exec (.fn00 n) s = .next (result 0) ∧ exec (.fn01 n) s = .next (result 1) ∧ exec (.fn02 n) s = .next (result 2) ∧
    exec (.fn03 n) s = .next (result 3) ∧ exec (.fn04 n) s = .next (result 4) ∧ exec (.fn05 n) s = .next (result 5) ∧
    exec (.fn06 n) s = .next (result 6) ∧ exec (.fn07 n) s = .next (result 7)

/-- R140 to R147: group 1, the combined value to the accumulator, the old accumulator to the store. -/
def Obligations.GroupOneResults : Prop :=
  ∀ (n : Address) (s : State), s.Executing → s.longFn = false →
    let w := s.memRead n
    let result := fun k : Nat =>
      let c := combined k s.acc w w
      State.ended { s with acc := c.1, oflow := s.oflow || c.2 } n s.acc
    exec (.fn10 n) s = .next (result 0) ∧ exec (.fn11 n) s = .next (result 1) ∧ exec (.fn12 n) s = .next (result 2) ∧
    exec (.fn13 n) s = .next (result 3) ∧ exec (.fn14 n) s = .next (result 4) ∧ exec (.fn15 n) s = .next (result 5) ∧
    exec (.fn16 n) s = .next (result 6) ∧ exec (.fn17 n) s = .next (result 7)

/-- R148 to R155: group 2, the combined value to the store, the accumulator unchanged. -/
def Obligations.GroupTwoResults : Prop :=
  ∀ (n : Address) (s : State), s.Executing → s.longFn = false →
    let w := s.memRead n
    let result := fun k : Nat =>
      let c := combined k s.acc w s.acc
      State.ended { s with oflow := s.oflow || c.2 } n c.1
    exec (.fn20 n) s = .next (result 0) ∧ exec (.fn21 n) s = .next (result 1) ∧ exec (.fn22 n) s = .next (result 2) ∧
    exec (.fn23 n) s = .next (result 3) ∧ exec (.fn24 n) s = .next (result 4) ∧ exec (.fn25 n) s = .next (result 5) ∧
    exec (.fn26 n) s = .next (result 6) ∧ exec (.fn27 n) s = .next (result 7)

/-- R156 to R163: group 3, the operand to the accumulator, the combined value of the old accumulator and operand to the store. -/
def Obligations.GroupThreeResults : Prop :=
  ∀ (n : Address) (s : State), s.Executing → s.longFn = false →
    let w := s.memRead n
    let result := fun k : Nat =>
      let c := combined k s.acc w w
      State.ended { s with acc := w, oflow := s.oflow || c.2 } n c.1
    exec (.fn30 n) s = .next (result 0) ∧ exec (.fn31 n) s = .next (result 1) ∧ exec (.fn32 n) s = .next (result 2) ∧
    exec (.fn33 n) s = .next (result 3) ∧ exec (.fn34 n) s = .next (result 4) ∧ exec (.fn35 n) s = .next (result 5) ∧
    exec (.fn36 n) s = .next (result 6) ∧ exec (.fn37 n) s = .next (result 7)

/-! ### The store -/

/-- R62, R75: an operand read gives zero below address 4 and while the clear-store wire is true, else the store word. -/
def Obligations.OperandReads : Prop :=
  ∀ (n : Address) (s : State),
    s.memRead n = if n.toNat < 4 then 0 else if s.wires.cs = true then 0 else s.store.read n.toNat

/-- R63, R67, R170: an instruction changes at most the word at its address, and that only at an address of 4 or more; a jump changes no
word. -/
def Obligations.OnlyTheAddressedWordChanges : Prop :=
  ∀ (i : Instr) (s t : State) (a : Nat), exec i s = .next t → (a ≠ i.address.toNat ∨ i.address.toNat < 4 ∨ i.isJump = true) →
    t.store.read a = s.store.read a

/-- R61, R63, R67, R75: in one word-time of the machine a store word other than the one addressed stays: in an execute beat the word at
`IR.N`, in a fetch beat of the running machine, while the clear-store wire is true, the word at `SCR`; in a reset beat and in a stopped
machine every word, and always the words 0 to 3. -/
def Obligations.WordTimeStoreFrame : Prop :=
  ∀ (s t : State) (a : Nat), step s = .next t →
    (a < 4 ∨ s.wires.reset = true ∨ (s.fetching = true ∧ s.stopped = true) ∨
      (s.fetching = true ∧ s.wires.cs = false) ∨
      (s.fetching = true ∧ a ≠ (scrWord s.scr).toNat) ∨
      (s.fetching = false ∧ a ≠ (addressField s.ir).toNat)) →
    t.store.read a = s.store.read a

/-! ### Functions 40 to 47 -/

/-- R172, R173, R174, R177, R178, R179: the jumps that do not test overflow. Taken, `SCR` is twice the word address plus the half and `M`
is cleared; not taken, `SCR` advances. Nothing else changes. -/
def Obligations.JumpsOnTheFlags : Prop :=
  ∀ (n : Address) (s : State),
    let taken := fun half : Nat => { s with scr := BitVec.ofNat 14 (2 * n.toNat + half), modPending := false }
    let on := { s with scr := s.scr + 1 }
    exec (.fn40 n) s = .next (taken 0) ∧
    exec (.fn41 n) s = .next (if s.nega = true then taken 0 else on) ∧
    exec (.fn42 n) s = .next (if s.z = true then taken 0 else on) ∧
    exec (.fn44 n) s = .next (taken 1) ∧
    exec (.fn45 n) s = .next (if s.nega = true then taken 1 else on) ∧
    exec (.fn46 n) s = .next (if s.z = true then taken 1 else on)

/-- R175, R180: the jumps on overflow, which clear `OFLOW` in both cases. -/
def Obligations.JumpsOnOverflow : Prop :=
  ∀ (n : Address) (s : State),
    let taken := fun half : Nat =>
      { s with scr := BitVec.ofNat 14 (2 * n.toNat + half), modPending := false, oflow := false }
    let on := { s with scr := s.scr + 1, oflow := false }
    exec (.fn43 n) s = .next (if s.oflow = true then taken 0 else on) ∧
    exec (.fn47 n) s = .next (if s.oflow = true then taken 1 else on)

/-! ### Functions 50 to 57 -/

/-- R111, R113, R191, R192, R196: one beat of 50 or 54, any beat of the instruction: one place of shift when the count is not 0. -/
def Obligations.DoubleShiftBeat : Prop :=
  ∀ (n : Address) (s : State), s.Executing →
    let c := n.toNat % 128
    let w := s.memRead n
    let k : BitVec 7 := BitVec.ofNat 7 (c - 1)
    exec (.fn50 n) s = .next (State.afterBeat (if c = 0 then s else
      { s with
        acc := BitVec.ofBool (s.acc.getLsbD 38) ++ s.acc.extractLsb' 1 38
        ar := 0#1 ++ (BitVec.ofBool (s.acc.getLsbD 0) ++ s.ar.extractLsb' 1 37) }) n w k) ∧
    exec (.fn54 n) s = .next (State.afterBeat (if c = 0 then s else
      { s with
        oflow := s.oflow || (s.acc.getLsbD 38 ^^ s.acc.getLsbD 37)
        acc := s.acc.extractLsb' 0 38 ++ BitVec.ofBool (s.ar.getLsbD 37)
        ar := 0#1 ++ (s.ar.extractLsb' 0 37 ++ 0#1) }) n w k)

/-- R112, R114, R191, R193, R197: one beat of 51 or 55: `AR` is cleared on the first beat, whatever the count. -/
def Obligations.SingleShiftBeat : Prop :=
  ∀ (n : Address) (s : State), s.Executing →
    let c := n.toNat % 128
    let w := s.memRead n
    let k : BitVec 7 := BitVec.ofNat 7 (c - 1)
    let ar' := if s.longFn = true then s.ar else 0
    exec (.fn51 n) s = .next (State.afterBeat
      { s with ar := ar', acc := if c = 0 then s.acc else 0#1 ++ s.acc.extractLsb' 1 38 } n w k) ∧
    exec (.fn55 n) s = .next (State.afterBeat
      { s with
        ar := ar'
        acc := if c = 0 then s.acc else s.acc.extractLsb' 0 38 ++ 0#1
        oflow := if c = 0 then s.oflow else s.oflow || (s.acc.getLsbD 38 ^^ s.acc.getLsbD 37) } n w k)

/-- R191, R192: from the first execute beat, max(1, c) word-times without RESET carry out function 50: the double-length value divided by
2^c, rounded down. -/
def Obligations.ShiftRightDoubleRun : Prop :=
  ∀ (n : Address) (s : State), s.Inv → s.fetching = false → s.ir = encode (.fn50 n) → s.longFn = false → s.NoReset →
    let c := n.toNat % 128
    ∃ t, Sys2Proof.core.run (max 1 c) s = .next t ∧
      (t.acc, t.ar) = dlpair (dl s.acc s.ar / 2 ^ c) ∧ t.oflow = s.oflow ∧
      t.fetching = true ∧ t.scr = s.scr + 1 ∧ t.longFn = false ∧ t.t = 0

/-- R191, R193: from the first execute beat, max(1, c) word-times without RESET carry out function 51: the unsigned pattern shifted right,
`AR` cleared. -/
def Obligations.ShiftRightSingleRun : Prop :=
  ∀ (n : Address) (s : State), s.Inv → s.fetching = false → s.ir = encode (.fn51 n) → s.longFn = false → s.NoReset →
    let c := n.toNat % 128
    ∃ t, Sys2Proof.core.run (max 1 c) s = .next t ∧
      t.acc = s.acc >>> c ∧ t.ar = 0 ∧ t.oflow = s.oflow ∧
      t.fetching = true ∧ t.scr = s.scr + 1 ∧ t.longFn = false ∧ t.t = 0

/-- R191, R196: from the first execute beat, max(1, c) word-times without RESET carry out function 54: the double-length value times 2^c
modulo 2^77, with `OFLOW` set exactly when the product leaves -2^76 to 2^76 - 1. -/
def Obligations.ShiftLeftDoubleRun : Prop :=
  ∀ (n : Address) (s : State), s.Inv → s.fetching = false → s.ir = encode (.fn54 n) → s.longFn = false → s.NoReset →
    let c := n.toNat % 128
    let v := dl s.acc s.ar * 2 ^ c
    ∃ t, Sys2Proof.core.run (max 1 c) s = .next t ∧
      (t.acc, t.ar) = dlpair (Int.bmod v (2 ^ 77)) ∧
      t.oflow = (s.oflow || !(decide (-2 ^ 76 ≤ v) && decide (v ≤ 2 ^ 76 - 1))) ∧
      t.fetching = true ∧ t.scr = s.scr + 1 ∧ t.longFn = false ∧ t.t = 0

/-- R191, R197: from the first execute beat, max(1, c) word-times without RESET carry out function 55: the accumulator times 2^c, `AR`
cleared, `OFLOW` set exactly when the product does not fit 39 bits. -/
def Obligations.ShiftLeftSingleRun : Prop :=
  ∀ (n : Address) (s : State), s.Inv → s.fetching = false → s.ir = encode (.fn55 n) → s.longFn = false → s.NoReset →
    let c := n.toNat % 128
    let v := signed s.acc * 2 ^ c
    ∃ t, Sys2Proof.core.run (max 1 c) s = .next t ∧
      t.acc = word v ∧ t.ar = 0 ∧ t.oflow = (s.oflow || !fits39 v) ∧
      t.fetching = true ∧ t.scr = s.scr + 1 ∧ t.longFn = false ∧ t.t = 0

/-- R194, R195: the last beat of 52 and of 53, from `ACC` and the operand latched on the first beat; `AR` does not enter. The scratch
registers are unspecified (log 13), so only that they hold something is said. -/
def Obligations.MultiplyResults : Prop :=
  ∀ (n : Address) (s : State), s.Executing → s.lastBeat s.params.mulLast →
    let m := s.operandNow n
    let p := signed s.acc * signed m
    let q := (p + 2 ^ 37) / 2 ^ 38
    ∃ x : Scratch,
    exec (.fn52 n) s = .next (State.afterBeat
      { s with
        acc := word (p / 2 ^ 38), ar := word (p % 2 ^ 38), oflow := s.oflow || decide (p = 2 ^ 76)
        mreg := m, scratch := x, draws := s.draws + 1 } n (s.memRead n) s.params.mulLast) ∧
    exec (.fn53 n) s = .next (State.afterBeat
      { s with
        acc := word q, ar := 0, oflow := s.oflow || decide (s.acc = word (-2 ^ 38) ∧ m = word (-2 ^ 38))
        mreg := m, scratch := x, draws := s.draws + 1 } n (s.memRead n) s.params.mulLast)

/-- R194, R201: from the first execute beat, `MUL_BEATS` word-times without RESET carry out function 52 on the operand read in the first of
them, whatever the store word becomes meanwhile; before the last of them `ACC`, `AR` and `OFLOW` are unchanged. -/
def Obligations.MultiplyRun : Prop :=
  ∀ (n : Address) (s : State), s.Inv → s.fetching = false → s.ir = encode (.fn52 n) → s.longFn = false → s.NoReset →
    let p := signed s.acc * signed (s.memRead n)
    (∃ t, Sys2Proof.core.run (s.params.mulLast.toNat + 1) s = .next t ∧
      (t.acc, t.ar) = dlpair p ∧ t.oflow = (s.oflow || decide (p = 2 ^ 76)) ∧
      t.fetching = true ∧ t.scr = s.scr + 1 ∧ t.longFn = false) ∧
    ∀ j ≤ s.params.mulLast.toNat, ∃ t, Sys2Proof.core.run j s = .next t ∧
      t.acc = s.acc ∧ t.ar = s.ar ∧ t.oflow = s.oflow ∧ t.fetching = false ∧ t.scr = s.scr

/-- R198: the last beat of 56. The quotient is the exact one where the division is exact, else its floor or its ceiling (the floor under
the default of `DIV56`); a quotient that does not fit sets `OFLOW`. With a zero divisor `OFLOW` is set, `AR` cleared, `ACC` some word (U3). -/
def Obligations.DivideResults : Prop :=
  ∀ (n : Address) (s : State), s.Executing → s.lastBeat s.params.divLast →
    let m := s.operandNow n
    let d := signed m
    let dividend := dl s.acc s.ar
    (d ≠ 0 → ∃ (q : Int) (x : Scratch),
      |q * d - dividend| < |d| ∧ (d ∣ dividend → q * d = dividend) ∧
      (s.params.div56 = .floor → q = ⌊(dividend : ℚ) / (d : ℚ)⌋) ∧
      exec (.fn56 n) s = .next (State.afterBeat
        { s with
          acc := word q, ar := 0, oflow := s.oflow || !fits39 q
          mreg := m, scratch := x, draws := s.draws + 1 } n (s.memRead n) s.params.divLast)) ∧
    (d = 0 → ∃ (v : Word) (x : Scratch),
      exec (.fn56 n) s = .next (State.afterBeat
        { s with
          acc := v, ar := 0, oflow := true
          mreg := m, scratch := x, draws := s.draws + 2 } n (s.memRead n) s.params.divLast))

/-- R199, R239, R241, R242: the one-beat functions 57, 65 with N < 4096, 66 and 67. -/
def Obligations.ReadArFastShiftAndNoOps : Prop :=
  ∀ (n : Address) (s : State), s.Executing → s.longFn = false →
    let w := s.memRead n
    let c := n.toNat % 64
    let rotated := word (((s.acc.toNat : Int) * 2 ^ (c % 39)) + (s.acc.toNat / 2 ^ (39 - c % 39) : Nat))
    exec (.fn57 n) s = .next (State.ended { s with acc := BitVec.ofNat 39 (s.ar.toNat % 2 ^ 38) } n w) ∧
    exec (.fn65Shift n) s = .next (State.ended
      { s with
        acc := match s.params.fast65 with
          | .shift => if 39 ≤ c then 0 else word (s.acc.toNat * 2 ^ c)
          | .rotate => rotated
        ar := 0 } n w) ∧
    exec (.fn66 n) s = .next (State.ended s n w) ∧
    exec (.fn67 n) s = .next (State.ended s n w)

/-! ### Functions 60 to 65 -/

/-- R309, R201, R230: before its last beat a long function other than a shift writes none of its results: only `T`, `L`, `LW`, `MREG`
(not 65), the flags of the controller and the scratch registers change. -/
def Obligations.LongFunctionsWaitForTheirLastBeat : Prop :=
  ∀ (n : Address) (s : State), s.Executing →
    let w := s.memRead n
    ∃ x : Scratch,
    let waits := fun (mreg : Word) (k : BitVec 7) =>
      Host.Outcome.next (σ := State) (φ := Fault) (ρ := Refusal)
        (State.afterBeat { s with mreg := mreg, scratch := x, draws := s.draws + 1 } n w k)
    (¬ s.lastBeat s.params.mulLast →
      exec (.fn52 n) s = waits (s.operandNow n) s.params.mulLast ∧ exec (.fn53 n) s = waits (s.operandNow n) s.params.mulLast) ∧
    (¬ s.lastBeat s.params.divLast → exec (.fn56 n) s = waits (s.operandNow n) s.params.divLast) ∧
    (¬ s.lastBeat 1 → exec (.fn60 n) s = waits (s.operandNow n) 1 ∧ exec (.fn61 n) s = waits (s.operandNow n) 1 ∧
      exec (.fn62 n) s = waits (s.operandNow n) 1) ∧
    (¬ s.lastBeat 15 → exec (.fn63 n) s = waits (s.operandNow n) 15) ∧
    (¬ s.lastBeat 31 → (s.longFn = true ∨ w ≠ 0) → exec (.fn64 n) s = waits (s.operandNow n) 31) ∧
    (¬ s.lastBeat s.params.stdLast → exec (.fn65Std n) s = waits s.mreg s.params.stdLast)

/-- R230, R231, R233, R234, R235, R237: the last beat of 60 to 63 on operands in standard form. A result of `FPNUM` goes to `ACC` with
`AR` cleared; on overflow `FPO` and `S` are set, `AR` is cleared and `ACC` holds some word (U5). -/
def Obligations.FloatResults : Prop :=
  ∀ (n : Address) (s : State), s.Executing →
    let m := s.operandNow n
    fpStandard s.acc = true → fpStandard m = true →
    let ends := fun (i : Instr) (op : FpOp) (a b : Word) (k : BitVec 7) =>
      ∃ x : Scratch,
      match fpNum s.params.fpNum op a b with
      | some r => exec i s = .next (State.afterBeat
          { s with acc := r, ar := 0, mreg := m, scratch := x, draws := s.draws + 1 } n (s.memRead n) k)
      | none => ∃ v : Word, exec i s = .next (State.afterBeat
          { s with
            acc := v, ar := 0, fpo := true, stopped := true
            mreg := m, scratch := x, draws := s.draws + 2 } n (s.memRead n) k)
    (s.lastBeat 1 → ends (.fn60 n) .add s.acc m 1 ∧ ends (.fn61 n) .sub s.acc m 1 ∧ ends (.fn62 n) .sub m s.acc 1) ∧
    (s.lastBeat 15 → ends (.fn63 n) .mul s.acc m 15)

/-- R236, R238: function 64. On the first beat the zero-word divisor is the whole instruction: `FPO` and `S` set, `ACC` and `AR` kept, one
beat. With any other divisor the first beat latches it and begins 32 beats: `T` becomes 31, `L` true. The quotient comes on the last beat,
on operands in standard form. That the zero-divisor beat leaves the scratch registers unchanged is the model's choice (log 13): R29 and
R236 give their contents at no beat. -/
def Obligations.FloatDivideResults : Prop :=
  ∀ (n : Address) (s : State), s.Executing →
    (s.longFn = false → s.memRead n = 0 →
      exec (.fn64 n) s = .next (State.ended { s with fpo := true, stopped := true, mreg := 0 } n 0)) ∧
    (s.longFn = false → s.memRead n ≠ 0 →
      ∃ (t : State) (x : Scratch), exec (.fn64 n) s = .next t ∧
        t = State.afterBeat { s with mreg := s.memRead n, scratch := x, draws := s.draws + 1 } n (s.memRead n) 31 ∧
        t.t = 31 ∧ t.longFn = true ∧ t.fetching = false ∧ t.scr = s.scr) ∧
    (s.longFn = true → s.t = 1 → fpStandard s.acc = true → fpStandard s.mreg = true → s.mreg ≠ 0 →
      ∃ x : Scratch,
      match fpNum s.params.fpNum .div s.acc s.mreg with
      | some r => exec (.fn64 n) s = .next (State.afterBeat
          { s with acc := r, ar := 0, scratch := x, draws := s.draws + 1 } n (s.memRead n) 31)
      | none => ∃ v : Word, exec (.fn64 n) s = .next (State.afterBeat
          { s with
            acc := v, ar := 0, fpo := true, stopped := true, scratch := x, draws := s.draws + 2 } n (s.memRead n) 31))

/-- R223, U7, U4 (log 10, 11): functions 60 to 64 on an operand that is not in standard form still complete on their last beat: `ACC` holds
some word, `AR` is cleared, `FPO` and `S` are both left or both set, and the rest of the beat is as always. -/
def Obligations.FloatOnUnnormalisedOperandsCompletes : Prop :=
  ∀ (n : Address) (s : State), s.Executing →
    let m := s.operandNow n
    (fpStandard s.acc = false ∨ fpStandard m = false) →
    let ends := fun (i : Instr) (k : BitVec 7) =>
      ∃ (v : Word) (x : Scratch) (stop : Bool), exec i s = .next (State.afterBeat
        { s with
          acc := v, ar := 0, fpo := s.fpo || stop, stopped := s.stopped || stop
          mreg := m, scratch := x, draws := s.draws + 2 } n (s.memRead n) k)
    (s.lastBeat 1 → ends (.fn60 n) 1 ∧ ends (.fn61 n) 1 ∧ ends (.fn62 n) 1) ∧
    (s.lastBeat 15 → ends (.fn63 n) 15) ∧
    (s.longFn = true → s.t = 1 → ends (.fn64 n) 31)

/-- R240: the last beat of 65 with N >= 4096. The integer in `ACC` becomes a floating-point number; overflow cannot occur. -/
def Obligations.StandardiseResults : Prop :=
  ∀ (n : Address) (s : State), s.Executing → s.lastBeat s.params.stdLast →
    ∃ (r : Word) (x : Scratch), fpNum s.params.fpNum .std s.acc 0 = some r ∧
      exec (.fn65Std n) s = .next (State.afterBeat
        { s with acc := r, ar := 0, scratch := x, draws := s.draws + 1 } n (s.memRead n) s.params.stdLast)

/-- R222: every result of `FPNUM`, default or any other admissible, is in standard form. -/
def Obligations.FloatResultsAreInStandardForm : Prop :=
  ∀ (r : FpRounding) (op : FpOp) (a n w : Word), (op = .div → fpMant n ≠ 0) → fpNum r op a n = some w → fpStandard w = true

/-- R224: "`FpRound(val(w)) = w` for every standard-form word `w`", and so for every admissible rounding. -/
def Obligations.RoundingKeepsRepresentableValues : Prop :=
  ∀ (up : Bool) (w : Word), fpStandard w = true → fpRoundTo up (fpVal w) = some w

/-- R224: `FpRound` of a rational that is not 0, step by step: the unique normalising exponent `x`, the mantissa rounded half up, the carry
out of the mantissa, and the two ends of the exponent range. -/
def Obligations.FpRoundIsTheReference : Prop :=
  ∀ v : Exact, v.num ≠ 0 → v.den ≠ 0 →
    ∃ x : ℤ,
      (let f : ℚ := v.toRat / (2 : ℚ) ^ x
       ((1 / 2 ≤ f ∧ f < 1) ∨ (-1 ≤ f ∧ f < -1 / 2)) ∧
       (∀ y : ℤ, ((1 / 2 ≤ v.toRat / (2 : ℚ) ^ y ∧ v.toRat / (2 : ℚ) ^ y < 1) ∨
         (-1 ≤ v.toRat / (2 : ℚ) ^ y ∧ v.toRat / (2 : ℚ) ^ y < -1 / 2)) → y = x) ∧
       let m : ℤ := ⌊f * 2 ^ 29 + 1 / 2⌋
       let m' : ℤ := if m = 2 ^ 29 then 2 ^ 28 else if m = -2 ^ 28 then -2 ^ 29 else m
       let x' : ℤ := if m = 2 ^ 29 then x + 1 else if m = -2 ^ 28 then x - 1 else x
       fpRound v = if x' + 256 > 511 then none else if x' + 256 < 0 then some 0 else some (fpJoin m' (x' + 256).toNat))

/-- R225, R240: what is rounded is the exact result on the values of the words, by `FpRound` under the default of `FPNUM` and to one of its
two neighbours under any other admissible one (log 6). -/
def Obligations.FpnumRoundsTheExactResult : Prop :=
  ∀ a n : Word,
    let rounds := fun (op : FpOp) (b : Word) (q : ℚ) =>
      ∃ v : Exact, v.den ≠ 0 ∧ v.toRat = q ∧ fpNum .halfUp op a b = fpRound v ∧
        ∀ r : FpRounding, ∃ up : Bool, fpNum r op a b = fpRoundTo up v
    rounds .add n (ratVal a + ratVal n) ∧ rounds .sub n (ratVal a - ratVal n) ∧ rounds .mul n (ratVal a * ratVal n) ∧
    (fpMant n ≠ 0 → rounds .div n (ratVal a / ratVal n)) ∧ rounds .std 0 (signed a : ℚ)

/-- R225 (2): whenever the exact result of a floating-point operation is a representable number, every admissible `FPNUM` gives it. -/
def Obligations.RepresentableResultsAreExact : Prop :=
  ∀ (r : FpRounding) (a n w : Word), fpStandard w = true →
    (ratVal w = ratVal a + ratVal n → fpNum r .add a n = some w) ∧
    (ratVal w = ratVal a - ratVal n → fpNum r .sub a n = some w) ∧
    (ratVal w = ratVal a * ratVal n → fpNum r .mul a n = some w) ∧
    (fpMant n ≠ 0 → ratVal w = ratVal a / ratVal n → fpNum r .div a n = some w) ∧
    (ratVal w = (signed a : ℚ) → fpNum r .std a 0 = some w)

/-! ### Functions 70 to 77 -/

/-- R261: function 70 reads the buttons, but with manual data waits, busy, for the operate event. -/
def Obligations.WordGeneratorRead : Prop :=
  ∀ (n : Address) (s : State), s.fetching = false → s.longFn = false → s.store.wf = true →
    let b := s.wires
    let wg : Nat := b.f1.toNat * 2 ^ 33 + b.n1.toNat * 2 ^ 20 + b.f2.toNat * 2 ^ 13 + b.n2.toNat
    exec (.fn70 n) s = .next (if b.md = true ∧ b.operate = false then State.afterIo { s with busy := true } n (s.memRead n)
      else State.afterIo { s with acc := BitVec.ofNat 39 wg, busy := false } n (s.memRead n))

/-- R260, R262, R263, R265: a beat of 71, 72 or 74. With `READY` the transfer is made and acknowledged and `B` cleared; without it `B` is
set and the same beat comes again. The strobe and `CLINES` are driven either way. -/
def Obligations.PeripheralTransfers : Prop :=
  ∀ (n : Address) (s : State), s.fetching = false → s.longFn = false → s.store.wf = true →
    let w := s.memRead n
    let lines := fun (act f71 f72 f74 : Bool) => { f71 := f71, f72 := f72, f74 := f74, act := act, clines := n : Outputs }
    (s.wires.ready = true →
      exec (.fn71 n) s = .next (State.afterIo
        { s with busy := false, out := lines true true false false,
                 acc := s.acc ||| BitVec.ofNat 39 s.wires.trlines.toNat } n w) ∧
      exec (.fn72 n) s = .next (State.afterIo { s with busy := false, out := lines true false true false } n w) ∧
      exec (.fn74 n) s = .next (State.afterIo { s with busy := false, out := lines true false false true } n w)) ∧
    (s.wires.ready = false →
      exec (.fn71 n) s = .next (State.afterIo { s with busy := true, out := lines false true false false } n w) ∧
      exec (.fn72 n) s = .next (State.afterIo { s with busy := true, out := lines false false true false } n w) ∧
      exec (.fn74 n) s = .next (State.afterIo { s with busy := true, out := lines false false false true } n w))

/-- R264: function 73 stores the address of the word that holds it, whichever half it is in. -/
def Obligations.LinkIsStored : Prop :=
  ∀ (n : Address) (s : State), s.Executing → s.longFn = false →
    exec (.fn73 n) s = .next (State.ended s n (BitVec.ofNat 39 (s.scr.toNat / 2)))

/-- R266, R267, R268: 75 and 76 set `B` on every beat; 77 takes two beats and writes nothing. -/
def Obligations.StallsAndTwoBeatNoOp : Prop :=
  ∀ (n : Address) (s : State), s.fetching = false → s.store.wf = true →
    (s.longFn = false →
      exec (.fn75 n) s = .next (State.afterIo { s with busy := true } n (s.memRead n)) ∧
      exec (.fn76 n) s = .next (State.afterIo { s with busy := true } n (s.memRead n))) ∧
    (s.busy = false → exec (.fn77 n) s = .next (State.afterBeat s n (s.memRead n) 1))

/-- R260, R261, R266, R267, R365 condition 3: a stall that nothing on the wires ends lasts for ever while there is no RESET: 75 and 76 always,
71, 72 and 74 with `READY` never true, 70 with manual data held and no operate event. After any number of word-times `SCR`, `IR`, `ACC`,
`AR`, `OFLOW` are as they were and the core is in the execute phase, busy from the first of them. -/
def Obligations.StallsNeverEndWithoutReset : Prop :=
  ∀ (s : State) (k : Nat), s.Inv → s.PermanentStall → s.NoReset →
    ∃ t, Sys2Proof.core.run k s = .next t ∧ t.PermanentStall ∧ (0 < k → t.busy = true) ∧
      t.scr = s.scr ∧ t.ir = s.ir ∧ t.acc = s.acc ∧ t.ar = s.ar ∧ t.oflow = s.oflow

/-! ### The controller -/

/-- R290, R300, R303, R307: a step is one word-time that runs the decoded instruction. In the execute phase it is the meaning of the
instruction in `IR`; in a fetch beat of the running machine a jump just fetched is carried out at once and any other instruction waits in
`IR` for the execute phase. Around it the outputs are dropped first and the environment's wires follow after. -/
def Obligations.StepRunsTheDecodedInstruction : Prop :=
  ∀ (i : Instr) (s : State), i.wellFormed = true → s.wires.reset = false →
    let s0 := { s with out := Outputs.quiet }
    (s.fetching = false → i.isJump = false → s.ir = encode i →
      ∀ t, exec i s0 = .next t → step s = .next t.nextWires) ∧
    (s.fetching = true → s.stopped = false → i.isJump = true → s0.fetched.ir = encode i →
      ∀ t, exec i s0.fetched = .next t → step s = .next t.nextWires) ∧
    (s.fetching = true → s.stopped = false → i.isJump = false → s0.fetched.ir = encode i →
      step s = .next ({ s0.fetched with fetching := false }).nextWires)

/-- R61, R75, R82, R300, R301, R302, R304: what a fetch takes into `IR`: from the first half F1 and N1 with `M` the B digit, from the second
half F2 and N2, with `BREG` added over 19 bits when `M` is set. A selected stop sets `S`; the clear-store wire gives and leaves zero. -/
def Obligations.FetchLoadsTheInstruction : Prop :=
  ∀ s : State,
    let a := s.scr.toNat / 2
    let cleared := s.wires.cs = true ∧ 4 ≤ a
    let w : Word := if cleared then 0 else s.store.read a
    let first := s.scr.toNat % 2 = 0
    s.fetched = { s with
      ir := if first then BitVec.ofNat 19 (w.toNat / 2 ^ 20)
        else BitVec.ofNat 19 (w.toNat + if s.modPending = true then s.breg.toNat else 0)
      modPending := decide (first ∧ w.toNat / 2 ^ 19 % 2 = 1)
      stopped := s.stopped || decide (s.wires.ss = true ∧ s.wires.n1.toNat = a)
      store := if cleared then s.store.write a 0 else s.store }

/-- R293, U1: the RESET wire acts in every phase. `ACC` and `AR` are unchanged but where it cuts off a function 52, 53, 56 or 60 to 65: then
they are unspecified, with `AR[38]` 0 (log 12). -/
def Obligations.ResetWire : Prop :=
  ∀ s : State, s.wires.reset = true →
    ∃ (a r : Word) (d : Nat),
      step s = .next (State.nextWires
        { s with
          out := Outputs.quiet, acc := a, ar := r, draws := d
          stopped := true, fetching := true, longFn := false, lastWt := false, busy := false, modPending := false, t := 0
          oflow := false, fpo := false, parity := true }) ∧
      (s.longFn = false ∨ fnField s.ir ∉ [42#6, 43#6, 46#6, 48#6, 49#6, 50#6, 51#6, 52#6, 53#6] →
        a = s.acc ∧ r = s.ar ∧ d = s.draws) ∧
      (s.ar.getLsbD 38 = false → r.getLsbD 38 = false)

/-- R295, R296: a stopped beat changes nothing without the operate event; with it Normal clears `S`, Read loads `IR` from the buttons, Obey
loads it and decodes: a jump is carried out at once, any other function goes to the execute phase, `S` staying true. -/
def Obligations.ConsoleActions : Prop :=
  ∀ s : State, s.wires.reset = false → s.fetching = true → s.stopped = true →
    let s0 := { s with out := Outputs.quiet }
    let loaded := { s0 with ir := s.wires.f1 ++ s.wires.n1, modPending := false }
    (s.wires.operate = false → step s = .next s0.nextWires) ∧
    (s.wires.operate = true → s.wires.ron = .normal → step s = .next ({ s0 with stopped := false }).nextWires) ∧
    (s.wires.operate = true → s.wires.ron = .read → step s = .next loaded.nextWires) ∧
    (s.wires.operate = true → s.wires.ron = .obey → s.wires.f1.toNat / 8 ≠ 4 →
      step s = .next ({ loaded with fetching := false }).nextWires) ∧
    (s.wires.operate = true → s.wires.ron = .obey → s.wires.f1.toNat / 8 = 4 →
      ∃ t, exec (decode loaded.ir) loaded = .next t ∧ step s = .next t.nextWires ∧ t.stopped = true ∧ t.fetching = true)

/-- R295, R365: a stopped machine whose console stays quiet keeps its state for ever: after any number of word-times only the wires have
moved. -/
def Obligations.StoppedIsASteadyState : Prop :=
  ∀ (s : State) (k : Nat), s.isStopped = true → s.ConsoleQuiet →
    ∃ t, Sys2Proof.core.run k s = .next t ∧ ∃ (o : Outputs) (b : Wires) (f : List Wires),
      t = { s with out := o, wires := b, feed := f }

/-- R172, R365 condition 2: `40 p` in the first half of word `p` is a dynamic stop, whatever the wires to come: "the core fetches it for
ever". While RESET and the clear-store wire stay false and no selected stop matches, every number of word-times leaves all but `IR`, `M`
and the wires as it was, with `IR` holding `40 p` and `M` false from the first of them, and the state reached is a dynamic stop again.
That a dynamic stop asks for the clear store and the selected stop to be at rest as well as the console of R365 is the model's (log 29). -/
def Obligations.JumpToItselfIsADynamicStop : Prop :=
  ∀ (s : State) (p : Address), s.fetching = true → s.stopped = false → s.scr.toNat = 2 * p.toNat →
    firstHalf (s.store.read p.toNat) = encode (.fn40 p) →
    s.DynamicStop ∧
    (s.Always (fun w => w.reset = false ∧ w.cs = false ∧ (w.ss = true → w.n1 ≠ p)) →
      ∀ k : Nat, ∃ t, Sys2Proof.core.run k s = .next t ∧ t.DynamicStop ∧
        ∃ (x : InstrBits) (m : Bool) (o : Outputs) (b : Wires) (f : List Wires),
          t = { s with ir := x, modPending := m, out := o, wires := b, feed := f } ∧
          (0 < k → x = encode (.fn40 p) ∧ m = false))

/-- The invariant of the machine's states holds at power-on with no core image (R50, R360). -/
def Obligations.PowerOnMeetsTheInvariant : Prop := State.reset.Inv

/-- R360, R361, R76: power-on with any parameters and any core image of 65536 bytes meets the invariant; bit `8 * i + j` of word
`a`, from word 4 on, is bit `j` of the byte at offset `8 * a + i`, so the least significant byte comes first and bits 39 to 63 are ignored; words 0 to 3 are the bootstrap words, whatever the image held there. With
no image nothing is listed in the store. -/
def Obligations.PowerOnWithAnImage : Prop :=
  ∀ (p : Params) (bytes : List (BitVec 8)), bytes.length = 65536 →
    let s := State.powerOn p (some bytes)
    s.Inv ∧ (State.powerOn p none).store = [] ∧
    (∀ a i j : Nat, 4 ≤ a → a < 8192 → j < 8 → 8 * i + j < 39 →
      (s.store.read a).getLsbD (8 * i + j) = (bytes.getD (8 * a + i) 0).getLsbD j) ∧
    s.store.read 0 = 188982804480#39 ∧ s.store.read 1 = 154623655939#39 ∧
    s.store.read 2 = 386552766464#39 ∧ s.store.read 3 = 300649021442#39

/-- Every word-time keeps the invariant: the canonical store with the bootstrap words, `AR[38]` 0, `PARITY` true, `L` and `B` only in the
execute phase, `L` exactly while `T` is not 0, no jump in the execute phase. -/
def Obligations.EveryStepKeepsTheInvariant : Prop := ∀ s t : State, s.Inv → step s = .next t → t.Inv

/-- R290: the transition is total: from every state that meets the invariant the machine goes on, whatever is on the wires. -/
def Obligations.TheMachineNeverFaults : Prop := ∀ s : State, s.Inv → ∃ t, step s = .next t

/-- R39, R40, R372: once `Z` and `NEGA` describe `ACC` every word-time without RESET keeps them so, and every execute beat makes them so. -/
def Obligations.FlagsDescribeTheAccumulator : Prop :=
  ∀ s t : State, step s = .next t → s.wires.reset = false →
    (s.FlagsDescribeAcc → t.FlagsDescribeAcc) ∧ (s.fetching = false → t.FlagsDescribeAcc)

/-- R36, R176, R374: `OFLOW` is cleared only by RESET and by a jump 43 or 47 carried out in the fetch phase. -/
def Obligations.OverflowIsSticky : Prop :=
  ∀ s t : State, step s = .next t → s.oflow = true → t.oflow = false →
    s.wires.reset = true ∨ (s.fetching = true ∧ (fnField t.ir = 35#6 ∨ fnField t.ir = 39#6))

/-- R31, R38: `S` is cleared only by Operate in Normal; `FPO` is cleared only by RESET, and is set only together with `S`. -/
def Obligations.StopAndFpoChangeOnlyByTheirRules : Prop :=
  ∀ s t : State, step s = .next t →
    (s.stopped = true → t.stopped = false →
      s.wires.reset = false ∧ s.fetching = true ∧ s.wires.operate = true ∧ s.wires.ron = .normal) ∧
    (s.fpo = true → t.fpo = false → s.wires.reset = true) ∧
    (s.fpo = false → t.fpo = true → t.stopped = true ∧ s.fetching = false)

/-- R291, R300, R170, R321: in the fetch phase, jumps included, the registers of the arithmetic and the flags computed by execute beats do not
change, and no peripheral output is driven. That the scratch registers do not change there either is the model's choice (log 13): R29
gives their contents at no beat. -/
def Obligations.FetchPhaseKeepsTheRegisters : Prop :=
  ∀ s t : State, step s = .next t → s.fetching = true → s.wires.reset = false →
    t.acc = s.acc ∧ t.ar = s.ar ∧ t.mreg = s.mreg ∧ t.scratch = s.scratch ∧ t.breg = s.breg ∧ t.t = s.t ∧
    t.longFn = s.longFn ∧ t.lastWt = s.lastWt ∧ t.busy = s.busy ∧ t.parity = s.parity ∧ t.fpo = s.fpo ∧
    t.z = s.z ∧ t.nega = s.nega ∧ t.out = Outputs.quiet

/-- R25, R307, R37: an execute beat changes neither `IR` nor `M` nor `PARITY`. That every word-time takes exactly the head off the wires still
to come and keeps the parameters is the model's choice (logs 14 and 3): the fields are the model's own. -/
def Obligations.ExecuteBeatFrame : Prop :=
  ∀ s t : State, step s = .next t →
    t.params = s.params ∧ t.feed = s.feed.tail ∧
    (s.fetching = false → s.wires.reset = false → t.ir = s.ir ∧ t.modPending = s.modPending ∧ t.parity = s.parity)

/-- R76: a saved store has 65536 bytes: bit `8 * i + j` of the container of word `a` is bit `j` of the byte at offset `8 * a + i`, the least
significant byte first, and the container is the 39-bit word with its sign repeated in bit 39 and zeros above. Loaded again it is the
store. -/
def Obligations.CoreImageRoundTrip : Prop :=
  ∀ m : Store, m.wf = true → (∀ a : Nat, a < 4 → m.read a = Store.initial a) →
    (saveImage m).length = 65536 ∧
    (∀ a i j : Nat, a < 8192 → i < 8 → j < 8 →
      ((saveImage m).getD (8 * a + i) 0).getLsbD j =
        if 8 * i + j < 39 then (m.read a).getLsbD (8 * i + j) else if 8 * i + j = 39 then (m.read a).getLsbD 38 else false) ∧
    loadImage (saveImage m) = m

/-- R295, R296, R358, R360, R363 (1): power-on, with any parameters and any core image or none, is idle until the operator acts, whatever else is on
the wires, and then runs the initial instructions. The wires to come (log 14) are `q`, with neither RESET nor the operate event in it,
then an operate event in Normal, then any without RESET. Through `q` only the wires move; the event clears `S`; and the word-time after
it fetches `26 4`, the first half of word 0. -/
def Obligations.PowerOnIsIdle : Prop :=
  ∀ (p : Params) (image : Option (List (BitVec 8))) (b : Wires) (f q rest : List Wires) (start after : Wires),
    (∀ bytes, image = some bytes → bytes.length = 65536) →
    b :: f = q ++ start :: after :: rest → (∀ w ∈ q, w.reset = false ∧ w.operate = false) →
    start.reset = false → start.operate = true → start.ron = .normal → after.reset = false →
    let s := { State.powerOn p image with wires := b, feed := f }
    (∀ j ≤ q.length, ∃ (b' : Wires) (f' : List Wires), Sys2Proof.core.run j s = .next { s with wires := b', feed := f' }) ∧
    Sys2Proof.core.run (q.length + 1) s = .next { s with stopped := false, wires := after, feed := rest } ∧
    ∃ t, Sys2Proof.core.run (q.length + 2) s = .next t ∧ t.ir = encode (.fn26 4) ∧ t.fetching = false ∧ t.scr = 0 ∧
      t.acc = 0 ∧ t.ar = 0 ∧ t.oflow = false ∧ t.store = s.store

/-- Log 17 (the model's own): after `withFetchWord` the very next step, from power-on, runs exactly the instruction of the table's bits. -/
def Obligations.PlacedInstructionRunsNext : Prop :=
  ∀ (nbits w : Nat), 19 ≤ nbits → w < 2 ^ 19 →
    ∃ i, decodeTableWord nbits w = some i ∧ encode i = BitVec.ofNat 19 w ∧
      step (State.reset.withFetchWord nbits w) = exec i (State.reset.withFetchWord nbits w)
end

