-- ==== Sys2Proof/Laws/Arith.lean ====
section
/-! SUPPORT. Word arithmetic as integers: signed values, the double-length accumulator and its one-place shifts, floating-point fields. -/

namespace Sys2Proof.Machine

open Sys2Proof

/-! ### Words -/

/-- Two bit vectors in a row, as numbers. -/
theorem toNat_append_eq {a b : Nat} (x : BitVec a) (y : BitVec b) : (x ++ y).toNat = x.toNat * 2 ^ b + y.toNat := by
  rw [BitVec.toNat_append, Nat.shiftLeft_eq, Nat.mul_comm, ← Nat.two_pow_add_eq_or_of_lt y.isLt]

/-- One bit of a word, as a number. -/
theorem toNat_ofBool_getLsbD (w : Word) (k : Nat) : (BitVec.ofBool (w.getLsbD k)).toNat = w.toNat / 2 ^ k % 2 := by
  simp only [← BitVec.testBit_toNat, Nat.testBit_eq_decide_div_mod_eq]
  rcases Nat.mod_two_eq_zero_or_one (w.toNat / 2 ^ k) with h | h <;> rw [h] <;> rfl

/-- The signed value by the sign bit (R7). -/
theorem signed_eq (w : Word) : signed w = if w.toNat < 2 ^ 38 then (w.toNat : Int) else w.toNat - 2 ^ 39 := by
  have := w.isLt
  rw [signed, BitVec.toInt_eq_toNat_cond]
  split <;> split <;> omega

theorem signed_range (w : Word) : -2 ^ 38 ≤ signed w ∧ signed w < 2 ^ 38 := by
  have := w.isLt
  rw [signed_eq]
  split <;> omega

theorem word_toNat (v : Int) : (word v).toNat = (v % 2 ^ 39).toNat := by
  simp [word, BitVec.toNat_ofInt]

theorem signed_word (v : Int) : signed (word v) = Int.bmod v (2 ^ 39) := by
  simp [signed, word, BitVec.toInt_ofInt]

/-! ### The double-length accumulator -/

theorem dl_eq (acc ar : Word) :
    dl acc ar = (if acc.toNat < 2 ^ 38 then (acc.toNat : Int) else acc.toNat - 2 ^ 39) * 2 ^ 38 + (ar.toNat % 2 ^ 38 : Nat) := by
  simp only [dl, signed_eq, arLow]

/-- The value has 77 bits (R110). -/
theorem dl_range (acc ar : Word) : -2 ^ 76 ≤ dl acc ar ∧ dl acc ar < 2 ^ 76 := by
  have := acc.isLt
  have := ar.isLt
  rw [dl_eq]
  split <;> omega

/-- `dlpair` takes a value back to its registers (R110). -/
theorem dlpair_dl {acc ar : Word} (h : ar.getLsbD 38 = false) : dlpair (dl acc ar) = (acc, ar) := by
  have hr : ar.toNat < 2 ^ 38 := by
    simp only [← BitVec.testBit_toNat, Nat.testBit_eq_decide_div_mod_eq] at h
    have := ar.isLt
    simp at h
    omega
  have := acc.isLt
  simp only [dlpair, Prod.mk.injEq]
  constructor <;> apply BitVec.eq_of_toNat_eq <;> rw [word_toNat, dl_eq] <;> split <;> omega

theorem shiftRightDouble_acc (acc ar : Word) :
    (shiftRightDouble acc ar).acc.toNat = acc.toNat / 2 ^ 38 % 2 * 2 ^ 38 + acc.toNat / 2 := by
  have := acc.isLt
  refine (toNat_append_eq (BitVec.ofBool (acc.getLsbD 38)) (acc.extractLsb' 1 38)).trans ?_
  rw [toNat_ofBool_getLsbD, BitVec.extractLsb'_toNat, Nat.shiftRight_eq_div_pow]
  omega

theorem shiftRightDouble_ar (acc ar : Word) :
    (shiftRightDouble acc ar).ar.toNat = acc.toNat % 2 * 2 ^ 37 + ar.toNat % 2 ^ 38 / 2 := by
  have := ar.isLt
  refine (toNat_append_eq (0#1 ++ BitVec.ofBool (acc.getLsbD 0) : BitVec (1 + 1)) (ar.extractLsb' 1 37)).trans ?_
  rw [toNat_append_eq, toNat_ofBool_getLsbD, BitVec.extractLsb'_toNat, Nat.shiftRight_eq_div_pow]
  simp
  omega

theorem shiftLeftDouble_acc (acc ar : Word) :
    (shiftLeftDouble acc ar).acc.toNat = acc.toNat % 2 ^ 38 * 2 + ar.toNat / 2 ^ 37 % 2 := by
  refine (toNat_append_eq (acc.extractLsb' 0 38) (BitVec.ofBool (ar.getLsbD 37))).trans ?_
  rw [toNat_ofBool_getLsbD, BitVec.extractLsb'_toNat, Nat.shiftRight_eq_div_pow]
  simp

theorem shiftLeftDouble_ar (acc ar : Word) : (shiftLeftDouble acc ar).ar.toNat = ar.toNat % 2 ^ 37 * 2 := by
  refine (toNat_append_eq (0#1 ++ ar.extractLsb' 0 37 : BitVec (1 + 37)) 0#1).trans ?_
  rw [toNat_append_eq, BitVec.extractLsb'_toNat, Nat.shiftRight_eq_div_pow]
  simp

/-- One place right halves the value, rounding down (R111). -/
theorem dl_shiftRightDouble (acc ar : Word) :
    dl (shiftRightDouble acc ar).acc (shiftRightDouble acc ar).ar = dl acc ar / 2 := by
  have := acc.isLt
  have := ar.isLt
  rw [dl_eq, dl_eq, shiftRightDouble_acc, shiftRightDouble_ar]
  split <;> split <;> omega

/-- One place left doubles the value modulo 2^77 (R113). -/
theorem dl_shiftLeftDouble (acc ar : Word) :
    dl (shiftLeftDouble acc ar).acc (shiftLeftDouble acc ar).ar = Int.bmod (dl acc ar * 2) (2 ^ 77) := by
  have := acc.isLt
  have := ar.isLt
  rw [dl_eq, dl_eq, shiftLeftDouble_acc, shiftLeftDouble_ar, Int.bmod_def]
  split <;> split <;> split <;> omega

/-- One place left, single length, doubles the value modulo 2^39 (R114). -/
theorem shiftLeftSingle_acc (acc ar : Word) : (shiftLeftSingle acc ar).acc = word (signed acc * 2) := by
  have := acc.isLt
  apply BitVec.eq_of_toNat_eq
  refine (toNat_append_eq (acc.extractLsb' 0 38) 0#1).trans ?_
  rw [word_toNat, signed_eq, BitVec.extractLsb'_toNat, Nat.shiftRight_eq_div_pow]
  split <;> simp <;> omega

/-- One place right, single length, halves the unsigned pattern (R112). -/
theorem shiftRightSingle_acc (acc ar : Word) : (shiftRightSingle acc ar).acc.toNat = acc.toNat / 2 := by
  have := acc.isLt
  refine (toNat_append_eq 0#1 (acc.extractLsb' 1 38)).trans ?_
  rw [BitVec.extractLsb'_toNat, Nat.shiftRight_eq_div_pow]
  simp
  omega

/-! ### Floating-point fields -/

theorem fpExp_eq (w : Word) : fpExp w = w.toNat % 512 := by
  simp [fpExp, BitVec.extractLsb'_toNat]

theorem fpMant_eq (w : Word) : fpMant w = signed w / 512 := by
  have := w.isLt
  have h : (w.extractLsb' 9 30).toNat = w.toNat / 512 := by
    rw [BitVec.extractLsb'_toNat, Nat.shiftRight_eq_div_pow]
    omega
  rw [fpMant, BitVec.toInt_eq_toNat_cond, h, signed_eq]
  split <;> split <;> omega

theorem fpJoin_toNat (m : Int) {e : Nat} (h : e < 512) : (fpJoin m e).toNat = (m % 2 ^ 30).toNat * 512 + e := by
  refine (toNat_append_eq (BitVec.ofInt 30 m) (BitVec.ofNat 9 e)).trans ?_
  simp [BitVec.toNat_ofInt]
  omega

end Sys2Proof.Machine
end

