-- ==== Sys2Proof/Laws/Bits.lean ====
section
/-! SUPPORT. The fields of packed bit vectors as numbers: instruction words, store words, sequence control values. -/

namespace Sys2Proof.Machine

open Sys2Proof

/-- The function code of an encoding (R81). -/
theorem fnField_append (c : FnCode) (n : Address) : fnField (c ++ n : BitVec (6 + 13)) = c := by
  apply BitVec.eq_of_toNat_eq
  simp only [fnField, BitVec.extractLsb'_toNat, BitVec.toNat_append]
  rw [Nat.shiftLeft_eq, Nat.mul_comm, ← Nat.two_pow_add_eq_or_of_lt n.isLt, Nat.shiftRight_eq_div_pow]
  have := n.isLt
  have := c.isLt
  omega

/-- The address field of an encoding (R81). -/
theorem addressField_append (c : FnCode) (n : Address) : addressField (c ++ n : BitVec (6 + 13)) = n := by
  apply BitVec.eq_of_toNat_eq
  simp only [addressField, BitVec.extractLsb'_toNat, BitVec.toNat_append]
  rw [Nat.shiftLeft_eq, Nat.mul_comm, ← Nat.two_pow_add_eq_or_of_lt n.isLt, Nat.shiftRight_eq_div_pow]
  have := n.isLt
  have := c.isLt
  omega

/-- The two fields make up the instruction (R81). -/
theorem fields_append (x : InstrBits) : (fnField x ++ addressField x : BitVec (6 + 13)) = x := by
  apply BitVec.eq_of_toNat_eq
  have := x.isLt
  simp only [fnField, addressField, BitVec.extractLsb'_toNat, BitVec.toNat_append]
  rw [Nat.shiftLeft_eq, Nat.mul_comm, ← Nat.two_pow_add_eq_or_of_lt (by omega), Nat.shiftRight_eq_div_pow]
  omega

/-- A packed word as a number (R80). -/
theorem packWord_toNat (x1 : InstrBits) (b : Bool) (x2 : InstrBits) :
    (packWord x1 b x2).toNat = x1.toNat * 2 ^ 20 + b.toNat * 2 ^ 19 + x2.toNat := by
  have h1 : (x1 ++ BitVec.ofBool b : BitVec (19 + 1)).toNat = x1.toNat * 2 + b.toNat := by
    rw [BitVec.toNat_append, Nat.shiftLeft_eq, Nat.mul_comm, ← Nat.two_pow_add_eq_or_of_lt (BitVec.isLt _)]
    cases b <;> simp
  have h2 := BitVec.toNat_append (x1 ++ BitVec.ofBool b : BitVec (19 + 1)) x2
  rw [Nat.shiftLeft_eq, Nat.mul_comm, ← Nat.two_pow_add_eq_or_of_lt x2.isLt, h1] at h2
  exact h2.trans (by ring)

/-- The first half as a number (R80). -/
theorem firstHalf_toNat (w : Word) : (firstHalf w).toNat = w.toNat / 2 ^ 20 := by
  have := w.isLt
  simp only [firstHalf, BitVec.extractLsb'_toNat, Nat.shiftRight_eq_div_pow]
  omega

/-- The second half as a number (R80). -/
theorem secondHalf_toNat (w : Word) : (secondHalf w).toNat = w.toNat % 2 ^ 19 := by
  simp [secondHalf, BitVec.extractLsb'_toNat]

/-- The B digit as a number (R80). -/
theorem bDigit_eq (w : Word) : bDigit w = decide (w.toNat / 2 ^ 19 % 2 = 1) := by
  simp only [bDigit, ← BitVec.testBit_toNat, Nat.testBit_eq_decide_div_mod_eq]

/-- The word address of a sequence control value (R24). -/
theorem scrWord_toNat (scr : BitVec 14) : (scrWord scr).toNat = scr.toNat / 2 := by
  have := scr.isLt
  simp only [scrWord, BitVec.extractLsb'_toNat, Nat.shiftRight_eq_div_pow]
  omega

/-- The half a sequence control value selects (R24). -/
theorem scrSecond_eq (scr : BitVec 14) : scrSecond scr = decide (scr.toNat % 2 = 1) := by
  simp only [scrSecond, ← BitVec.testBit_toNat, Nat.testBit_eq_decide_div_mod_eq, pow_zero, Nat.div_one]

/-- The sequence control value of a half of a word (R171). -/
theorem scrOf_eq (n : Address) (second : Bool) : scrOf n second = BitVec.ofNat 14 (2 * n.toNat + second.toNat) := by
  apply BitVec.eq_of_toNat_eq
  have h := BitVec.toNat_append n (BitVec.ofBool second)
  rw [Nat.shiftLeft_eq, Nat.mul_comm, ← Nat.two_pow_add_eq_or_of_lt (BitVec.isLt _)] at h
  refine h.trans ?_
  have := n.isLt
  cases second <;> simp <;> omega

end Sys2Proof.Machine
end

