-- ==== Sys2Proof/Laws/State.lean ====
section
/-! SUPPORT. One lemma per field for every update of the state: what the field is after it. -/

namespace Sys2Proof.Machine

open Sys2Proof

variable (s : State)

/-! `clearOnRead` -/

@[simp] theorem State.clearOnRead_acc (a : Address) : (s.clearOnRead a).acc = s.acc := rfl
@[simp] theorem State.clearOnRead_ar (a : Address) : (s.clearOnRead a).ar = s.ar := rfl
@[simp] theorem State.clearOnRead_scr (a : Address) : (s.clearOnRead a).scr = s.scr := rfl
@[simp] theorem State.clearOnRead_ir (a : Address) : (s.clearOnRead a).ir = s.ir := rfl
@[simp] theorem State.clearOnRead_breg (a : Address) : (s.clearOnRead a).breg = s.breg := rfl
@[simp] theorem State.clearOnRead_t (a : Address) : (s.clearOnRead a).t = s.t := rfl
@[simp] theorem State.clearOnRead_mreg (a : Address) : (s.clearOnRead a).mreg = s.mreg := rfl
@[simp] theorem State.clearOnRead_scratch (a : Address) : (s.clearOnRead a).scratch = s.scratch := rfl
@[simp] theorem State.clearOnRead_fetching (a : Address) : (s.clearOnRead a).fetching = s.fetching := rfl
@[simp] theorem State.clearOnRead_stopped (a : Address) : (s.clearOnRead a).stopped = s.stopped := rfl
@[simp] theorem State.clearOnRead_longFn (a : Address) : (s.clearOnRead a).longFn = s.longFn := rfl
@[simp] theorem State.clearOnRead_lastWt (a : Address) : (s.clearOnRead a).lastWt = s.lastWt := rfl
@[simp] theorem State.clearOnRead_busy (a : Address) : (s.clearOnRead a).busy = s.busy := rfl
@[simp] theorem State.clearOnRead_modPending (a : Address) : (s.clearOnRead a).modPending = s.modPending := rfl
@[simp] theorem State.clearOnRead_oflow (a : Address) : (s.clearOnRead a).oflow = s.oflow := rfl
@[simp] theorem State.clearOnRead_parity (a : Address) : (s.clearOnRead a).parity = s.parity := rfl
@[simp] theorem State.clearOnRead_fpo (a : Address) : (s.clearOnRead a).fpo = s.fpo := rfl
@[simp] theorem State.clearOnRead_z (a : Address) : (s.clearOnRead a).z = s.z := rfl
@[simp] theorem State.clearOnRead_nega (a : Address) : (s.clearOnRead a).nega = s.nega := rfl
@[simp] theorem State.clearOnRead_store (a : Address) : (s.clearOnRead a).store = if s.wires.cs && !reserved a then s.store.write a.toNat 0 else s.store := rfl
@[simp] theorem State.clearOnRead_out (a : Address) : (s.clearOnRead a).out = s.out := rfl
@[simp] theorem State.clearOnRead_wires (a : Address) : (s.clearOnRead a).wires = s.wires := rfl
@[simp] theorem State.clearOnRead_feed (a : Address) : (s.clearOnRead a).feed = s.feed := rfl
@[simp] theorem State.clearOnRead_params (a : Address) : (s.clearOnRead a).params = s.params := rfl
@[simp] theorem State.clearOnRead_draws (a : Address) : (s.clearOnRead a).draws = s.draws := rfl

/-! `memWrite` -/

@[simp] theorem State.memWrite_acc (a : Address) (v : Word) : (s.memWrite a v).acc = s.acc := rfl
@[simp] theorem State.memWrite_ar (a : Address) (v : Word) : (s.memWrite a v).ar = s.ar := rfl
@[simp] theorem State.memWrite_scr (a : Address) (v : Word) : (s.memWrite a v).scr = s.scr := rfl
@[simp] theorem State.memWrite_ir (a : Address) (v : Word) : (s.memWrite a v).ir = s.ir := rfl
@[simp] theorem State.memWrite_breg (a : Address) (v : Word) : (s.memWrite a v).breg = s.breg := rfl
@[simp] theorem State.memWrite_t (a : Address) (v : Word) : (s.memWrite a v).t = s.t := rfl
@[simp] theorem State.memWrite_mreg (a : Address) (v : Word) : (s.memWrite a v).mreg = s.mreg := rfl
@[simp] theorem State.memWrite_scratch (a : Address) (v : Word) : (s.memWrite a v).scratch = s.scratch := rfl
@[simp] theorem State.memWrite_fetching (a : Address) (v : Word) : (s.memWrite a v).fetching = s.fetching := rfl
@[simp] theorem State.memWrite_stopped (a : Address) (v : Word) : (s.memWrite a v).stopped = s.stopped := rfl
@[simp] theorem State.memWrite_longFn (a : Address) (v : Word) : (s.memWrite a v).longFn = s.longFn := rfl
@[simp] theorem State.memWrite_lastWt (a : Address) (v : Word) : (s.memWrite a v).lastWt = s.lastWt := rfl
@[simp] theorem State.memWrite_busy (a : Address) (v : Word) : (s.memWrite a v).busy = s.busy := rfl
@[simp] theorem State.memWrite_modPending (a : Address) (v : Word) : (s.memWrite a v).modPending = s.modPending := rfl
@[simp] theorem State.memWrite_oflow (a : Address) (v : Word) : (s.memWrite a v).oflow = s.oflow := rfl
@[simp] theorem State.memWrite_parity (a : Address) (v : Word) : (s.memWrite a v).parity = s.parity := rfl
@[simp] theorem State.memWrite_fpo (a : Address) (v : Word) : (s.memWrite a v).fpo = s.fpo := rfl
@[simp] theorem State.memWrite_z (a : Address) (v : Word) : (s.memWrite a v).z = s.z := rfl
@[simp] theorem State.memWrite_nega (a : Address) (v : Word) : (s.memWrite a v).nega = s.nega := rfl
@[simp] theorem State.memWrite_store (a : Address) (v : Word) : (s.memWrite a v).store = if reserved a then s.store else s.store.write a.toNat v := rfl
@[simp] theorem State.memWrite_out (a : Address) (v : Word) : (s.memWrite a v).out = s.out := rfl
@[simp] theorem State.memWrite_wires (a : Address) (v : Word) : (s.memWrite a v).wires = s.wires := rfl
@[simp] theorem State.memWrite_feed (a : Address) (v : Word) : (s.memWrite a v).feed = s.feed := rfl
@[simp] theorem State.memWrite_params (a : Address) (v : Word) : (s.memWrite a v).params = s.params := rfl
@[simp] theorem State.memWrite_draws (a : Address) (v : Word) : (s.memWrite a v).draws = s.draws := rfl

/-! `drawn` -/

@[simp] theorem State.drawn_acc : s.drawn.acc = s.acc := rfl
@[simp] theorem State.drawn_ar : s.drawn.ar = s.ar := rfl
@[simp] theorem State.drawn_scr : s.drawn.scr = s.scr := rfl
@[simp] theorem State.drawn_ir : s.drawn.ir = s.ir := rfl
@[simp] theorem State.drawn_breg : s.drawn.breg = s.breg := rfl
@[simp] theorem State.drawn_t : s.drawn.t = s.t := rfl
@[simp] theorem State.drawn_mreg : s.drawn.mreg = s.mreg := rfl
@[simp] theorem State.drawn_scratch : s.drawn.scratch = s.scratch := rfl
@[simp] theorem State.drawn_fetching : s.drawn.fetching = s.fetching := rfl
@[simp] theorem State.drawn_stopped : s.drawn.stopped = s.stopped := rfl
@[simp] theorem State.drawn_longFn : s.drawn.longFn = s.longFn := rfl
@[simp] theorem State.drawn_lastWt : s.drawn.lastWt = s.lastWt := rfl
@[simp] theorem State.drawn_busy : s.drawn.busy = s.busy := rfl
@[simp] theorem State.drawn_modPending : s.drawn.modPending = s.modPending := rfl
@[simp] theorem State.drawn_oflow : s.drawn.oflow = s.oflow := rfl
@[simp] theorem State.drawn_parity : s.drawn.parity = s.parity := rfl
@[simp] theorem State.drawn_fpo : s.drawn.fpo = s.fpo := rfl
@[simp] theorem State.drawn_z : s.drawn.z = s.z := rfl
@[simp] theorem State.drawn_nega : s.drawn.nega = s.nega := rfl
@[simp] theorem State.drawn_store : s.drawn.store = s.store := rfl
@[simp] theorem State.drawn_out : s.drawn.out = s.out := rfl
@[simp] theorem State.drawn_wires : s.drawn.wires = s.wires := rfl
@[simp] theorem State.drawn_feed : s.drawn.feed = s.feed := rfl
@[simp] theorem State.drawn_params : s.drawn.params = s.params := rfl
@[simp] theorem State.drawn_draws : s.drawn.draws = s.draws + 1 := rfl

/-! `workScratch` -/

@[simp] theorem State.workScratch_acc : s.workScratch.acc = s.acc := rfl
@[simp] theorem State.workScratch_ar : s.workScratch.ar = s.ar := rfl
@[simp] theorem State.workScratch_scr : s.workScratch.scr = s.scr := rfl
@[simp] theorem State.workScratch_ir : s.workScratch.ir = s.ir := rfl
@[simp] theorem State.workScratch_breg : s.workScratch.breg = s.breg := rfl
@[simp] theorem State.workScratch_t : s.workScratch.t = s.t := rfl
@[simp] theorem State.workScratch_mreg : s.workScratch.mreg = s.mreg := rfl
@[simp] theorem State.workScratch_scratch : s.workScratch.scratch = Config.drawScratch s.draws := rfl
@[simp] theorem State.workScratch_fetching : s.workScratch.fetching = s.fetching := rfl
@[simp] theorem State.workScratch_stopped : s.workScratch.stopped = s.stopped := rfl
@[simp] theorem State.workScratch_longFn : s.workScratch.longFn = s.longFn := rfl
@[simp] theorem State.workScratch_lastWt : s.workScratch.lastWt = s.lastWt := rfl
@[simp] theorem State.workScratch_busy : s.workScratch.busy = s.busy := rfl
@[simp] theorem State.workScratch_modPending : s.workScratch.modPending = s.modPending := rfl
@[simp] theorem State.workScratch_oflow : s.workScratch.oflow = s.oflow := rfl
@[simp] theorem State.workScratch_parity : s.workScratch.parity = s.parity := rfl
@[simp] theorem State.workScratch_fpo : s.workScratch.fpo = s.fpo := rfl
@[simp] theorem State.workScratch_z : s.workScratch.z = s.z := rfl
@[simp] theorem State.workScratch_nega : s.workScratch.nega = s.nega := rfl
@[simp] theorem State.workScratch_store : s.workScratch.store = s.store := rfl
@[simp] theorem State.workScratch_out : s.workScratch.out = s.out := rfl
@[simp] theorem State.workScratch_wires : s.workScratch.wires = s.wires := rfl
@[simp] theorem State.workScratch_feed : s.workScratch.feed = s.feed := rfl
@[simp] theorem State.workScratch_params : s.workScratch.params = s.params := rfl
@[simp] theorem State.workScratch_draws : s.workScratch.draws = s.draws + 1 := rfl

/-! `floatStop` -/

@[simp] theorem State.floatStop_acc : s.floatStop.acc = s.acc := rfl
@[simp] theorem State.floatStop_ar : s.floatStop.ar = s.ar := rfl
@[simp] theorem State.floatStop_scr : s.floatStop.scr = s.scr := rfl
@[simp] theorem State.floatStop_ir : s.floatStop.ir = s.ir := rfl
@[simp] theorem State.floatStop_breg : s.floatStop.breg = s.breg := rfl
@[simp] theorem State.floatStop_t : s.floatStop.t = s.t := rfl
@[simp] theorem State.floatStop_mreg : s.floatStop.mreg = s.mreg := rfl
@[simp] theorem State.floatStop_scratch : s.floatStop.scratch = s.scratch := rfl
@[simp] theorem State.floatStop_fetching : s.floatStop.fetching = s.fetching := rfl
@[simp] theorem State.floatStop_stopped : s.floatStop.stopped = true := rfl
@[simp] theorem State.floatStop_longFn : s.floatStop.longFn = s.longFn := rfl
@[simp] theorem State.floatStop_lastWt : s.floatStop.lastWt = s.lastWt := rfl
@[simp] theorem State.floatStop_busy : s.floatStop.busy = s.busy := rfl
@[simp] theorem State.floatStop_modPending : s.floatStop.modPending = s.modPending := rfl
@[simp] theorem State.floatStop_oflow : s.floatStop.oflow = s.oflow := rfl
@[simp] theorem State.floatStop_parity : s.floatStop.parity = s.parity := rfl
@[simp] theorem State.floatStop_fpo : s.floatStop.fpo = true := rfl
@[simp] theorem State.floatStop_z : s.floatStop.z = s.z := rfl
@[simp] theorem State.floatStop_nega : s.floatStop.nega = s.nega := rfl
@[simp] theorem State.floatStop_store : s.floatStop.store = s.store := rfl
@[simp] theorem State.floatStop_out : s.floatStop.out = s.out := rfl
@[simp] theorem State.floatStop_wires : s.floatStop.wires = s.wires := rfl
@[simp] theorem State.floatStop_feed : s.floatStop.feed = s.feed := rfl
@[simp] theorem State.floatStop_params : s.floatStop.params = s.params := rfl
@[simp] theorem State.floatStop_draws : s.floatStop.draws = s.draws := rfl

/-! `quietOutputs` -/

@[simp] theorem State.quietOutputs_acc : s.quietOutputs.acc = s.acc := rfl
@[simp] theorem State.quietOutputs_ar : s.quietOutputs.ar = s.ar := rfl
@[simp] theorem State.quietOutputs_scr : s.quietOutputs.scr = s.scr := rfl
@[simp] theorem State.quietOutputs_ir : s.quietOutputs.ir = s.ir := rfl
@[simp] theorem State.quietOutputs_breg : s.quietOutputs.breg = s.breg := rfl
@[simp] theorem State.quietOutputs_t : s.quietOutputs.t = s.t := rfl
@[simp] theorem State.quietOutputs_mreg : s.quietOutputs.mreg = s.mreg := rfl
@[simp] theorem State.quietOutputs_scratch : s.quietOutputs.scratch = s.scratch := rfl
@[simp] theorem State.quietOutputs_fetching : s.quietOutputs.fetching = s.fetching := rfl
@[simp] theorem State.quietOutputs_stopped : s.quietOutputs.stopped = s.stopped := rfl
@[simp] theorem State.quietOutputs_longFn : s.quietOutputs.longFn = s.longFn := rfl
@[simp] theorem State.quietOutputs_lastWt : s.quietOutputs.lastWt = s.lastWt := rfl
@[simp] theorem State.quietOutputs_busy : s.quietOutputs.busy = s.busy := rfl
@[simp] theorem State.quietOutputs_modPending : s.quietOutputs.modPending = s.modPending := rfl
@[simp] theorem State.quietOutputs_oflow : s.quietOutputs.oflow = s.oflow := rfl
@[simp] theorem State.quietOutputs_parity : s.quietOutputs.parity = s.parity := rfl
@[simp] theorem State.quietOutputs_fpo : s.quietOutputs.fpo = s.fpo := rfl
@[simp] theorem State.quietOutputs_z : s.quietOutputs.z = s.z := rfl
@[simp] theorem State.quietOutputs_nega : s.quietOutputs.nega = s.nega := rfl
@[simp] theorem State.quietOutputs_store : s.quietOutputs.store = s.store := rfl
@[simp] theorem State.quietOutputs_out : s.quietOutputs.out = Outputs.quiet := rfl
@[simp] theorem State.quietOutputs_wires : s.quietOutputs.wires = s.wires := rfl
@[simp] theorem State.quietOutputs_feed : s.quietOutputs.feed = s.feed := rfl
@[simp] theorem State.quietOutputs_params : s.quietOutputs.params = s.params := rfl
@[simp] theorem State.quietOutputs_draws : s.quietOutputs.draws = s.draws := rfl

/-! `sequence` -/

@[simp] theorem State.sequence_acc (k : BitVec 7) (b : Bool) (w : Word) : (s.sequence k b w).acc = s.acc := rfl
@[simp] theorem State.sequence_ar (k : BitVec 7) (b : Bool) (w : Word) : (s.sequence k b w).ar = s.ar := rfl
@[simp] theorem State.sequence_scr (k : BitVec 7) (b : Bool) (w : Word) : (s.sequence k b w).scr = s.scr := rfl
@[simp] theorem State.sequence_ir (k : BitVec 7) (b : Bool) (w : Word) : (s.sequence k b w).ir = s.ir := rfl
@[simp] theorem State.sequence_breg (k : BitVec 7) (b : Bool) (w : Word) : (s.sequence k b w).breg = s.breg := rfl
@[simp] theorem State.sequence_t (k : BitVec 7) (b : Bool) (w : Word) : (s.sequence k b w).t = if s.longFn then s.t - 1 else k := rfl
@[simp] theorem State.sequence_mreg (k : BitVec 7) (b : Bool) (w : Word) : (s.sequence k b w).mreg = if b && !s.longFn then w else s.mreg := rfl
@[simp] theorem State.sequence_scratch (k : BitVec 7) (b : Bool) (w : Word) : (s.sequence k b w).scratch = s.scratch := rfl
@[simp] theorem State.sequence_fetching (k : BitVec 7) (b : Bool) (w : Word) : (s.sequence k b w).fetching = s.fetching := rfl
@[simp] theorem State.sequence_stopped (k : BitVec 7) (b : Bool) (w : Word) : (s.sequence k b w).stopped = s.stopped := rfl
@[simp] theorem State.sequence_longFn (k : BitVec 7) (b : Bool) (w : Word) : (s.sequence k b w).longFn = ((if s.longFn then s.t - 1 else k) != 0) := rfl
@[simp] theorem State.sequence_lastWt (k : BitVec 7) (b : Bool) (w : Word) : (s.sequence k b w).lastWt = ((if s.longFn then s.t - 1 else k) == 0 && s.longFn) := rfl
@[simp] theorem State.sequence_busy (k : BitVec 7) (b : Bool) (w : Word) : (s.sequence k b w).busy = s.busy := rfl
@[simp] theorem State.sequence_modPending (k : BitVec 7) (b : Bool) (w : Word) : (s.sequence k b w).modPending = s.modPending := rfl
@[simp] theorem State.sequence_oflow (k : BitVec 7) (b : Bool) (w : Word) : (s.sequence k b w).oflow = s.oflow := rfl
@[simp] theorem State.sequence_parity (k : BitVec 7) (b : Bool) (w : Word) : (s.sequence k b w).parity = s.parity := rfl
@[simp] theorem State.sequence_fpo (k : BitVec 7) (b : Bool) (w : Word) : (s.sequence k b w).fpo = s.fpo := rfl
@[simp] theorem State.sequence_z (k : BitVec 7) (b : Bool) (w : Word) : (s.sequence k b w).z = s.z := rfl
@[simp] theorem State.sequence_nega (k : BitVec 7) (b : Bool) (w : Word) : (s.sequence k b w).nega = s.nega := rfl
@[simp] theorem State.sequence_store (k : BitVec 7) (b : Bool) (w : Word) : (s.sequence k b w).store = s.store := rfl
@[simp] theorem State.sequence_out (k : BitVec 7) (b : Bool) (w : Word) : (s.sequence k b w).out = s.out := rfl
@[simp] theorem State.sequence_wires (k : BitVec 7) (b : Bool) (w : Word) : (s.sequence k b w).wires = s.wires := rfl
@[simp] theorem State.sequence_feed (k : BitVec 7) (b : Bool) (w : Word) : (s.sequence k b w).feed = s.feed := rfl
@[simp] theorem State.sequence_params (k : BitVec 7) (b : Bool) (w : Word) : (s.sequence k b w).params = s.params := rfl
@[simp] theorem State.sequence_draws (k : BitVec 7) (b : Bool) (w : Word) : (s.sequence k b w).draws = s.draws := rfl

/-! `endOfBeat` -/

@[simp] theorem State.endOfBeat_acc (n : Address) (w : Word) : (s.endOfBeat n w).acc = s.acc := rfl
@[simp] theorem State.endOfBeat_ar (n : Address) (w : Word) : (s.endOfBeat n w).ar = s.ar := rfl
@[simp] theorem State.endOfBeat_scr (n : Address) (w : Word) : (s.endOfBeat n w).scr = s.scr := rfl
@[simp] theorem State.endOfBeat_ir (n : Address) (w : Word) : (s.endOfBeat n w).ir = s.ir := rfl
@[simp] theorem State.endOfBeat_breg (n : Address) (w : Word) : (s.endOfBeat n w).breg = nextBreg n w := rfl
@[simp] theorem State.endOfBeat_t (n : Address) (w : Word) : (s.endOfBeat n w).t = s.t := rfl
@[simp] theorem State.endOfBeat_mreg (n : Address) (w : Word) : (s.endOfBeat n w).mreg = s.mreg := rfl
@[simp] theorem State.endOfBeat_scratch (n : Address) (w : Word) : (s.endOfBeat n w).scratch = s.scratch := rfl
@[simp] theorem State.endOfBeat_fetching (n : Address) (w : Word) : (s.endOfBeat n w).fetching = s.fetching := rfl
@[simp] theorem State.endOfBeat_stopped (n : Address) (w : Word) : (s.endOfBeat n w).stopped = s.stopped := rfl
@[simp] theorem State.endOfBeat_longFn (n : Address) (w : Word) : (s.endOfBeat n w).longFn = s.longFn := rfl
@[simp] theorem State.endOfBeat_lastWt (n : Address) (w : Word) : (s.endOfBeat n w).lastWt = s.lastWt := rfl
@[simp] theorem State.endOfBeat_busy (n : Address) (w : Word) : (s.endOfBeat n w).busy = s.busy := rfl
@[simp] theorem State.endOfBeat_modPending (n : Address) (w : Word) : (s.endOfBeat n w).modPending = s.modPending := rfl
@[simp] theorem State.endOfBeat_oflow (n : Address) (w : Word) : (s.endOfBeat n w).oflow = s.oflow := rfl
@[simp] theorem State.endOfBeat_parity (n : Address) (w : Word) : (s.endOfBeat n w).parity = s.parity := rfl
@[simp] theorem State.endOfBeat_fpo (n : Address) (w : Word) : (s.endOfBeat n w).fpo = s.fpo := rfl
@[simp] theorem State.endOfBeat_z (n : Address) (w : Word) : (s.endOfBeat n w).z = zeroFlag s.acc := rfl
@[simp] theorem State.endOfBeat_nega (n : Address) (w : Word) : (s.endOfBeat n w).nega = negFlag s.acc := rfl
@[simp] theorem State.endOfBeat_store (n : Address) (w : Word) : (s.endOfBeat n w).store = s.store := rfl
@[simp] theorem State.endOfBeat_out (n : Address) (w : Word) : (s.endOfBeat n w).out = s.out := rfl
@[simp] theorem State.endOfBeat_wires (n : Address) (w : Word) : (s.endOfBeat n w).wires = s.wires := rfl
@[simp] theorem State.endOfBeat_feed (n : Address) (w : Word) : (s.endOfBeat n w).feed = s.feed := rfl
@[simp] theorem State.endOfBeat_params (n : Address) (w : Word) : (s.endOfBeat n w).params = s.params := rfl
@[simp] theorem State.endOfBeat_draws (n : Address) (w : Word) : (s.endOfBeat n w).draws = s.draws := rfl

/-! `advance` -/

@[simp] theorem State.advance_acc : s.advance.acc = s.acc := rfl
@[simp] theorem State.advance_ar : s.advance.ar = s.ar := rfl
@[simp] theorem State.advance_scr : s.advance.scr = if s.longFn || s.busy then s.scr else s.scr + 1 := rfl
@[simp] theorem State.advance_ir : s.advance.ir = s.ir := rfl
@[simp] theorem State.advance_breg : s.advance.breg = s.breg := rfl
@[simp] theorem State.advance_t : s.advance.t = s.t := rfl
@[simp] theorem State.advance_mreg : s.advance.mreg = s.mreg := rfl
@[simp] theorem State.advance_scratch : s.advance.scratch = s.scratch := rfl
@[simp] theorem State.advance_fetching : s.advance.fetching = (s.fetching || !(s.longFn || s.busy)) := rfl
@[simp] theorem State.advance_stopped : s.advance.stopped = s.stopped := rfl
@[simp] theorem State.advance_longFn : s.advance.longFn = s.longFn := rfl
@[simp] theorem State.advance_lastWt : s.advance.lastWt = s.lastWt := rfl
@[simp] theorem State.advance_busy : s.advance.busy = s.busy := rfl
@[simp] theorem State.advance_modPending : s.advance.modPending = s.modPending := rfl
@[simp] theorem State.advance_oflow : s.advance.oflow = s.oflow := rfl
@[simp] theorem State.advance_parity : s.advance.parity = s.parity := rfl
@[simp] theorem State.advance_fpo : s.advance.fpo = s.fpo := rfl
@[simp] theorem State.advance_z : s.advance.z = s.z := rfl
@[simp] theorem State.advance_nega : s.advance.nega = s.nega := rfl
@[simp] theorem State.advance_store : s.advance.store = s.store := rfl
@[simp] theorem State.advance_out : s.advance.out = s.out := rfl
@[simp] theorem State.advance_wires : s.advance.wires = s.wires := rfl
@[simp] theorem State.advance_feed : s.advance.feed = s.feed := rfl
@[simp] theorem State.advance_params : s.advance.params = s.params := rfl
@[simp] theorem State.advance_draws : s.advance.draws = s.draws := rfl

/-! `finish` -/

@[simp] theorem State.finish_acc (n : Address) (w : Word) : (s.finish n w).acc = s.acc := rfl
@[simp] theorem State.finish_ar (n : Address) (w : Word) : (s.finish n w).ar = s.ar := rfl
@[simp] theorem State.finish_scr (n : Address) (w : Word) : (s.finish n w).scr = if s.longFn || s.busy then s.scr else s.scr + 1 := rfl
@[simp] theorem State.finish_ir (n : Address) (w : Word) : (s.finish n w).ir = s.ir := rfl
@[simp] theorem State.finish_breg (n : Address) (w : Word) : (s.finish n w).breg = nextBreg n w := rfl
@[simp] theorem State.finish_t (n : Address) (w : Word) : (s.finish n w).t = s.t := rfl
@[simp] theorem State.finish_mreg (n : Address) (w : Word) : (s.finish n w).mreg = s.mreg := rfl
@[simp] theorem State.finish_scratch (n : Address) (w : Word) : (s.finish n w).scratch = s.scratch := rfl
@[simp] theorem State.finish_fetching (n : Address) (w : Word) : (s.finish n w).fetching = (s.fetching || !(s.longFn || s.busy)) := rfl
@[simp] theorem State.finish_stopped (n : Address) (w : Word) : (s.finish n w).stopped = s.stopped := rfl
@[simp] theorem State.finish_longFn (n : Address) (w : Word) : (s.finish n w).longFn = s.longFn := rfl
@[simp] theorem State.finish_lastWt (n : Address) (w : Word) : (s.finish n w).lastWt = s.lastWt := rfl
@[simp] theorem State.finish_busy (n : Address) (w : Word) : (s.finish n w).busy = s.busy := rfl
@[simp] theorem State.finish_modPending (n : Address) (w : Word) : (s.finish n w).modPending = s.modPending := rfl
@[simp] theorem State.finish_oflow (n : Address) (w : Word) : (s.finish n w).oflow = s.oflow := rfl
@[simp] theorem State.finish_parity (n : Address) (w : Word) : (s.finish n w).parity = s.parity := rfl
@[simp] theorem State.finish_fpo (n : Address) (w : Word) : (s.finish n w).fpo = s.fpo := rfl
@[simp] theorem State.finish_z (n : Address) (w : Word) : (s.finish n w).z = zeroFlag s.acc := rfl
@[simp] theorem State.finish_nega (n : Address) (w : Word) : (s.finish n w).nega = negFlag s.acc := rfl
@[simp] theorem State.finish_store (n : Address) (w : Word) : (s.finish n w).store = if reserved n then s.store else s.store.write n.toNat w := rfl
@[simp] theorem State.finish_out (n : Address) (w : Word) : (s.finish n w).out = s.out := rfl
@[simp] theorem State.finish_wires (n : Address) (w : Word) : (s.finish n w).wires = s.wires := rfl
@[simp] theorem State.finish_feed (n : Address) (w : Word) : (s.finish n w).feed = s.feed := rfl
@[simp] theorem State.finish_params (n : Address) (w : Word) : (s.finish n w).params = s.params := rfl
@[simp] theorem State.finish_draws (n : Address) (w : Word) : (s.finish n w).draws = s.draws := rfl

/-! `shiftPlace` -/

@[simp] theorem State.shiftPlace_acc (p : Word → Word → Shifted) : (s.shiftPlace p).acc = (p s.acc s.ar).acc := rfl
@[simp] theorem State.shiftPlace_ar (p : Word → Word → Shifted) : (s.shiftPlace p).ar = (p s.acc s.ar).ar := rfl
@[simp] theorem State.shiftPlace_scr (p : Word → Word → Shifted) : (s.shiftPlace p).scr = s.scr := rfl
@[simp] theorem State.shiftPlace_ir (p : Word → Word → Shifted) : (s.shiftPlace p).ir = s.ir := rfl
@[simp] theorem State.shiftPlace_breg (p : Word → Word → Shifted) : (s.shiftPlace p).breg = s.breg := rfl
@[simp] theorem State.shiftPlace_t (p : Word → Word → Shifted) : (s.shiftPlace p).t = s.t := rfl
@[simp] theorem State.shiftPlace_mreg (p : Word → Word → Shifted) : (s.shiftPlace p).mreg = s.mreg := rfl
@[simp] theorem State.shiftPlace_scratch (p : Word → Word → Shifted) : (s.shiftPlace p).scratch = s.scratch := rfl
@[simp] theorem State.shiftPlace_fetching (p : Word → Word → Shifted) : (s.shiftPlace p).fetching = s.fetching := rfl
@[simp] theorem State.shiftPlace_stopped (p : Word → Word → Shifted) : (s.shiftPlace p).stopped = s.stopped := rfl
@[simp] theorem State.shiftPlace_longFn (p : Word → Word → Shifted) : (s.shiftPlace p).longFn = s.longFn := rfl
@[simp] theorem State.shiftPlace_lastWt (p : Word → Word → Shifted) : (s.shiftPlace p).lastWt = s.lastWt := rfl
@[simp] theorem State.shiftPlace_busy (p : Word → Word → Shifted) : (s.shiftPlace p).busy = s.busy := rfl
@[simp] theorem State.shiftPlace_modPending (p : Word → Word → Shifted) : (s.shiftPlace p).modPending = s.modPending := rfl
@[simp] theorem State.shiftPlace_oflow (p : Word → Word → Shifted) : (s.shiftPlace p).oflow = (s.oflow || (p s.acc s.ar).ov) := rfl
@[simp] theorem State.shiftPlace_parity (p : Word → Word → Shifted) : (s.shiftPlace p).parity = s.parity := rfl
@[simp] theorem State.shiftPlace_fpo (p : Word → Word → Shifted) : (s.shiftPlace p).fpo = s.fpo := rfl
@[simp] theorem State.shiftPlace_z (p : Word → Word → Shifted) : (s.shiftPlace p).z = s.z := rfl
@[simp] theorem State.shiftPlace_nega (p : Word → Word → Shifted) : (s.shiftPlace p).nega = s.nega := rfl
@[simp] theorem State.shiftPlace_store (p : Word → Word → Shifted) : (s.shiftPlace p).store = s.store := rfl
@[simp] theorem State.shiftPlace_out (p : Word → Word → Shifted) : (s.shiftPlace p).out = s.out := rfl
@[simp] theorem State.shiftPlace_wires (p : Word → Word → Shifted) : (s.shiftPlace p).wires = s.wires := rfl
@[simp] theorem State.shiftPlace_feed (p : Word → Word → Shifted) : (s.shiftPlace p).feed = s.feed := rfl
@[simp] theorem State.shiftPlace_params (p : Word → Word → Shifted) : (s.shiftPlace p).params = s.params := rfl
@[simp] theorem State.shiftPlace_draws (p : Word → Word → Shifted) : (s.shiftPlace p).draws = s.draws := rfl

/-! `jump` -/

@[simp] theorem State.jump_acc (c : Bool) (n : Address) (h : Bool) : (s.jump c n h).acc = s.acc := rfl
@[simp] theorem State.jump_ar (c : Bool) (n : Address) (h : Bool) : (s.jump c n h).ar = s.ar := rfl
@[simp] theorem State.jump_scr (c : Bool) (n : Address) (h : Bool) : (s.jump c n h).scr = if c then scrOf n h else s.scr + 1 := rfl
@[simp] theorem State.jump_ir (c : Bool) (n : Address) (h : Bool) : (s.jump c n h).ir = s.ir := rfl
@[simp] theorem State.jump_breg (c : Bool) (n : Address) (h : Bool) : (s.jump c n h).breg = s.breg := rfl
@[simp] theorem State.jump_t (c : Bool) (n : Address) (h : Bool) : (s.jump c n h).t = s.t := rfl
@[simp] theorem State.jump_mreg (c : Bool) (n : Address) (h : Bool) : (s.jump c n h).mreg = s.mreg := rfl
@[simp] theorem State.jump_scratch (c : Bool) (n : Address) (h : Bool) : (s.jump c n h).scratch = s.scratch := rfl
@[simp] theorem State.jump_fetching (c : Bool) (n : Address) (h : Bool) : (s.jump c n h).fetching = s.fetching := rfl
@[simp] theorem State.jump_stopped (c : Bool) (n : Address) (h : Bool) : (s.jump c n h).stopped = s.stopped := rfl
@[simp] theorem State.jump_longFn (c : Bool) (n : Address) (h : Bool) : (s.jump c n h).longFn = s.longFn := rfl
@[simp] theorem State.jump_lastWt (c : Bool) (n : Address) (h : Bool) : (s.jump c n h).lastWt = s.lastWt := rfl
@[simp] theorem State.jump_busy (c : Bool) (n : Address) (h : Bool) : (s.jump c n h).busy = s.busy := rfl
@[simp] theorem State.jump_modPending (c : Bool) (n : Address) (h : Bool) : (s.jump c n h).modPending = (!c && s.modPending) := rfl
@[simp] theorem State.jump_oflow (c : Bool) (n : Address) (h : Bool) : (s.jump c n h).oflow = s.oflow := rfl
@[simp] theorem State.jump_parity (c : Bool) (n : Address) (h : Bool) : (s.jump c n h).parity = s.parity := rfl
@[simp] theorem State.jump_fpo (c : Bool) (n : Address) (h : Bool) : (s.jump c n h).fpo = s.fpo := rfl
@[simp] theorem State.jump_z (c : Bool) (n : Address) (h : Bool) : (s.jump c n h).z = s.z := rfl
@[simp] theorem State.jump_nega (c : Bool) (n : Address) (h : Bool) : (s.jump c n h).nega = s.nega := rfl
@[simp] theorem State.jump_store (c : Bool) (n : Address) (h : Bool) : (s.jump c n h).store = s.store := rfl
@[simp] theorem State.jump_out (c : Bool) (n : Address) (h : Bool) : (s.jump c n h).out = s.out := rfl
@[simp] theorem State.jump_wires (c : Bool) (n : Address) (h : Bool) : (s.jump c n h).wires = s.wires := rfl
@[simp] theorem State.jump_feed (c : Bool) (n : Address) (h : Bool) : (s.jump c n h).feed = s.feed := rfl
@[simp] theorem State.jump_params (c : Bool) (n : Address) (h : Bool) : (s.jump c n h).params = s.params := rfl
@[simp] theorem State.jump_draws (c : Bool) (n : Address) (h : Bool) : (s.jump c n h).draws = s.draws := rfl

/-! `jumpOverflow` -/

@[simp] theorem State.jumpOverflow_acc (n : Address) (h : Bool) : (s.jumpOverflow n h).acc = s.acc := rfl
@[simp] theorem State.jumpOverflow_ar (n : Address) (h : Bool) : (s.jumpOverflow n h).ar = s.ar := rfl
@[simp] theorem State.jumpOverflow_scr (n : Address) (h : Bool) : (s.jumpOverflow n h).scr = if s.oflow then scrOf n h else s.scr + 1 := rfl
@[simp] theorem State.jumpOverflow_ir (n : Address) (h : Bool) : (s.jumpOverflow n h).ir = s.ir := rfl
@[simp] theorem State.jumpOverflow_breg (n : Address) (h : Bool) : (s.jumpOverflow n h).breg = s.breg := rfl
@[simp] theorem State.jumpOverflow_t (n : Address) (h : Bool) : (s.jumpOverflow n h).t = s.t := rfl
@[simp] theorem State.jumpOverflow_mreg (n : Address) (h : Bool) : (s.jumpOverflow n h).mreg = s.mreg := rfl
@[simp] theorem State.jumpOverflow_scratch (n : Address) (h : Bool) : (s.jumpOverflow n h).scratch = s.scratch := rfl
@[simp] theorem State.jumpOverflow_fetching (n : Address) (h : Bool) : (s.jumpOverflow n h).fetching = s.fetching := rfl
@[simp] theorem State.jumpOverflow_stopped (n : Address) (h : Bool) : (s.jumpOverflow n h).stopped = s.stopped := rfl
@[simp] theorem State.jumpOverflow_longFn (n : Address) (h : Bool) : (s.jumpOverflow n h).longFn = s.longFn := rfl
@[simp] theorem State.jumpOverflow_lastWt (n : Address) (h : Bool) : (s.jumpOverflow n h).lastWt = s.lastWt := rfl
@[simp] theorem State.jumpOverflow_busy (n : Address) (h : Bool) : (s.jumpOverflow n h).busy = s.busy := rfl
@[simp] theorem State.jumpOverflow_modPending (n : Address) (h : Bool) : (s.jumpOverflow n h).modPending = (!s.oflow && s.modPending) := rfl
@[simp] theorem State.jumpOverflow_oflow (n : Address) (h : Bool) : (s.jumpOverflow n h).oflow = false := rfl
@[simp] theorem State.jumpOverflow_parity (n : Address) (h : Bool) : (s.jumpOverflow n h).parity = s.parity := rfl
@[simp] theorem State.jumpOverflow_fpo (n : Address) (h : Bool) : (s.jumpOverflow n h).fpo = s.fpo := rfl
@[simp] theorem State.jumpOverflow_z (n : Address) (h : Bool) : (s.jumpOverflow n h).z = s.z := rfl
@[simp] theorem State.jumpOverflow_nega (n : Address) (h : Bool) : (s.jumpOverflow n h).nega = s.nega := rfl
@[simp] theorem State.jumpOverflow_store (n : Address) (h : Bool) : (s.jumpOverflow n h).store = s.store := rfl
@[simp] theorem State.jumpOverflow_out (n : Address) (h : Bool) : (s.jumpOverflow n h).out = s.out := rfl
@[simp] theorem State.jumpOverflow_wires (n : Address) (h : Bool) : (s.jumpOverflow n h).wires = s.wires := rfl
@[simp] theorem State.jumpOverflow_feed (n : Address) (h : Bool) : (s.jumpOverflow n h).feed = s.feed := rfl
@[simp] theorem State.jumpOverflow_params (n : Address) (h : Bool) : (s.jumpOverflow n h).params = s.params := rfl
@[simp] theorem State.jumpOverflow_draws (n : Address) (h : Bool) : (s.jumpOverflow n h).draws = s.draws := rfl

/-! `loadButtons` -/

@[simp] theorem State.loadButtons_acc : s.loadButtons.acc = s.acc := rfl
@[simp] theorem State.loadButtons_ar : s.loadButtons.ar = s.ar := rfl
@[simp] theorem State.loadButtons_scr : s.loadButtons.scr = s.scr := rfl
@[simp] theorem State.loadButtons_ir : s.loadButtons.ir = s.wires.buttons := rfl
@[simp] theorem State.loadButtons_breg : s.loadButtons.breg = s.breg := rfl
@[simp] theorem State.loadButtons_t : s.loadButtons.t = s.t := rfl
@[simp] theorem State.loadButtons_mreg : s.loadButtons.mreg = s.mreg := rfl
@[simp] theorem State.loadButtons_scratch : s.loadButtons.scratch = s.scratch := rfl
@[simp] theorem State.loadButtons_fetching : s.loadButtons.fetching = s.fetching := rfl
@[simp] theorem State.loadButtons_stopped : s.loadButtons.stopped = s.stopped := rfl
@[simp] theorem State.loadButtons_longFn : s.loadButtons.longFn = s.longFn := rfl
@[simp] theorem State.loadButtons_lastWt : s.loadButtons.lastWt = s.lastWt := rfl
@[simp] theorem State.loadButtons_busy : s.loadButtons.busy = s.busy := rfl
@[simp] theorem State.loadButtons_modPending : s.loadButtons.modPending = false := rfl
@[simp] theorem State.loadButtons_oflow : s.loadButtons.oflow = s.oflow := rfl
@[simp] theorem State.loadButtons_parity : s.loadButtons.parity = s.parity := rfl
@[simp] theorem State.loadButtons_fpo : s.loadButtons.fpo = s.fpo := rfl
@[simp] theorem State.loadButtons_z : s.loadButtons.z = s.z := rfl
@[simp] theorem State.loadButtons_nega : s.loadButtons.nega = s.nega := rfl
@[simp] theorem State.loadButtons_store : s.loadButtons.store = s.store := rfl
@[simp] theorem State.loadButtons_out : s.loadButtons.out = s.out := rfl
@[simp] theorem State.loadButtons_wires : s.loadButtons.wires = s.wires := rfl
@[simp] theorem State.loadButtons_feed : s.loadButtons.feed = s.feed := rfl
@[simp] theorem State.loadButtons_params : s.loadButtons.params = s.params := rfl
@[simp] theorem State.loadButtons_draws : s.loadButtons.draws = s.draws := rfl

/-! `loadIr` -/

@[simp] theorem State.loadIr_acc (w : Word) : (s.loadIr w).acc = s.acc := rfl
@[simp] theorem State.loadIr_ar (w : Word) : (s.loadIr w).ar = s.ar := rfl
@[simp] theorem State.loadIr_scr (w : Word) : (s.loadIr w).scr = s.scr := rfl
@[simp] theorem State.loadIr_ir (w : Word) : (s.loadIr w).ir = if scrSecond s.scr then modified w s.modPending s.breg else firstHalf w := rfl
@[simp] theorem State.loadIr_breg (w : Word) : (s.loadIr w).breg = s.breg := rfl
@[simp] theorem State.loadIr_t (w : Word) : (s.loadIr w).t = s.t := rfl
@[simp] theorem State.loadIr_mreg (w : Word) : (s.loadIr w).mreg = s.mreg := rfl
@[simp] theorem State.loadIr_scratch (w : Word) : (s.loadIr w).scratch = s.scratch := rfl
@[simp] theorem State.loadIr_fetching (w : Word) : (s.loadIr w).fetching = s.fetching := rfl
@[simp] theorem State.loadIr_stopped (w : Word) : (s.loadIr w).stopped = s.stopped := rfl
@[simp] theorem State.loadIr_longFn (w : Word) : (s.loadIr w).longFn = s.longFn := rfl
@[simp] theorem State.loadIr_lastWt (w : Word) : (s.loadIr w).lastWt = s.lastWt := rfl
@[simp] theorem State.loadIr_busy (w : Word) : (s.loadIr w).busy = s.busy := rfl
@[simp] theorem State.loadIr_modPending (w : Word) : (s.loadIr w).modPending = (!scrSecond s.scr && bDigit w) := rfl
@[simp] theorem State.loadIr_oflow (w : Word) : (s.loadIr w).oflow = s.oflow := rfl
@[simp] theorem State.loadIr_parity (w : Word) : (s.loadIr w).parity = s.parity := rfl
@[simp] theorem State.loadIr_fpo (w : Word) : (s.loadIr w).fpo = s.fpo := rfl
@[simp] theorem State.loadIr_z (w : Word) : (s.loadIr w).z = s.z := rfl
@[simp] theorem State.loadIr_nega (w : Word) : (s.loadIr w).nega = s.nega := rfl
@[simp] theorem State.loadIr_store (w : Word) : (s.loadIr w).store = s.store := rfl
@[simp] theorem State.loadIr_out (w : Word) : (s.loadIr w).out = s.out := rfl
@[simp] theorem State.loadIr_wires (w : Word) : (s.loadIr w).wires = s.wires := rfl
@[simp] theorem State.loadIr_feed (w : Word) : (s.loadIr w).feed = s.feed := rfl
@[simp] theorem State.loadIr_params (w : Word) : (s.loadIr w).params = s.params := rfl
@[simp] theorem State.loadIr_draws (w : Word) : (s.loadIr w).draws = s.draws := rfl

/-! `selectedStop` -/

@[simp] theorem State.selectedStop_acc (a : Address) : (s.selectedStop a).acc = s.acc := rfl
@[simp] theorem State.selectedStop_ar (a : Address) : (s.selectedStop a).ar = s.ar := rfl
@[simp] theorem State.selectedStop_scr (a : Address) : (s.selectedStop a).scr = s.scr := rfl
@[simp] theorem State.selectedStop_ir (a : Address) : (s.selectedStop a).ir = s.ir := rfl
@[simp] theorem State.selectedStop_breg (a : Address) : (s.selectedStop a).breg = s.breg := rfl
@[simp] theorem State.selectedStop_t (a : Address) : (s.selectedStop a).t = s.t := rfl
@[simp] theorem State.selectedStop_mreg (a : Address) : (s.selectedStop a).mreg = s.mreg := rfl
@[simp] theorem State.selectedStop_scratch (a : Address) : (s.selectedStop a).scratch = s.scratch := rfl
@[simp] theorem State.selectedStop_fetching (a : Address) : (s.selectedStop a).fetching = s.fetching := rfl
@[simp] theorem State.selectedStop_stopped (a : Address) : (s.selectedStop a).stopped = (s.stopped || (s.wires.ss && s.wires.n1 == a)) := rfl
@[simp] theorem State.selectedStop_longFn (a : Address) : (s.selectedStop a).longFn = s.longFn := rfl
@[simp] theorem State.selectedStop_lastWt (a : Address) : (s.selectedStop a).lastWt = s.lastWt := rfl
@[simp] theorem State.selectedStop_busy (a : Address) : (s.selectedStop a).busy = s.busy := rfl
@[simp] theorem State.selectedStop_modPending (a : Address) : (s.selectedStop a).modPending = s.modPending := rfl
@[simp] theorem State.selectedStop_oflow (a : Address) : (s.selectedStop a).oflow = s.oflow := rfl
@[simp] theorem State.selectedStop_parity (a : Address) : (s.selectedStop a).parity = s.parity := rfl
@[simp] theorem State.selectedStop_fpo (a : Address) : (s.selectedStop a).fpo = s.fpo := rfl
@[simp] theorem State.selectedStop_z (a : Address) : (s.selectedStop a).z = s.z := rfl
@[simp] theorem State.selectedStop_nega (a : Address) : (s.selectedStop a).nega = s.nega := rfl
@[simp] theorem State.selectedStop_store (a : Address) : (s.selectedStop a).store = s.store := rfl
@[simp] theorem State.selectedStop_out (a : Address) : (s.selectedStop a).out = s.out := rfl
@[simp] theorem State.selectedStop_wires (a : Address) : (s.selectedStop a).wires = s.wires := rfl
@[simp] theorem State.selectedStop_feed (a : Address) : (s.selectedStop a).feed = s.feed := rfl
@[simp] theorem State.selectedStop_params (a : Address) : (s.selectedStop a).params = s.params := rfl
@[simp] theorem State.selectedStop_draws (a : Address) : (s.selectedStop a).draws = s.draws := rfl

/-! `nextWires` -/

@[simp] theorem State.nextWires_acc : s.nextWires.acc = s.acc := rfl
@[simp] theorem State.nextWires_ar : s.nextWires.ar = s.ar := rfl
@[simp] theorem State.nextWires_scr : s.nextWires.scr = s.scr := rfl
@[simp] theorem State.nextWires_ir : s.nextWires.ir = s.ir := rfl
@[simp] theorem State.nextWires_breg : s.nextWires.breg = s.breg := rfl
@[simp] theorem State.nextWires_t : s.nextWires.t = s.t := rfl
@[simp] theorem State.nextWires_mreg : s.nextWires.mreg = s.mreg := rfl
@[simp] theorem State.nextWires_scratch : s.nextWires.scratch = s.scratch := rfl
@[simp] theorem State.nextWires_fetching : s.nextWires.fetching = s.fetching := rfl
@[simp] theorem State.nextWires_stopped : s.nextWires.stopped = s.stopped := rfl
@[simp] theorem State.nextWires_longFn : s.nextWires.longFn = s.longFn := rfl
@[simp] theorem State.nextWires_lastWt : s.nextWires.lastWt = s.lastWt := rfl
@[simp] theorem State.nextWires_busy : s.nextWires.busy = s.busy := rfl
@[simp] theorem State.nextWires_modPending : s.nextWires.modPending = s.modPending := rfl
@[simp] theorem State.nextWires_oflow : s.nextWires.oflow = s.oflow := rfl
@[simp] theorem State.nextWires_parity : s.nextWires.parity = s.parity := rfl
@[simp] theorem State.nextWires_fpo : s.nextWires.fpo = s.fpo := rfl
@[simp] theorem State.nextWires_z : s.nextWires.z = s.z := rfl
@[simp] theorem State.nextWires_nega : s.nextWires.nega = s.nega := rfl
@[simp] theorem State.nextWires_store : s.nextWires.store = s.store := rfl
@[simp] theorem State.nextWires_out : s.nextWires.out = s.out := rfl
@[simp] theorem State.nextWires_wires : s.nextWires.wires = s.feed.headD { s.wires with operate := false } := rfl
@[simp] theorem State.nextWires_feed : s.nextWires.feed = s.feed.tail := rfl
@[simp] theorem State.nextWires_params : s.nextWires.params = s.params := rfl
@[simp] theorem State.nextWires_draws : s.nextWires.draws = s.draws := rfl

end Sys2Proof.Machine
end

