-- ==== Sys2Proof/Laws/Store.lean ====
section
/-! SUPPORT. The laws of the store: a read after a write, and that every operation keeps the canonical form. -/

namespace Sys2Proof.Machine

open Sys2Proof

/-- An address below the canonical form's bound reads as unlisted. -/
theorem Store.read_below {m : Store} {lo a : Nat} (h : m.wfFrom lo = true) (ha : a < lo) : m.read a = Store.initial a := by
  induction m generalizing lo with
  | nil => rfl
  | cons p rest ih =>
    obtain ⟨b, w⟩ := p
    simp only [Store.wfFrom, Bool.and_eq_true, decide_eq_true_eq] at h
    have hab : a ≠ b := by omega
    simp only [Store.read, hab, if_false]
    exact ih h.2 (by omega)

theorem Store.wfFrom_mono {m : Store} {lo lo' : Nat} (h : m.wfFrom lo = true) (hl : lo' ≤ lo) : m.wfFrom lo' = true := by
  cases m with
  | nil => rfl
  | cons p rest =>
    simp only [Store.wfFrom, Bool.and_eq_true, decide_eq_true_eq] at h ⊢
    exact ⟨⟨⟨by omega, h.1.1.2⟩, h.1.2⟩, h.2⟩

/-- A write leaves every other address alone. -/
theorem Store.read_write_other (m : Store) {a b : Nat} (v : Word) (h : b ≠ a) : (m.write a v).read b = m.read b := by
  induction m with
  | nil => simp only [Store.write]; split <;> simp [Store.read, h]
  | cons p rest ih =>
    obtain ⟨c, w⟩ := p
    simp only [Store.write]
    split
    · split <;> simp [Store.read, h]
    · split
      · rename_i hac
        subst hac
        split <;> simp [Store.read, h]
      · simp only [Store.read, ih]

/-- A read after a write to the same address gives the value written. -/
theorem Store.read_write_same {m : Store} {lo a : Nat} (v : Word) (h : m.wfFrom lo = true) : (m.write a v).read a = v := by
  induction m generalizing lo with
  | nil =>
    simp only [Store.write]
    split
    · rename_i hv; simp [Store.read, hv]
    · simp [Store.read]
  | cons p rest ih =>
    obtain ⟨b, w⟩ := p
    simp only [Store.wfFrom, Bool.and_eq_true, decide_eq_true_eq] at h
    simp only [Store.write]
    split
    · rename_i hab
      split
      · rename_i hv
        simp only [Store.read, Nat.ne_of_lt hab, if_false]
        rw [Store.read_below h.2 (by omega), hv]
      · simp [Store.read]
    · split
      · rename_i hab
        subst hab
        split
        · rename_i hv
          rw [Store.read_below h.2 (Nat.lt_succ_self _), hv]
        · simp [Store.read]
      · rename_i hab
        simp only [Store.read, hab, if_false]
        exact ih h.2

/-- A write keeps the canonical form. -/
theorem Store.write_wfFrom {m : Store} {lo a : Nat} (v : Word) (h : m.wfFrom lo = true) (hlo : lo ≤ a) (ha : a < storeWords) :
    (m.write a v).wfFrom lo = true := by
  induction m generalizing lo with
  | nil =>
    simp only [Store.write]
    split
    · rfl
    · simp_all [Store.wfFrom]
  | cons p rest ih =>
    obtain ⟨b, w⟩ := p
    have h0 := h
    simp only [Store.wfFrom, Bool.and_eq_true, decide_eq_true_eq] at h
    simp only [Store.write]
    split
    · split
      · exact h0
      · rename_i hab hv
        simp only [Store.wfFrom, Bool.and_eq_true, decide_eq_true_eq, bne_iff_ne, ne_eq]
        exact ⟨⟨⟨hlo, ha⟩, hv⟩, ⟨⟨by omega, h.1.1.2⟩, by simpa using h.1.2⟩, h.2⟩
    · split
      · rename_i hab
        subst hab
        split
        · exact Store.wfFrom_mono h.2 (by omega)
        · rename_i hv
          simp only [Store.wfFrom, Bool.and_eq_true, decide_eq_true_eq, bne_iff_ne, ne_eq]
          exact ⟨⟨⟨hlo, ha⟩, hv⟩, h.2⟩
      · simp only [Store.wfFrom, Bool.and_eq_true, decide_eq_true_eq]
        exact ⟨h.1, ih h.2 (by omega)⟩

theorem Store.write_wf {m : Store} {a : Nat} (v : Word) (h : m.wf = true) (ha : a < storeWords) : (m.write a v).wf = true :=
  Store.write_wfFrom v h (Nat.zero_le a) ha

theorem Store.read_write_self {m : Store} {a : Nat} (v : Word) (h : m.wf = true) : (m.write a v).read a = v :=
  Store.read_write_same v h

/-- The last of two writes to one address counts. -/
theorem Store.write_write {m : Store} {lo a : Nat} (u v : Word) (h : m.wfFrom lo = true) :
    (m.write a u).write a v = m.write a v := by
  have fresh : ∀ {r : Store} {b : Nat}, r.wfFrom b = true → a < b →
      r.write a v = if v = Store.initial a then r else (a, v) :: r := by
    intro r b hr hab
    cases r with
    | nil => rfl
    | cons p rest =>
      obtain ⟨c, w⟩ := p
      simp only [Store.wfFrom, Bool.and_eq_true, decide_eq_true_eq] at hr
      simp [Store.write, show a < c by omega]
  induction m generalizing lo with
  | nil => simp only [Store.write]; split <;> simp [Store.write]
  | cons p rest ih =>
    obtain ⟨b, w⟩ := p
    simp only [Store.wfFrom, Bool.and_eq_true, decide_eq_true_eq] at h
    simp only [Store.write]
    split
    · rename_i hab
      split <;> simp [Store.write, hab]
    · split
      · rename_i hab
        subst hab
        split
        · rw [fresh h.2 (Nat.lt_succ_self _)]
        · simp [Store.write]
      · rename_i h1 h2
        simp only [Store.write, h1, h2, if_false]
        rw [ih h.2]

theorem address_lt (a : Address) : a.toNat < storeWords := a.isLt

/-- The store read of a beat, clear store included, keeps the canonical form. -/
theorem State.clearOnRead_wf {s : State} (a : Address) (h : s.store.wf = true) : (s.clearOnRead a).store.wf = true := by
  simp only [State.clearOnRead_store]
  split
  · exact Store.write_wf 0 h (address_lt a)
  · exact h

/-- The write-back keeps the canonical form. -/
theorem State.memWrite_wf {s : State} (a : Address) (v : Word) (h : s.store.wf = true) : (s.memWrite a v).store.wf = true := by
  simp only [State.memWrite_store]
  split
  · exact h
  · exact Store.write_wf v h (address_lt a)

/-- Placing an instruction for the host keeps the canonical form. -/
theorem State.placeInstruction_wf {s : State} (x : InstrBits) (h : s.store.wf = true) :
    (s.placeInstruction x).store.wf = true :=
  Store.write_wf _ h (address_lt _)

/-- Nothing is listed at power-on. -/
theorem State.reset_store_wf : State.reset.store.wf = true := rfl

/-- A loaded core image is in the canonical form. -/
theorem storeFrom_wfFrom (a : Nat) (cs : List (BitVec 64)) : (storeFrom a cs).wfFrom a = true := by
  induction cs generalizing a with
  | nil => rfl
  | cons c rest ih =>
    simp only [storeFrom]
    split
    · rename_i h
      obtain ⟨h1, h2, h3⟩ := h
      have hi : Store.initial a = 0 := by
        unfold reservedLow at h1
        obtain ⟨k, rfl⟩ : ∃ k, a = k + 4 := ⟨a - 4, by omega⟩
        rfl
      simp only [Store.wfFrom, Bool.and_eq_true, decide_eq_true_eq, bne_iff_ne, ne_eq, hi]
      exact ⟨⟨⟨le_refl _, h2⟩, h3⟩, ih (a + 1)⟩
    · exact Store.wfFrom_mono (ih (a + 1)) (by omega)

/-- Whatever a core image holds at 0 to 3, the bootstrap words stand there (R76, R361). -/
theorem storeFrom_read_low (a : Nat) (cs : List (BitVec 64)) {b : Nat} (hb : b < reservedLow) :
    (storeFrom a cs).read b = Store.initial b := by
  induction cs generalizing a with
  | nil => rfl
  | cons c rest ih =>
    simp only [storeFrom]
    split
    · rename_i h
      simp only [Store.read]
      rw [if_neg (by have := h.1; omega)]
      exact ih (a + 1)
    · exact ih (a + 1)

theorem loadImage_read_low (bytes : List (BitVec 8)) {b : Nat} (hb : b < reservedLow) :
    (loadImage bytes).read b = Store.initial b := storeFrom_read_low 0 _ hb

theorem loadImage_wf (bytes : List (BitVec 8)) : (loadImage bytes).wf = true := storeFrom_wfFrom 0 _

end Sys2Proof.Machine
end

