-- ==== Sys2Proof/Laws/Ops.lean ====
section
/-! SUPPORT. What each shared operation can do, said once: the flags, the frame of an execute beat in the terms of
`Sys2Proof/Safety.lean`, and the cases of a word-time. -/

namespace Sys2Proof.Machine

open Sys2Proof

/-! ### Flags and small operands -/

/-- Not a definitional rewrite, so that `simp` keeps the `Decidable` instances of a condition in step. -/
theorem reserved_eq (n : Address) : reserved n = decide (n.toNat < 4) :=
  decide_eq_decide.mpr Iff.rfl

theorem zeroFlag_eq (w : Word) : zeroFlag w = decide (w = 0) := by
  unfold zeroFlag
  exact Bool.eq_iff_iff.mpr (by simp)

theorem negFlag_eq (w : Word) : negFlag w = decide (signed w < 0) := by
  have h := BitVec.toInt_neg_iff (x := w)
  have hm : negFlag w = decide (2 ^ 38 ≤ w.toNat) := by
    have h2 := w.isLt
    simp only [negFlag, ← BitVec.testBit_toNat, Nat.testBit_eq_decide_div_mod_eq]
    simp only [decide_eq_decide]
    omega
  rw [hm]
  simp only [signed, decide_eq_decide, h]
  omega

theorem nextBreg_eq (n : Address) (w : Word) : nextBreg n w = if n.toNat < 4 then 0 else w.extractLsb' 0 19 := by
  by_cases h : n.toNat < 4 <;> simp [nextBreg, reserved_eq, h]

/-- The write-back after the read of the same beat, with or without clear store. -/
theorem writtenBack_clearOnRead {s : State} (n : Address) (w : Word) (h : s.store.wf = true) :
    (if reserved n then (s.clearOnRead n).store else (s.clearOnRead n).store.write n.toNat w) = s.writtenBack n w := by
  simp only [State.clearOnRead_store, State.writtenBack, reserved_eq]
  by_cases hn : n.toNat < 4
  · simp [hn]
  · by_cases hc : s.wires.cs = true
    · simpa [hn, hc] using Store.write_write 0 w h
    · simp [hn, hc]

/-! ### The end of a beat -/

/-- The end of every execute beat (R307, R310, R311): `u` is what the handler left, `s` the state the beat began in. -/
theorem State.finish_eq {u s : State} (n : Address) (w : Word) (hu : u.store = (s.clearOnRead n).store) (h : s.store.wf = true) :
    u.finish n w =
      { u with
        fetching := u.fetching || !(u.longFn || u.busy)
        scr := if u.longFn || u.busy then u.scr else u.scr + 1
        breg := if n.toNat < 4 then 0 else w.extractLsb' 0 19
        z := decide (u.acc = 0), nega := decide (signed u.acc < 0), store := s.writtenBack n w } := by
  rw [← writtenBack_clearOnRead n w h, ← hu, ← nextBreg_eq, ← zeroFlag_eq, ← negFlag_eq]
  rfl

/-- What a handler of `Sequence` may write: the accumulators, the sticky flags, the scratch registers, the count of free values (R309). -/
def HandlerKeeps (u t : State) : Prop :=
  t = { u with acc := t.acc, ar := t.ar, oflow := t.oflow, fpo := t.fpo, stopped := t.stopped, scratch := t.scratch, draws := t.draws }

/-- The state a sequenced handler is given (R308). -/
def State.begun (s : State) (n : Address) (k : Word → BitVec 7) (latch : Bool) : State :=
  (s.clearOnRead n).sequence (k (s.memRead n)) latch (s.memRead n)

/-- One beat of a sequenced function (R307, R308): what the handler left, and the frame of the beat. -/
theorem sequencedBeat_eq {s : State} (n : Address) (k : Word → BitVec 7) (latch : Bool)
    (h : Bool → Bool → Word → State → Handled) (hs : s.Executing)
    (hk : HandlerKeeps (s.begun n k latch) (h (!s.longFn) (!(s.begun n k latch).longFn) (s.memRead n) (s.begun n k latch)).state) :
    sequencedBeat n k latch h s =
      let r := h (!s.longFn) (!(s.begun n k latch).longFn) (s.memRead n) (s.begun n k latch)
      State.afterBeat
        { s with
          acc := r.state.acc, ar := r.state.ar, oflow := r.state.oflow, fpo := r.state.fpo, stopped := r.state.stopped
          scratch := r.state.scratch, draws := r.state.draws
          mreg := if latch && !s.longFn then s.memRead n else s.mreg } n r.sc (k (s.memRead n)) := by
  obtain ⟨hf, hb, hw⟩ := hs
  change (h (!s.longFn) (!(s.begun n k latch).longFn) (s.memRead n) (s.begun n k latch)).state.finish n
    (h (!s.longFn) (!(s.begun n k latch).longFn) (s.memRead n) (s.begun n k latch)).sc = _
  generalize h (!s.longFn) (!(s.begun n k latch).longFn) (s.memRead n) (s.begun n k latch) = r at *
  obtain ⟨u, w⟩ := r
  simp only [HandlerKeeps] at hk ⊢
  rw [State.finish_eq (s := s) n w (by rw [hk]; rfl) hw, hk]
  simp only [State.begun, State.afterBeat, State.nextT, State.writtenBack, State.sequence_t, State.sequence_longFn,
    State.sequence_lastWt, State.sequence_mreg, State.sequence_busy, State.sequence_fetching, State.sequence_scr,
    State.clearOnRead_longFn, State.clearOnRead_t, State.clearOnRead_busy, State.clearOnRead_fetching, State.clearOnRead_scr,
    State.clearOnRead_mreg, hf, hb]
  have beq : ∀ x : BitVec 7, (x == 0#7) = decide (x = 0#7) := fun x => Bool.eq_iff_iff.mpr (by simp)
  have bne : ∀ x : BitVec 7, (x != 0#7) = !decide (x = 0#7) := fun x => Bool.eq_iff_iff.mpr (by simp)
  by_cases hl : s.longFn = true <;> simp [hl, beq, bne]

/-- What a handler outside `Sequence` may write (R260). -/
def IoKeeps (u t : State) : Prop := t = { u with acc := t.acc, busy := t.busy, out := t.out }

/-- One beat of 70, 71, 72, 74, 75, 76 (R307): what the handler left, and the frame of the beat. -/
theorem ioBeat_eq {s : State} (n : Address) (h : State → State) (hf : s.fetching = false) (hl : s.longFn = false)
    (hw : s.store.wf = true) (hk : IoKeeps { s.clearOnRead n with lastWt := false } (h { s.clearOnRead n with lastWt := false })) :
    ioBeat n h s =
      let r := h { s.clearOnRead n with lastWt := false }
      State.afterIo { s with acc := r.acc, busy := r.busy, out := r.out } n (s.memRead n) := by
  change (h { s.clearOnRead n with lastWt := false }).finish n _ = _
  generalize h { s.clearOnRead n with lastWt := false } = u at *
  simp only [IoKeeps] at hk
  rw [State.finish_eq (s := s) n _ (by rw [hk]) hw, hk]
  cases hb : u.busy <;> simp [State.afterIo, State.writtenBack, hf, hl]

/-- On the one beat of `K = 1` the frame is that of `State.ended` (R308). -/
theorem afterBeat_zero {s : State} (n : Address) (w : Word) (hl : s.longFn = false) :
    s.afterBeat n w 0 = s.ended n w := by
  simp [State.afterBeat, State.ended, State.nextT, State.writtenBack, hl]

/-- A one-beat function of the arithmetic groups (R131). -/
theorem arithBeat_eq {s : State} (n : Address) (f : Word → Word → Routed) (hs : s.Executing) (hl : s.longFn = false) :
    arithBeat n f s = State.ended { s with acc := (f s.acc (s.memRead n)).acc, oflow := s.oflow || (f s.acc (s.memRead n)).ov } n
      (f s.acc (s.memRead n)).sc := by
  unfold arithBeat
  rw [sequencedBeat_eq n _ _ _ hs (by simp [HandlerKeeps])]
  exact afterBeat_zero n _ hl

/-- A one-beat function that leaves the store word unchanged (57, 65 with N < 4096, 66, 67; R308). -/
theorem plainBeat_eq {s : State} (n : Address) (h : State → State) (hs : s.Executing) (hl : s.longFn = false)
    (hk : HandlerKeeps (s.begun n (fun _ => 0) false) (h (s.begun n (fun _ => 0) false))) :
    plainBeat n h s =
      let r := h (s.begun n (fun _ => 0) false)
      State.ended { s with acc := r.acc, ar := r.ar, oflow := r.oflow, fpo := r.fpo, stopped := r.stopped,
                           scratch := r.scratch, draws := r.draws } n (s.memRead n) := by
  unfold plainBeat
  rw [sequencedBeat_eq n _ _ _ hs hk]
  exact afterBeat_zero n _ hl

/-- `K - 1` of the shifts as a number (R191, R315). -/
theorem shiftLast_eq (n : Address) : shiftLast n = if n.toNat % 128 = 0 then 0 else BitVec.ofNat 7 (n.toNat % 128 - 1) := by
  have hc : (shiftCount n).toNat = n.toNat % 128 := by simp [shiftCount, BitVec.extractLsb'_toNat]
  have h0 : shiftCount n = 0 ↔ n.toNat % 128 = 0 := by rw [← hc]; exact BitVec.toNat_eq (y := 0#7)
  simp only [shiftLast, h0]
  split
  · rfl
  · apply BitVec.eq_of_toNat_eq; rw [BitVec.toNat_sub, hc, BitVec.toNat_ofNat]; simp; omega

/-- The shift count is 0 (R83). -/
theorem shiftCount_zero (n : Address) : shiftCount n = 0 ↔ n.toNat % 128 = 0 := by
  have hc : (shiftCount n).toNat = n.toNat % 128 := by simp [shiftCount, BitVec.extractLsb'_toNat]
  rw [← hc]; exact BitVec.toNat_eq (y := 0#7)

/-- One beat of a shift (R191): nothing is shifted with a count of 0, else one place. -/
theorem shiftBeat_eq {s : State} (n : Address) (clearAr : Bool) (place : Word → Word → Shifted) (hs : s.Executing) :
    shiftBeat n clearAr place s =
      let ar := if clearAr && !s.longFn then 0 else s.ar
      let p := place s.acc ar
      State.afterBeat (if n.toNat % 128 = 0 then { s with ar := ar } else
        { s with acc := p.acc, ar := p.ar, oflow := s.oflow || p.ov }) n (s.memRead n) (shiftLast n) := by
  unfold shiftBeat
  rw [sequencedBeat_eq n _ _ _ hs]
  · simp only [shiftCount_zero]
    by_cases hz : n.toNat % 128 = 0 <;> by_cases hc : (clearAr && !s.longFn) = true <;> simp only [hz, hc, if_true, if_false] <;> rfl
  · simp only [shiftCount_zero]
    by_cases hz : n.toNat % 128 = 0 <;> by_cases hc : (clearAr && !s.longFn) = true <;> simp only [hz, hc, if_true, if_false] <;> rfl

/-- One beat of a long function (R309): the result is committed on the last beat, and only there. -/
theorem longBeat_eq {s : State} (n : Address) (k : BitVec 7) (latch : Bool) (commit : State → State) (hs : s.Executing)
    (hk : HandlerKeeps (s.begun n (fun _ => k) latch).workScratch (commit (s.begun n (fun _ => k) latch).workScratch)) :
    longBeat n k latch commit s =
      let u := (s.begun n (fun _ => k) latch).workScratch
      let r := if s.nextT k = 0 then commit u else u
      State.afterBeat { s with
        acc := r.acc, ar := r.ar, oflow := r.oflow, fpo := r.fpo, stopped := r.stopped, scratch := r.scratch, draws := r.draws
        mreg := if latch && !s.longFn then s.memRead n else s.mreg } n (s.memRead n) k := by
  have hl : (!(s.begun n (fun _ => k) latch).longFn) = decide (s.nextT k = 0) := by
    simp only [State.begun, State.sequence_longFn, State.clearOnRead_longFn, State.clearOnRead_t, State.nextT]
    rw [Bool.eq_iff_iff]; simp; exact Iff.rfl
  unfold longBeat
  rw [sequencedBeat_eq n _ _ _ hs]
  · rw [hl]; by_cases h0 : s.nextT k = 0 <;> simp only [h0, decide_true, decide_false, if_true, if_false, Bool.false_eq_true]
  · rw [hl]; by_cases h0 : s.nextT k = 0 <;> simp only [h0, decide_true, decide_false, if_true, if_false, Bool.false_eq_true]
    · have := hk; simp only [HandlerKeeps] at this ⊢; exact this
    · rfl

/-- The last beat is the one that leaves `T` at 0 (R308). -/
theorem lastBeat_iff (s : State) (k : BitVec 7) : s.lastBeat k ↔ s.nextT k = 0 := by
  unfold State.lastBeat State.nextT
  split
  · constructor <;> intro h
    · rw [h]; rfl
    · have : s.t - 1 + 1 = 0 + 1 := by rw [h]
      simpa using this
  · rfl

end Sys2Proof.Machine
end

