-- ==== Sys2Proof/Laws/Exec.lean ====
section
/-! SUPPORT. What an instruction can do, said once: a jump, a beat through `Sequence`, or a beat outside it. -/

namespace Sys2Proof.Machine

open Sys2Proof

/-- What every sequenced handler keeps (R309): the frame, `AR[38]` 0, and the flags that only ever rise. -/
structure SequencedKeeps (u t : State) : Prop where
  frame : HandlerKeeps u t
  arSign : u.ar.getLsbD 38 = false → t.ar.getLsbD 38 = false
  oflow : u.oflow = true → t.oflow = true
  stopped : u.stopped = true → t.stopped = true
  fpo : u.fpo = true → t.fpo = true
  fpoStops : u.fpo = false → t.fpo = true → t.stopped = true

/-- A handler that writes only `ACC`, `AR`, `OFLOW`. -/
theorem sequencedKeeps_of_acc {u t : State} (a r : Word) (o : Bool)
    (h : t = { u with acc := a, ar := r, oflow := o }) (hr : u.ar.getLsbD 38 = false → r.getLsbD 38 = false)
    (ho : u.oflow = true → o = true) : SequencedKeeps u t := by
  subst h
  exact ⟨rfl, hr, ho, id, id, fun h1 h2 => absurd (h1.symm.trans h2) (by decide)⟩

theorem sequencedKeeps_refl (u : State) : SequencedKeeps u u :=
  ⟨rfl, id, id, id, id, fun h1 h2 => absurd (h1.symm.trans h2) (by decide)⟩

/-- Nothing of a beat's frame is lost when the scratch registers are worked first. -/
theorem sequencedKeeps_work {u t : State} (h : SequencedKeeps u.workScratch t) : SequencedKeeps u t := by
  obtain ⟨h1, h2, h3, h4, h5, h6⟩ := h
  refine ⟨?_, h2, h3, h4, h5, h6⟩
  simp only [HandlerKeeps] at h1 ⊢
  exact h1

theorem dlpair_ar_sign (v : Int) : (dlpair v).2.getLsbD 38 = false := by
  have h : ((dlpair v).2).toNat < 2 ^ 38 := by
    simp only [dlpair, word, BitVec.toNat_ofInt]
    omega
  simp only [← BitVec.testBit_toNat]
  exact Nat.testBit_lt_two_pow h

theorem floatOverflow_keeps (u : State) : SequencedKeeps u u.floatOverflow :=
  ⟨rfl, fun _ => by simp [State.floatOverflow], id, fun _ => rfl, fun _ => rfl, fun _ _ => rfl⟩

theorem floatResult_keeps (u : State) (r : Option Word) : SequencedKeeps u (u.floatResult r) := by
  cases r with
  | none => exact floatOverflow_keeps u
  | some w => exact sequencedKeeps_of_acc w 0 u.oflow rfl (fun _ => by simp) id

/-- The commit of functions 60 to 64 (R230, R231, R236, U7). -/
theorem commitFloat_keeps (u : State) (op : FpOp) (a b : Word) : SequencedKeeps u (u.commitFloat op a b) := by
  unfold State.commitFloat State.floatZeroMantissa State.floatUnspecified
  split
  · dsimp only
    split
    · exact ⟨rfl, fun _ => by simp, id, fun _ => rfl, fun _ => rfl, fun _ _ => rfl⟩
    · exact ⟨rfl, fun _ => by simp, id, id, id, fun h1 h2 => absurd (h1.symm.trans h2) (by decide)⟩
  · split
    · exact floatResult_keeps u _
    · split
      · exact floatOverflow_keeps u
      · exact ⟨rfl, fun _ => by simp, id, id, id, fun h1 h2 => absurd (h1.symm.trans h2) (by decide)⟩

theorem commitMultiply_keeps (u : State) : SequencedKeeps u u.commitMultiply :=
  sequencedKeeps_of_acc _ _ _ rfl (fun _ => dlpair_ar_sign _) (fun h => by simp [h])

theorem commitRoundedMultiply_keeps (u : State) : SequencedKeeps u u.commitRoundedMultiply :=
  sequencedKeeps_of_acc _ 0 _ rfl (fun _ => by simp) (fun h => by simp [h])

theorem commitDivide_keeps (u : State) : SequencedKeeps u u.commitDivide := by
  unfold State.commitDivide
  dsimp only
  split
  · exact ⟨rfl, fun _ => by simp, fun _ => rfl, id, id, fun h1 h2 => absurd (h1.symm.trans h2) (by decide)⟩
  · exact sequencedKeeps_of_acc _ 0 _ rfl (fun _ => by simp) (fun h => by simp [h])

theorem divideWork_keeps (u : State) (first last : Bool) (w : Word) : SequencedKeeps u (u.divideWork first last w) := by
  unfold State.divideWork
  split
  · exact ⟨rfl, id, id, fun _ => rfl, fun _ => rfl, fun _ _ => rfl⟩
  · split
    · exact sequencedKeeps_work (commitFloat_keeps _ _ _ _)
    · exact sequencedKeeps_work (sequencedKeeps_refl _)

/-- The double-length shifts leave `AR[38]` 0, the single-length ones leave `AR`. -/
def PlaceKeepsArSign (place : Word → Word → Shifted) : Prop :=
  ∀ a r, r.getLsbD 38 = false → (place a r).ar.getLsbD 38 = false

theorem shiftPlaces_keep_arSign : PlaceKeepsArSign shiftRightDouble ∧ PlaceKeepsArSign shiftRightSingle ∧
    PlaceKeepsArSign shiftLeftDouble ∧ PlaceKeepsArSign shiftLeftSingle := by
  refine ⟨?_, fun _ _ h => h, ?_, fun _ _ h => h⟩
  · intro a r _
    simp only [shiftRightDouble]
    erw [BitVec.getLsbD_append, BitVec.getLsbD_append]
    simp
  · intro a r _
    simp only [shiftLeftDouble]
    erw [BitVec.getLsbD_append, BitVec.getLsbD_append]
    simp

/-- The three shapes of an instruction's effect: a jump writes `SCR`, `M` and `OFLOW` alone (R170); a beat through `Sequence` (R308); a beat
of 70, 71, 72, 74, 75, 76 (R307). -/
inductive ExecCase (i : Instr) (s : State) : Prop where
  | jump (scr : BitVec 14) (m o : Bool) (hj : i.isJump = true)
      (he : exec i s = .next { s with scr := scr, modPending := m, oflow := o })
      (ho : o = s.oflow ∨ (o = false ∧ (i.code = 35#6 ∨ i.code = 39#6))) (hm : m = true → s.modPending = true)
  | sequenced (k : Word → BitVec 7) (latch : Bool) (u : State) (w : Word) (hj : i.isJump = false)
      (hs : stallFunction (encode i) = false) (hu : SequencedKeeps (s.begun i.address k latch) u)
      (he : exec i s = .next (u.finish i.address w))
  | io (u : State) (hj : i.isJump = false) (hs : stallFunction (encode i) = true)
      (hu : IoKeeps { s.clearOnRead i.address with lastWt := false } u)
      (he : exec i s = .next (u.finish i.address (s.memRead i.address)))

/-- A beat of the arithmetic groups (R131). -/
theorem arithBeat_cases (n : Address) (f : Word → Word → Routed) (s : State) :
    ∃ u w, SequencedKeeps (s.begun n (fun _ => 0) false) u ∧ arithBeat n f s = u.finish n w :=
  ⟨_, _, sequencedKeeps_of_acc _ (s.begun n (fun _ => 0) false).ar _ rfl id (fun h => Bool.or_eq_true_iff.mpr (Or.inl h)), rfl⟩

/-- A beat of a shift (R191). -/
theorem shiftBeat_cases (n : Address) (clearAr : Bool) {place : Word → Word → Shifted} (hp : PlaceKeepsArSign place) (s : State) :
    ∃ u w, SequencedKeeps (s.begun n (fun _ => shiftLast n) false) u ∧ shiftBeat n clearAr place s = u.finish n w := by
  refine ⟨_, _, ?_, rfl⟩
  dsimp only
  change SequencedKeeps (s.begun n (fun _ => shiftLast n) false) _
  generalize hu : (if (clearAr && !s.longFn) = true then
    { s.begun n (fun _ => shiftLast n) false with ar := 0 } else s.begun n (fun _ => shiftLast n) false) = u
  have hu' : u = { s.begun n (fun _ => shiftLast n) false with
      ar := if (clearAr && !s.longFn) = true then 0 else (s.begun n (fun _ => shiftLast n) false).ar } := by
    subst hu
    split <;> rfl
  have har : (s.begun n (fun _ => shiftLast n) false).ar.getLsbD 38 = false → u.ar.getLsbD 38 = false := by
    intro h
    rw [hu']
    dsimp only
    split
    · simp
    · exact h
  by_cases hc : shiftCount n = 0
  · refine sequencedKeeps_of_acc u.acc u.ar u.oflow ?_ har ?_
    · simp only [hc, if_true]
      exact hu.trans (by rw [hu'])
    · rw [hu']
      exact id
  · refine sequencedKeeps_of_acc (place u.acc u.ar).acc (place u.acc u.ar).ar (u.oflow || (place u.acc u.ar).ov) ?_
      (fun h => hp _ _ (har h)) ?_
    · simp only [hc, if_false]
      refine (congrArg (State.shiftPlace · place) hu).trans ?_
      rw [hu']
      rfl
    · rw [hu']
      intro h
      exact Bool.or_eq_true_iff.mpr (Or.inl h)

/-- A beat of a long function (R309). -/
theorem longBeat_cases (n : Address) (k : BitVec 7) (latch : Bool) {commit : State → State}
    (hc : ∀ u, SequencedKeeps u (commit u)) (s : State) :
    ∃ u w, SequencedKeeps (s.begun n (fun _ => k) latch) u ∧ longBeat n k latch commit s = u.finish n w := by
  refine ⟨_, _, ?_, rfl⟩
  dsimp only
  split
  · exact sequencedKeeps_work (hc _)
  · exact sequencedKeeps_work (sequencedKeeps_refl _)

theorem stallFunction_encode (i : Instr) :
    stallFunction (encode i) =
      (i.code == 56#6 || i.code == 57#6 || i.code == 58#6 || i.code == 60#6 || i.code == 61#6 || i.code == 62#6) := by
  simp only [stallFunction, encode, fnField_append]

/-- The jumps by function code (R85). -/
theorem isJump_eq (i : Instr) : i.isJump = decide (32 ≤ i.code.toNat ∧ i.code.toNat ≤ 39) := by
  have h : ∀ c : FnCode, (fnGroup c == 4#3) = decide (32 ≤ c.toNat ∧ c.toNat ≤ 39) := by decide
  exact h i.code

/-- A jump's write of `SCR`, `M` and, for 43 and 47, `OFLOW` (R170, R171, R176). -/
theorem jump_case {i : Instr} {s : State} {c : Bool} {n : Address} {half : Bool} (hj : i.isJump = true)
    (he : exec i s = .next (s.jump c n half)) : ExecCase i s :=
  .jump _ _ s.oflow hj he (Or.inl rfl) (by cases c <;> simp)

theorem jumpOverflow_case {i : Instr} {s : State} {n : Address} {half : Bool} (hj : i.isJump = true)
    (hc : i.code = 35#6 ∨ i.code = 39#6) (he : exec i s = .next (s.jumpOverflow n half)) : ExecCase i s :=
  .jump _ _ false hj he (Or.inr ⟨rfl, hc⟩) (by cases s.oflow <;> simp)

theorem sequenced_case {i : Instr} {s t : State} {k : Word → BitVec 7} {latch : Bool} (hj : i.isJump = false)
    (hs : stallFunction (encode i) = false) (he : exec i s = .next t)
    (h : ∃ u w, SequencedKeeps (s.begun i.address k latch) u ∧ t = u.finish i.address w) : ExecCase i s := by
  obtain ⟨u, w, hu, rfl⟩ := h
  exact .sequenced k latch u w hj hs hu he

theorem arith_case {i : Instr} {s : State} {f : Word → Word → Routed} (hj : i.isJump = false) (hs : stallFunction (encode i) = false)
    (he : exec i s = .next (arithBeat i.address f s)) : ExecCase i s :=
  sequenced_case hj hs he (arithBeat_cases _ _ _)

theorem shift_case {i : Instr} {s : State} {c : Bool} {place : Word → Word → Shifted} (hj : i.isJump = false)
    (hs : stallFunction (encode i) = false) (hp : PlaceKeepsArSign place)
    (he : exec i s = .next (shiftBeat i.address c place s)) : ExecCase i s :=
  sequenced_case hj hs he (shiftBeat_cases _ _ hp _)

theorem long_case {i : Instr} {s : State} {k : BitVec 7} {latch : Bool} {commit : State → State} (hj : i.isJump = false)
    (hs : stallFunction (encode i) = false) (hc : ∀ u, SequencedKeeps u (commit u))
    (he : exec i s = .next (longBeat i.address k latch commit s)) : ExecCase i s :=
  sequenced_case hj hs he (longBeat_cases _ _ _ hc _)

theorem plain_case {i : Instr} {s : State} {h : State → State} (hj : i.isJump = false) (hs : stallFunction (encode i) = false)
    (hh : ∀ u, SequencedKeeps u (h u)) (he : exec i s = .next (plainBeat i.address h s)) : ExecCase i s :=
  sequenced_case (k := fun _ => 0) (latch := false) hj hs he ⟨_, _, hh _, rfl⟩

theorem io_case {i : Instr} {s : State} {h : State → State} (hj : i.isJump = false) (hs : stallFunction (encode i) = true)
    (hh : ∀ u, IoKeeps u (h u)) (he : exec i s = .next (ioBeat i.address h s)) : ExecCase i s :=
  .io _ hj hs (hh _) he

theorem readGenerator_keeps (u : State) : IoKeeps u u.readGenerator := by
  unfold State.readGenerator
  split <;> rfl

theorem transfer_keeps {u : State} (o : Outputs) (f : State → State) (hf : ∀ u, IoKeeps u (f u)) : IoKeeps u (u.transfer o f) := by
  unfold State.transfer
  have h := hf u
  unfold IoKeeps at *
  split
  · dsimp only
    rw [h]
  · rfl

/-- Every instruction has one of the three shapes. -/
theorem exec_cases (i : Instr) (s : State) : ExecCase i s := by
  have hst := stallFunction_encode i
  have hj := isJump_eq i
  cases i
  case fn40 | fn41 | fn42 | fn44 | fn45 | fn46 => exact jump_case hj rfl
  case fn43 | fn47 => exact jumpOverflow_case hj (by first | exact Or.inl rfl | exact Or.inr rfl) rfl
  case fn50 => exact shift_case hj hst shiftPlaces_keep_arSign.1 rfl
  case fn51 => exact shift_case hj hst shiftPlaces_keep_arSign.2.1 rfl
  case fn54 => exact shift_case hj hst shiftPlaces_keep_arSign.2.2.1 rfl
  case fn55 => exact shift_case hj hst shiftPlaces_keep_arSign.2.2.2 rfl
  case fn52 => exact long_case hj hst commitMultiply_keeps rfl
  case fn53 => exact long_case hj hst commitRoundedMultiply_keeps rfl
  case fn56 => exact long_case hj hst commitDivide_keeps rfl
  case fn57 => exact plain_case hj hst (fun u => sequencedKeeps_of_acc _ u.ar u.oflow rfl id id) rfl
  case fn60 | fn61 | fn62 | fn63 => exact long_case hj hst (fun u => commitFloat_keeps u _ _ _) rfl
  case fn64 => exact sequenced_case hj hst rfl ⟨_, _, divideWork_keeps _ _ _ _, rfl⟩
  case fn65Shift => exact plain_case hj hst (fun u => sequencedKeeps_of_acc _ 0 u.oflow rfl (fun _ => by simp) id) rfl
  case fn65Std => exact long_case hj hst (fun u => floatResult_keeps u _) rfl
  case fn66 | fn67 => exact plain_case hj hst sequencedKeeps_refl rfl
  case fn70 => exact io_case hj hst readGenerator_keeps rfl
  case fn71 =>
    exact io_case hj hst
      (h := fun s => s.transfer _ (fun s => { s with acc := _ })) (fun _ => transfer_keeps _ _ (fun _ => by rfl)) rfl
  case fn72 | fn74 =>
    exact io_case hj hst
      (h := fun s => s.transfer _ (fun s => s)) (fun _ => transfer_keeps _ _ (fun _ => by rfl)) rfl
  case fn75 | fn76 => exact io_case hj hst (h := fun s => { s with busy := true }) (fun _ => by rfl) rfl
  case fn73 => exact .sequenced (fun _ => 0) false _ _ hj hst (sequencedKeeps_refl _) rfl
  case fn77 => exact .sequenced (fun _ => 1) false _ _ hj hst (sequencedKeeps_refl _) rfl
  all_goals exact arith_case hj hst rfl

end Sys2Proof.Machine
end

