-- ==== Sys2Proof/Laws/FloatNum.lean ====
section
/-! SUPPORT. The normalising shift of the reference rounding (R224), in rational numbers. -/

namespace Sys2Proof.Machine

open Sys2Proof

/-- The exact result's significand scaled by 2^k, as a rational. -/
def Exact.significand (v : Exact) (k : ℤ) : ℚ := (v.num : ℚ) / (v.den : ℚ) * (2 : ℚ) ^ k

/-- The range of a normalised mantissa (R222). -/
def NormalRange (x : ℚ) : Prop := (2 ^ 28 ≤ x ∧ x < 2 ^ 29) ∨ (-2 ^ 29 ≤ x ∧ x < -2 ^ 28)

theorem Exact.scaled_spec (v : Exact) (k : ℤ) (hd : v.den ≠ 0) :
    (v.scaled k).2 ≠ 0 ∧ (((v.scaled k).1 : ℤ) : ℚ) / (((v.scaled k).2 : ℕ) : ℚ) = v.significand k := by
  unfold Exact.scaled Exact.significand
  split
  · rename_i h
    refine ⟨hd, ?_⟩
    obtain ⟨j, rfl⟩ := Int.eq_ofNat_of_zero_le h
    simp only [Int.toNat_natCast]
    push_cast
    rw [zpow_natCast]
    ring
  · rename_i h
    obtain ⟨j, hj⟩ := Int.eq_ofNat_of_zero_le (show 0 ≤ -k by omega)
    obtain rfl : k = -(j : ℤ) := by omega
    have h2 : (- -(j : ℤ)).toNat = j := by omega
    rw [h2]
    refine ⟨by positivity, ?_⟩
    push_cast
    rw [zpow_neg, zpow_natCast]
    field_simp

theorem Exact.floorAt_eq (v : Exact) (k : ℤ) (hd : v.den ≠ 0) : v.floorAt k = ⌊v.significand k⌋ := by
  rw [← (v.scaled_spec k hd).2, Exact.floorAt, Rat.floor_intCast_div_natCast]

theorem Exact.integralAt_eq (v : Exact) (k : ℤ) (hd : v.den ≠ 0) :
    v.integralAt k = true ↔ ((⌊v.significand k⌋ : ℤ) : ℚ) = v.significand k := by
  obtain ⟨h1, h2⟩ := v.scaled_spec k hd
  rw [← v.floorAt_eq k hd, ← h2]
  unfold Exact.integralAt Exact.floorAt
  generalize (v.scaled k).1 = a at *
  generalize (v.scaled k).2 = d at *
  have hq : (d : ℚ) ≠ 0 := by exact_mod_cast h1
  have hm := Int.mul_ediv_add_emod a d
  rw [beq_iff_eq, eq_div_iff hq]
  constructor
  · intro h
    have : a / (d : ℤ) * d = a := by linarith
    exact_mod_cast this
  · intro h
    have : a / (d : ℤ) * d = a := by exact_mod_cast h
    linarith

theorem normalised_floor (x : ℚ) : normalised ⌊x⌋ = true ↔ NormalRange x := by
  simp only [normalised, Bool.or_eq_true, Bool.and_eq_true, decide_eq_true_eq, NormalRange, Int.le_floor, Int.floor_lt]
  norm_num

theorem Exact.significand_succ (v : Exact) (k : ℤ) : v.significand (k + 1) = 2 * v.significand k := by
  unfold Exact.significand
  rw [zpow_add_one₀ (by norm_num)]
  ring

/-- The shift `normShift` normalises every exact result but 0. -/
theorem Exact.normShift_spec (v : Exact) (hn : v.num ≠ 0) (hd : v.den ≠ 0) : NormalRange (v.significand v.normShift) := by
  unfold Exact.normShift
  dsimp only
  generalize hk : (28 - ((v.num.natAbs.log2 : ℤ) - (v.den.log2 : ℤ))) = k
  rw [v.floorAt_eq k hd]
  by_cases h : normalised ⌊v.significand k⌋ = true
  · rw [if_pos h]
    exact (normalised_floor _).1 h
  · rw [if_neg h, v.significand_succ]
    rw [normalised_floor] at h
    have n1 := Nat.log2_self_le (show v.num.natAbs ≠ 0 by omega)
    have n2 : v.num.natAbs < 2 ^ (v.num.natAbs.log2 + 1) := Nat.lt_log2_self
    have d1 := Nat.log2_self_le hd
    have d2 : v.den < 2 ^ (v.den.log2 + 1) := Nat.lt_log2_self
    generalize v.num.natAbs.log2 = a at *
    generalize v.den.log2 = d at *
    have habs : |v.significand k| = (v.num.natAbs : ℚ) / v.den * 2 ^ k := by
      unfold Exact.significand
      rw [abs_mul, abs_div, abs_of_pos (show (0 : ℚ) < 2 ^ k by positivity), Nat.abs_cast, Nat.cast_natAbs]
      push_cast
      rfl
    have hdq : (0 : ℚ) < v.den := by exact_mod_cast Nat.pos_of_ne_zero hd
    have n1q : (2 : ℚ) ^ a ≤ v.num.natAbs := by exact_mod_cast n1
    have n2q : (v.num.natAbs : ℚ) < 2 ^ (a + 1) := by exact_mod_cast n2
    have d1q : (2 : ℚ) ^ d ≤ v.den := by exact_mod_cast d1
    have d2q : (v.den : ℚ) < 2 ^ (d + 1) := by exact_mod_cast d2
    have hkz : (2 : ℚ) ^ k = 2 ^ 28 * 2 ^ d / 2 ^ a := by
      rw [← hk, show (28 - ((a : ℤ) - d)) = 28 + d - a by ring, zpow_sub₀ (by norm_num), zpow_add₀ (by norm_num)]
      norm_cast
    have hlo : 2 ^ 27 < |v.significand k| := by
      rw [habs, hkz]
      have hq : (v.num.natAbs : ℚ) / v.den > 2 ^ a / 2 ^ (d + 1) := by
        rw [gt_iff_lt, div_lt_div_iff₀ (by positivity) hdq]
        calc (2 : ℚ) ^ a * v.den < 2 ^ a * 2 ^ (d + 1) := mul_lt_mul_of_pos_left d2q (by positivity)
          _ ≤ v.num.natAbs * 2 ^ (d + 1) := mul_le_mul_of_nonneg_right n1q (by positivity)
      calc (2 : ℚ) ^ 27 = 2 ^ a / 2 ^ (d + 1) * (2 ^ 28 * 2 ^ d / 2 ^ a) := by
            field_simp
            norm_num [pow_succ]
            ring
        _ < _ := mul_lt_mul_of_pos_right hq (by positivity)
    have hhi : |v.significand k| < 2 ^ 29 := by
      rw [habs, hkz]
      have hq : (v.num.natAbs : ℚ) / v.den < 2 ^ (a + 1) / 2 ^ d := by
        rw [div_lt_div_iff₀ hdq (by positivity)]
        calc (v.num.natAbs : ℚ) * 2 ^ d < 2 ^ (a + 1) * 2 ^ d := mul_lt_mul_of_pos_right n2q (by positivity)
          _ ≤ 2 ^ (a + 1) * v.den := mul_le_mul_of_nonneg_left d1q (by positivity)
      calc _ < (2 : ℚ) ^ (a + 1) / 2 ^ d * (2 ^ 28 * 2 ^ d / 2 ^ a) := mul_lt_mul_of_pos_right hq (by positivity)
        _ = 2 ^ 29 := by
            field_simp
            ring
    generalize v.significand k = x at *
    unfold NormalRange at *
    rcases le_or_gt 0 x with hx | hx
    · rw [abs_of_nonneg hx] at hlo hhi
      push Not at h
      have h1 := h.1
      refine Or.inl ⟨by linarith, ?_⟩
      by_contra hc
      have := h1 (by linarith)
      linarith
    · rw [abs_of_neg hx] at hlo hhi
      push Not at h
      have h1 := h.2 (by linarith)
      exact Or.inr ⟨by linarith, by linarith⟩

/-- No other power of two normalises. -/
theorem NormalRange_unique {x : ℚ} {j : ℤ} (h1 : NormalRange x) (h2 : NormalRange (x * 2 ^ j)) : j = 0 := by
  unfold NormalRange at *
  have hp : ∀ i : ℤ, 1 ≤ i → (2 : ℚ) ≤ 2 ^ i := fun i hi => by
    calc (2 : ℚ) = 2 ^ (1 : ℤ) := by norm_num
      _ ≤ 2 ^ i := zpow_le_zpow_right₀ (by norm_num) hi
  rcases lt_trichotomy j 0 with hj | hj | hj
  · exfalso
    have h := hp (-j) (by omega)
    have h0 : (0 : ℚ) < 2 ^ j := by positivity
    have hh : (2 : ℚ) ^ j * 2 ^ (-j) = 1 := by
      rw [← zpow_add₀ (by norm_num)]
      simp
    have hhalf : (2 : ℚ) ^ j ≤ 1 / 2 := by nlinarith
    rcases h1 with h1 | h1 <;> rcases h2 with h2 | h2 <;> nlinarith
  · exact hj
  · exfalso
    have h := hp j (by omega)
    rcases h1 with h1 | h1 <;> rcases h2 with h2 | h2 <;> nlinarith

/-- A word is in standard form when it is zero or its mantissa is normalised (R222). -/
theorem fpStandard_iff (w : Word) : fpStandard w = true ↔ w = 0 ∨ normalised (fpMant w) = true := by
  have := w.isLt
  simp only [fpStandard, Bool.or_eq_true, beq_iff_eq]
  refine or_congr Iff.rfl ?_
  rw [fpMant_eq, signed_eq]
  simp only [← BitVec.testBit_toNat, Nat.testBit_eq_decide_div_mod_eq, normalised, bne_iff_ne, ne_eq, decide_eq_decide,
    Bool.or_eq_true, Bool.and_eq_true, decide_eq_true_eq]
  split <;> omega

end Sys2Proof.Machine
end

