-- ==== Sys2Proof/Laws/PerInstr.lean ====
section
/-! SUPPORT. One lemma per instruction: a term is well-formed exactly when its encoding lies in its row of the opcode table. -/

namespace Sys2Proof.Laws

open Sys2Proof Sys2Proof.Machine

/-- The fixed bits of an instruction's row (R94, R95): the function code, and bit 12 of `N` for the two rows of 65. -/
def rowMask (i : Instr) : InstrBits :=
  match i with
  | .fn65Shift _ => 0b1111111000000000000#19
  | .fn65Std _ => 0b1111111000000000000#19
  | _ => 0b1111110000000000000#19

/-- The value of the fixed bits, as the table writes them (R86, R95). -/
def rowMatch : Instr → InstrBits
  | .fn00 _ => 0b0000000000000000000#19
  | .fn01 _ => 0b0000010000000000000#19
  | .fn02 _ => 0b0000100000000000000#19
  | .fn03 _ => 0b0000110000000000000#19
  | .fn04 _ => 0b0001000000000000000#19
  | .fn05 _ => 0b0001010000000000000#19
  | .fn06 _ => 0b0001100000000000000#19
  | .fn07 _ => 0b0001110000000000000#19
  | .fn10 _ => 0b0010000000000000000#19
  | .fn11 _ => 0b0010010000000000000#19
  | .fn12 _ => 0b0010100000000000000#19
  | .fn13 _ => 0b0010110000000000000#19
  | .fn14 _ => 0b0011000000000000000#19
  | .fn15 _ => 0b0011010000000000000#19
  | .fn16 _ => 0b0011100000000000000#19
  | .fn17 _ => 0b0011110000000000000#19
  | .fn20 _ => 0b0100000000000000000#19
  | .fn21 _ => 0b0100010000000000000#19
  | .fn22 _ => 0b0100100000000000000#19
  | .fn23 _ => 0b0100110000000000000#19
  | .fn24 _ => 0b0101000000000000000#19
  | .fn25 _ => 0b0101010000000000000#19
  | .fn26 _ => 0b0101100000000000000#19
  | .fn27 _ => 0b0101110000000000000#19
  | .fn30 _ => 0b0110000000000000000#19
  | .fn31 _ => 0b0110010000000000000#19
  | .fn32 _ => 0b0110100000000000000#19
  | .fn33 _ => 0b0110110000000000000#19
  | .fn34 _ => 0b0111000000000000000#19
  | .fn35 _ => 0b0111010000000000000#19
  | .fn36 _ => 0b0111100000000000000#19
  | .fn37 _ => 0b0111110000000000000#19
  | .fn40 _ => 0b1000000000000000000#19
  | .fn41 _ => 0b1000010000000000000#19
  | .fn42 _ => 0b1000100000000000000#19
  | .fn43 _ => 0b1000110000000000000#19
  | .fn44 _ => 0b1001000000000000000#19
  | .fn45 _ => 0b1001010000000000000#19
  | .fn46 _ => 0b1001100000000000000#19
  | .fn47 _ => 0b1001110000000000000#19
  | .fn50 _ => 0b1010000000000000000#19
  | .fn51 _ => 0b1010010000000000000#19
  | .fn52 _ => 0b1010100000000000000#19
  | .fn53 _ => 0b1010110000000000000#19
  | .fn54 _ => 0b1011000000000000000#19
  | .fn55 _ => 0b1011010000000000000#19
  | .fn56 _ => 0b1011100000000000000#19
  | .fn57 _ => 0b1011110000000000000#19
  | .fn60 _ => 0b1100000000000000000#19
  | .fn61 _ => 0b1100010000000000000#19
  | .fn62 _ => 0b1100100000000000000#19
  | .fn63 _ => 0b1100110000000000000#19
  | .fn64 _ => 0b1101000000000000000#19
  | .fn65Shift _ => 0b1101010000000000000#19
  | .fn65Std _ => 0b1101011000000000000#19
  | .fn66 _ => 0b1101100000000000000#19
  | .fn67 _ => 0b1101110000000000000#19
  | .fn70 _ => 0b1110000000000000000#19
  | .fn71 _ => 0b1110010000000000000#19
  | .fn72 _ => 0b1110100000000000000#19
  | .fn73 _ => 0b1110110000000000000#19
  | .fn74 _ => 0b1111000000000000000#19
  | .fn75 _ => 0b1111010000000000000#19
  | .fn76 _ => 0b1111100000000000000#19
  | .fn77 _ => 0b1111110000000000000#19

/-- The term is well-formed exactly when the fixed bits of its encoding are those of its row. -/
def EncodesRow.Statement (i : Instr) : Prop := i.wellFormed = true ↔ encode i &&& rowMask i = rowMatch i

theorem and_functionMask (c : FnCode) (n : Address) : (c ++ n : BitVec (6 + 13)) &&& 0b1111110000000000000#19 = c ++ 0#13 := by
  have h : (0b1111110000000000000#19 : BitVec (6 + 13)) = 63#6 ++ 0#13 := by decide
  have hc : ∀ c : FnCode, c &&& 63#6 = c := by decide
  refine (congrArg (fun m => (c ++ n : BitVec (6 + 13)) &&& m) h).trans ?_
  rw [BitVec.and_append, hc, BitVec.and_zero]

theorem and_functionMask12 (c : FnCode) (n : Address) :
    (c ++ n : BitVec (6 + 13)) &&& 0b1111111000000000000#19 = c ++ (n &&& 4096#13) := by
  have h : (0b1111111000000000000#19 : BitVec (6 + 13)) = 63#6 ++ 4096#13 := by decide
  have hc : ∀ c : FnCode, c &&& 63#6 = c := by decide
  refine (congrArg (fun m => (c ++ n : BitVec (6 + 13)) &&& m) h).trans ?_
  rw [BitVec.and_append, hc]

theorem and_bit12 (n : Address) : n &&& 4096#13 = if n.getLsbD 12 then 4096#13 else 0#13 := by
  have h : 4096#13 = BitVec.twoPow 13 12 := by decide
  rw [h, BitVec.and_twoPow]

/-- The rows that fix the function code alone. -/
theorem row_of {i : Instr} {m : InstrBits} (c : FnCode) (n : Address) (hw : i.wellFormed = true)
    (he : encode i &&& rowMask i = (c ++ n : BitVec (6 + 13)) &&& 0b1111110000000000000#19) (hm : rowMatch i = m)
    (h : (c ++ 0#13 : BitVec (6 + 13)) = m) : EncodesRow.Statement i :=
  ⟨fun _ => he.trans ((and_functionMask c n).trans (h.trans hm.symm)), fun _ => hw⟩

/-- The two rows of 65 (R239, R240). -/
theorem row65 (n : Address) (b : Bool) :
    (n.getLsbD 12 = b) ↔ (53#6 ++ (n &&& 4096#13) : BitVec (6 + 13)) = 53#6 ++ (if b then 4096#13 else 0#13) := by
  rw [and_bit12]
  cases n.getLsbD 12 <;> cases b <;> decide

theorem EncodesRow.fn00 (n : Address) : EncodesRow.Statement (.fn00 n) :=
  row_of (m := 0b0000000000000000000#19) 0#6 n rfl rfl rfl (by decide)

theorem EncodesRow.fn01 (n : Address) : EncodesRow.Statement (.fn01 n) :=
  row_of (m := 0b0000010000000000000#19) 1#6 n rfl rfl rfl (by decide)

theorem EncodesRow.fn02 (n : Address) : EncodesRow.Statement (.fn02 n) :=
  row_of (m := 0b0000100000000000000#19) 2#6 n rfl rfl rfl (by decide)

theorem EncodesRow.fn03 (n : Address) : EncodesRow.Statement (.fn03 n) :=
  row_of (m := 0b0000110000000000000#19) 3#6 n rfl rfl rfl (by decide)

theorem EncodesRow.fn04 (n : Address) : EncodesRow.Statement (.fn04 n) :=
  row_of (m := 0b0001000000000000000#19) 4#6 n rfl rfl rfl (by decide)

theorem EncodesRow.fn05 (n : Address) : EncodesRow.Statement (.fn05 n) :=
  row_of (m := 0b0001010000000000000#19) 5#6 n rfl rfl rfl (by decide)

theorem EncodesRow.fn06 (n : Address) : EncodesRow.Statement (.fn06 n) :=
  row_of (m := 0b0001100000000000000#19) 6#6 n rfl rfl rfl (by decide)

theorem EncodesRow.fn07 (n : Address) : EncodesRow.Statement (.fn07 n) :=
  row_of (m := 0b0001110000000000000#19) 7#6 n rfl rfl rfl (by decide)

theorem EncodesRow.fn10 (n : Address) : EncodesRow.Statement (.fn10 n) :=
  row_of (m := 0b0010000000000000000#19) 8#6 n rfl rfl rfl (by decide)

theorem EncodesRow.fn11 (n : Address) : EncodesRow.Statement (.fn11 n) :=
  row_of (m := 0b0010010000000000000#19) 9#6 n rfl rfl rfl (by decide)

theorem EncodesRow.fn12 (n : Address) : EncodesRow.Statement (.fn12 n) :=
  row_of (m := 0b0010100000000000000#19) 10#6 n rfl rfl rfl (by decide)

theorem EncodesRow.fn13 (n : Address) : EncodesRow.Statement (.fn13 n) :=
  row_of (m := 0b0010110000000000000#19) 11#6 n rfl rfl rfl (by decide)

theorem EncodesRow.fn14 (n : Address) : EncodesRow.Statement (.fn14 n) :=
  row_of (m := 0b0011000000000000000#19) 12#6 n rfl rfl rfl (by decide)

theorem EncodesRow.fn15 (n : Address) : EncodesRow.Statement (.fn15 n) :=
  row_of (m := 0b0011010000000000000#19) 13#6 n rfl rfl rfl (by decide)

theorem EncodesRow.fn16 (n : Address) : EncodesRow.Statement (.fn16 n) :=
  row_of (m := 0b0011100000000000000#19) 14#6 n rfl rfl rfl (by decide)

theorem EncodesRow.fn17 (n : Address) : EncodesRow.Statement (.fn17 n) :=
  row_of (m := 0b0011110000000000000#19) 15#6 n rfl rfl rfl (by decide)

theorem EncodesRow.fn20 (n : Address) : EncodesRow.Statement (.fn20 n) :=
  row_of (m := 0b0100000000000000000#19) 16#6 n rfl rfl rfl (by decide)

theorem EncodesRow.fn21 (n : Address) : EncodesRow.Statement (.fn21 n) :=
  row_of (m := 0b0100010000000000000#19) 17#6 n rfl rfl rfl (by decide)

theorem EncodesRow.fn22 (n : Address) : EncodesRow.Statement (.fn22 n) :=
  row_of (m := 0b0100100000000000000#19) 18#6 n rfl rfl rfl (by decide)

theorem EncodesRow.fn23 (n : Address) : EncodesRow.Statement (.fn23 n) :=
  row_of (m := 0b0100110000000000000#19) 19#6 n rfl rfl rfl (by decide)

theorem EncodesRow.fn24 (n : Address) : EncodesRow.Statement (.fn24 n) :=
  row_of (m := 0b0101000000000000000#19) 20#6 n rfl rfl rfl (by decide)

theorem EncodesRow.fn25 (n : Address) : EncodesRow.Statement (.fn25 n) :=
  row_of (m := 0b0101010000000000000#19) 21#6 n rfl rfl rfl (by decide)

theorem EncodesRow.fn26 (n : Address) : EncodesRow.Statement (.fn26 n) :=
  row_of (m := 0b0101100000000000000#19) 22#6 n rfl rfl rfl (by decide)

theorem EncodesRow.fn27 (n : Address) : EncodesRow.Statement (.fn27 n) :=
  row_of (m := 0b0101110000000000000#19) 23#6 n rfl rfl rfl (by decide)

theorem EncodesRow.fn30 (n : Address) : EncodesRow.Statement (.fn30 n) :=
  row_of (m := 0b0110000000000000000#19) 24#6 n rfl rfl rfl (by decide)

theorem EncodesRow.fn31 (n : Address) : EncodesRow.Statement (.fn31 n) :=
  row_of (m := 0b0110010000000000000#19) 25#6 n rfl rfl rfl (by decide)

theorem EncodesRow.fn32 (n : Address) : EncodesRow.Statement (.fn32 n) :=
  row_of (m := 0b0110100000000000000#19) 26#6 n rfl rfl rfl (by decide)

theorem EncodesRow.fn33 (n : Address) : EncodesRow.Statement (.fn33 n) :=
  row_of (m := 0b0110110000000000000#19) 27#6 n rfl rfl rfl (by decide)

theorem EncodesRow.fn34 (n : Address) : EncodesRow.Statement (.fn34 n) :=
  row_of (m := 0b0111000000000000000#19) 28#6 n rfl rfl rfl (by decide)

theorem EncodesRow.fn35 (n : Address) : EncodesRow.Statement (.fn35 n) :=
  row_of (m := 0b0111010000000000000#19) 29#6 n rfl rfl rfl (by decide)

theorem EncodesRow.fn36 (n : Address) : EncodesRow.Statement (.fn36 n) :=
  row_of (m := 0b0111100000000000000#19) 30#6 n rfl rfl rfl (by decide)

theorem EncodesRow.fn37 (n : Address) : EncodesRow.Statement (.fn37 n) :=
  row_of (m := 0b0111110000000000000#19) 31#6 n rfl rfl rfl (by decide)

theorem EncodesRow.fn40 (n : Address) : EncodesRow.Statement (.fn40 n) :=
  row_of (m := 0b1000000000000000000#19) 32#6 n rfl rfl rfl (by decide)

theorem EncodesRow.fn41 (n : Address) : EncodesRow.Statement (.fn41 n) :=
  row_of (m := 0b1000010000000000000#19) 33#6 n rfl rfl rfl (by decide)

theorem EncodesRow.fn42 (n : Address) : EncodesRow.Statement (.fn42 n) :=
  row_of (m := 0b1000100000000000000#19) 34#6 n rfl rfl rfl (by decide)

theorem EncodesRow.fn43 (n : Address) : EncodesRow.Statement (.fn43 n) :=
  row_of (m := 0b1000110000000000000#19) 35#6 n rfl rfl rfl (by decide)

theorem EncodesRow.fn44 (n : Address) : EncodesRow.Statement (.fn44 n) :=
  row_of (m := 0b1001000000000000000#19) 36#6 n rfl rfl rfl (by decide)

theorem EncodesRow.fn45 (n : Address) : EncodesRow.Statement (.fn45 n) :=
  row_of (m := 0b1001010000000000000#19) 37#6 n rfl rfl rfl (by decide)

theorem EncodesRow.fn46 (n : Address) : EncodesRow.Statement (.fn46 n) :=
  row_of (m := 0b1001100000000000000#19) 38#6 n rfl rfl rfl (by decide)

theorem EncodesRow.fn47 (n : Address) : EncodesRow.Statement (.fn47 n) :=
  row_of (m := 0b1001110000000000000#19) 39#6 n rfl rfl rfl (by decide)

theorem EncodesRow.fn50 (n : Address) : EncodesRow.Statement (.fn50 n) :=
  row_of (m := 0b1010000000000000000#19) 40#6 n rfl rfl rfl (by decide)

theorem EncodesRow.fn51 (n : Address) : EncodesRow.Statement (.fn51 n) :=
  row_of (m := 0b1010010000000000000#19) 41#6 n rfl rfl rfl (by decide)

theorem EncodesRow.fn52 (n : Address) : EncodesRow.Statement (.fn52 n) :=
  row_of (m := 0b1010100000000000000#19) 42#6 n rfl rfl rfl (by decide)

theorem EncodesRow.fn53 (n : Address) : EncodesRow.Statement (.fn53 n) :=
  row_of (m := 0b1010110000000000000#19) 43#6 n rfl rfl rfl (by decide)

theorem EncodesRow.fn54 (n : Address) : EncodesRow.Statement (.fn54 n) :=
  row_of (m := 0b1011000000000000000#19) 44#6 n rfl rfl rfl (by decide)

theorem EncodesRow.fn55 (n : Address) : EncodesRow.Statement (.fn55 n) :=
  row_of (m := 0b1011010000000000000#19) 45#6 n rfl rfl rfl (by decide)

theorem EncodesRow.fn56 (n : Address) : EncodesRow.Statement (.fn56 n) :=
  row_of (m := 0b1011100000000000000#19) 46#6 n rfl rfl rfl (by decide)

theorem EncodesRow.fn57 (n : Address) : EncodesRow.Statement (.fn57 n) :=
  row_of (m := 0b1011110000000000000#19) 47#6 n rfl rfl rfl (by decide)

theorem EncodesRow.fn60 (n : Address) : EncodesRow.Statement (.fn60 n) :=
  row_of (m := 0b1100000000000000000#19) 48#6 n rfl rfl rfl (by decide)

theorem EncodesRow.fn61 (n : Address) : EncodesRow.Statement (.fn61 n) :=
  row_of (m := 0b1100010000000000000#19) 49#6 n rfl rfl rfl (by decide)

theorem EncodesRow.fn62 (n : Address) : EncodesRow.Statement (.fn62 n) :=
  row_of (m := 0b1100100000000000000#19) 50#6 n rfl rfl rfl (by decide)

theorem EncodesRow.fn63 (n : Address) : EncodesRow.Statement (.fn63 n) :=
  row_of (m := 0b1100110000000000000#19) 51#6 n rfl rfl rfl (by decide)

theorem EncodesRow.fn64 (n : Address) : EncodesRow.Statement (.fn64 n) :=
  row_of (m := 0b1101000000000000000#19) 52#6 n rfl rfl rfl (by decide)

theorem EncodesRow.fn65Shift (n : Address) : EncodesRow.Statement (.fn65Shift n) := by
  refine (Iff.trans (by simp only [Instr.wellFormed, Bool.not_eq_true']) (row65 n false)).trans ?_
  rw [← and_functionMask12]
  exact Iff.rfl

theorem EncodesRow.fn65Std (n : Address) : EncodesRow.Statement (.fn65Std n) := by
  refine (row65 n true).trans ?_
  rw [← and_functionMask12]
  exact Iff.rfl

theorem EncodesRow.fn66 (n : Address) : EncodesRow.Statement (.fn66 n) :=
  row_of (m := 0b1101100000000000000#19) 54#6 n rfl rfl rfl (by decide)

theorem EncodesRow.fn67 (n : Address) : EncodesRow.Statement (.fn67 n) :=
  row_of (m := 0b1101110000000000000#19) 55#6 n rfl rfl rfl (by decide)

theorem EncodesRow.fn70 (n : Address) : EncodesRow.Statement (.fn70 n) :=
  row_of (m := 0b1110000000000000000#19) 56#6 n rfl rfl rfl (by decide)

theorem EncodesRow.fn71 (n : Address) : EncodesRow.Statement (.fn71 n) :=
  row_of (m := 0b1110010000000000000#19) 57#6 n rfl rfl rfl (by decide)

theorem EncodesRow.fn72 (n : Address) : EncodesRow.Statement (.fn72 n) :=
  row_of (m := 0b1110100000000000000#19) 58#6 n rfl rfl rfl (by decide)

theorem EncodesRow.fn73 (n : Address) : EncodesRow.Statement (.fn73 n) :=
  row_of (m := 0b1110110000000000000#19) 59#6 n rfl rfl rfl (by decide)

theorem EncodesRow.fn74 (n : Address) : EncodesRow.Statement (.fn74 n) :=
  row_of (m := 0b1111000000000000000#19) 60#6 n rfl rfl rfl (by decide)

theorem EncodesRow.fn75 (n : Address) : EncodesRow.Statement (.fn75 n) :=
  row_of (m := 0b1111010000000000000#19) 61#6 n rfl rfl rfl (by decide)

theorem EncodesRow.fn76 (n : Address) : EncodesRow.Statement (.fn76 n) :=
  row_of (m := 0b1111100000000000000#19) 62#6 n rfl rfl rfl (by decide)

theorem EncodesRow.fn77 (n : Address) : EncodesRow.Statement (.fn77 n) :=
  row_of (m := 0b1111110000000000000#19) 63#6 n rfl rfl rfl (by decide)

end Sys2Proof.Laws
end

