-- ==== Sys2Proof/Laws/Step.lean ====
section
/-! SUPPORT. The cases of a word-time (R290), the decoder's fields, and what each beat leaves in the store. -/

namespace Sys2Proof.Machine

open Sys2Proof

/-! ### The decoder -/

theorem fnGroup_append_fnMember (f : FnCode) : (fnGroup f ++ fnMember f : BitVec (3 + 3)) = f := by
  revert f
  decide

/-- What the decoder reads is what the bits say (R85). -/
theorem decode_fields (x : InstrBits) : (decode x).code = fnField x ∧ (decode x).address = addressField x := by
  have hj := fnGroup_append_fnMember (fnField x)
  unfold decode
  generalize fnGroup (fnField x) = g at *
  generalize fnMember (fnField x) = k at *
  generalize addressField x = n
  rw [← hj]
  have hg : ∀ g : BitVec 3, g = 0#3 ∨ g = 1#3 ∨ g = 2#3 ∨ g = 3#3 ∨ g = 4#3 ∨ g = 5#3 ∨ g = 6#3 ∨ g = 7#3 := by decide
  rcases hg g with rfl | rfl | rfl | rfl | rfl | rfl | rfl | rfl <;>
    rcases hg k with rfl | rfl | rfl | rfl | rfl | rfl | rfl | rfl <;> (try exact ⟨rfl, rfl⟩)
  simp only [decodeGroup6]
  split <;> exact ⟨rfl, rfl⟩

theorem isJumpBits_encode (i : Instr) : isJumpBits (encode i) = i.isJump := by
  simp only [isJumpBits, encode, fnField_append, Instr.isJump]

theorem decode_isJump (x : InstrBits) : (decode x).isJump = isJumpBits x := by
  rw [Instr.isJump, (decode_fields x).1, isJumpBits]

theorem decode_stall (x : InstrBits) : stallFunction (encode (decode x)) = stallFunction x := by
  rw [stallFunction_encode, (decode_fields x).1, stallFunction]

/-! ### The word-time -/

theorem step_of_wordTime {s t : State} (h : wordTime s = .next t) : step s = .next t.nextWires := by
  simp only [step, wordTimeThenWires, h]

/-- A step is a word-time and the environment's change of the wires. -/
theorem wordTime_of_step {s t : State} (h : step s = .next t) : ∃ u, wordTime s = .next u ∧ t = u.nextWires := by
  simp only [step, wordTimeThenWires] at h
  split at h
  · rename_i u hu
    cases h
    exact ⟨u, hu, rfl⟩
  · cases h
  · cases h

theorem wordTime_reset {s : State} (hr : s.wires.reset = true) : wordTime s = .next (resetBeat s.quietOutputs) := by
  simp only [wordTime, State.quietOutputs_wires, hr, if_true]

theorem wordTime_stopped {s : State} (hr : s.wires.reset = false) (hf : s.fetching = true) (hs : s.stopped = true) :
    wordTime s = stoppedBeat s.quietOutputs := by
  simp only [wordTime, State.quietOutputs_wires, hr, Bool.false_eq_true, if_false, State.quietOutputs_fetching, hf,
    State.quietOutputs_stopped, hs, if_true]

theorem wordTime_fetch {s : State} (hr : s.wires.reset = false) (hf : s.fetching = true) (hs : s.stopped = false) :
    wordTime s = decodeBeat s.quietOutputs.fetched := by
  simp only [wordTime, State.quietOutputs_wires, hr, Bool.false_eq_true, if_false, State.quietOutputs_fetching, hf,
    State.quietOutputs_stopped, hs, if_true, fetchBeat]

theorem wordTime_execute {s : State} (hr : s.wires.reset = false) (hf : s.fetching = false) :
    wordTime s = executeBeat s.quietOutputs := by
  simp only [wordTime, State.quietOutputs_wires, hr, Bool.false_eq_true, if_false, State.quietOutputs_fetching, hf]

theorem executeBeat_plain {s : State} (hj : isJumpBits s.ir = false) : executeBeat s = exec (decode s.ir) s := by
  simp only [executeBeat, hj, Bool.false_eq_true, if_false]

theorem decodeBeat_jump {s : State} (hj : isJumpBits s.ir = true) : decodeBeat s = exec (decode s.ir) s := by
  simp only [decodeBeat, hj, if_true]

theorem decodeBeat_plain {s : State} (hj : isJumpBits s.ir = false) : decodeBeat s = .next { s with fetching := false } := by
  simp only [decodeBeat, hj, Bool.false_eq_true, if_false]

/-- What `Decode` can do (R303): it goes to the execute phase, or carries out a jump. -/
theorem decodeBeat_cases (s : State) :
    (isJumpBits s.ir = false ∧ decodeBeat s = .next { s with fetching := false }) ∨
    (isJumpBits s.ir = true ∧ ∃ scr m o, decodeBeat s = .next { s with scr := scr, modPending := m, oflow := o } ∧
      (o = s.oflow ∨ (o = false ∧ (fnField s.ir = 35#6 ∨ fnField s.ir = 39#6)))) := by
  cases hj : isJumpBits s.ir
  · exact Or.inl ⟨rfl, decodeBeat_plain hj⟩
  · refine Or.inr ⟨rfl, ?_⟩
    rw [decodeBeat_jump hj]
    have hd := decode_isJump s.ir
    rcases exec_cases (decode s.ir) s with ⟨scr, m, o, -, he, ho, -⟩ | ⟨_, _, _, _, hj', -, -, -⟩ | ⟨_, hj', -, -, -⟩
    · rw [(decode_fields s.ir).1] at ho
      exact ⟨scr, m, o, he, ho⟩
    · rw [hd, hj] at hj'
      cases hj'
    · rw [hd, hj] at hj'
      cases hj'

/-- What a stopped beat can do (R295, R296). -/
theorem stoppedBeat_cases (s : State) :
    stoppedBeat s = .next s ∨
    (s.wires.operate = true ∧ s.wires.ron = .normal ∧ stoppedBeat s = .next { s with stopped := false }) ∨
    (s.wires.operate = true ∧ s.wires.ron = .read ∧ stoppedBeat s = .next s.loadButtons) ∨
    (s.wires.operate = true ∧ s.wires.ron = .obey ∧ stoppedBeat s = decodeBeat s.loadButtons) := by
  unfold stoppedBeat
  cases ho : s.wires.operate
  · exact Or.inl rfl
  · cases hr : s.wires.ron
    · exact Or.inr (Or.inr (Or.inl ⟨rfl, rfl, rfl⟩))
    · exact Or.inr (Or.inl ⟨rfl, rfl, rfl⟩)
    · exact Or.inr (Or.inr (Or.inr ⟨rfl, rfl, rfl⟩))

/-! ### Runs and the wires to come -/

theorem core_run_zero (s : State) : Sys2Proof.core.run 0 s = .next s := rfl

/-- A run goes on from the state its first word-time gives. -/
theorem core_run_succ {s t : State} {k : Nat} (h : step s = .next t) :
    Sys2Proof.core.run (k + 1) s = Sys2Proof.core.run k t := by
  simp only [Host.Core.run, show Sys2Proof.core.step s = .next t from h]

/-- What holds of all the wires to come holds of them after a word-time too, if it does not need the operate event. -/
theorem State.Always.nextWires {s : State} {p : Wires → Prop} (h : s.Always p)
    (hp : ∀ w, p w → p { w with operate := false }) : s.nextWires.Always p := by
  obtain ⟨h1, h2⟩ := h
  unfold State.Always
  simp only [State.nextWires_wires, State.nextWires_feed]
  cases hf : s.feed with
  | nil => exact ⟨hp _ h1, fun _ h => nomatch h⟩
  | cons w r =>
    rw [hf] at h2
    exact ⟨h2 w List.mem_cons_self, fun x hx => h2 x (List.mem_cons_of_mem _ hx)⟩

/-! ### The store -/

/-- A beat's write-back changes no word but the one addressed, and none below address 4. -/
theorem finish_store_read {s u : State} (n : Address) (w : Word) (hu : u.store = (s.clearOnRead n).store) (a : Nat)
    (h : a ≠ n.toNat ∨ n.toNat < 4) : (u.finish n w).store.read a = s.store.read a := by
  simp only [State.finish_store, hu, State.clearOnRead_store, reserved_eq]
  rcases Nat.lt_or_ge n.toNat 4 with hn | hn
  · simp [hn]
  · have h' : a ≠ n.toNat := by
      rcases h with h | h
      · exact h
      · omega
    have hn' : ¬ n.toNat < 4 := by omega
    simp only [hn', decide_false, Bool.false_eq_true, if_false, Bool.not_false, Bool.and_true]
    rw [Store.read_write_other _ _ h']
    split
    · exact Store.read_write_other _ _ h'
    · rfl

/-- A beat's write-back keeps the canonical form. -/
theorem finish_wf {s u : State} (n : Address) (w : Word) (hu : u.store = (s.clearOnRead n).store) (h : s.store.wf = true) :
    (u.finish n w).store.wf = true := by
  have hc : u.store.wf = true := hu ▸ State.clearOnRead_wf n h
  exact State.memWrite_wf n w hc

/-- A fetch changes no word but, with the clear-store wire, the one at `SCR` (R75). -/
theorem fetched_store_read (s : State) (a : Nat) (h : a < 4 ∨ s.wires.cs = false ∨ a ≠ (scrWord s.scr).toNat) :
    s.fetched.store.read a = s.store.read a := by
  simp only [State.fetched, State.selectedStop_store, State.loadIr_store, State.clearOnRead_store, reserved_eq]
  by_cases hc : (s.wires.cs && !decide ((scrWord s.scr).toNat < 4)) = true
  · rw [if_pos hc]
    simp only [Bool.and_eq_true, Bool.not_eq_true', decide_eq_false_iff_not] at hc
    apply Store.read_write_other
    rcases h with h | h | h
    · omega
    · rw [h] at hc
      cases hc.1
    · exact h
  · rw [if_neg hc]

theorem fetched_wf {s : State} (h : s.store.wf = true) : s.fetched.store.wf = true := State.clearOnRead_wf _ h

end Sys2Proof.Machine
end

