-- ==== Sys2Proof/Tests/Slice0.lean ====
section
/-! SUPPORT. The model's own tests: ill-formed terms are refused, words written out from the encoding table decode, one step on small
states gives the values of `95_test_vectors.md`, and the hypotheses of the statements can be met. -/

namespace Sys2Proof.Tests

open Sys2Proof Sys2Proof.Machine

/-! ### Well-formedness -/

/-- R239: 65 with N = 4096 is no fast shift. -/
theorem test_wf_refuses_fast_shift_4096 : (Instr.fn65Shift 4096).wellFormed = false := by decide

/-- R240: 65 with N = 4095 does not standardise. -/
theorem test_wf_refuses_standardise_4095 : (Instr.fn65Std 4095).wellFormed = false := by decide

theorem test_wf_accepts_both_rows : (Instr.fn65Shift 4095).wellFormed = true ∧ (Instr.fn65Std 4096).wellFormed = true := by decide

/-- U2: `40 1 / 00 0` is unadvised, `40 1 : 00 0` is not. -/
theorem test_unadvised_word : unadvisedWord (packWord (encode (.fn40 1)) true 0) = true ∧
    unadvisedWord (packWord (encode (.fn40 1)) false 0) = false := by decide

/-! ### Decoding: the words of the encoding column of the opcode table, with an address written out -/

theorem test_decode_group_0 :
    decode 0b0000000000001100100#19 = .fn00 100 ∧
    decode 0b0000010000001100101#19 = .fn01 101 ∧
    decode 0b0000100000001100110#19 = .fn02 102 ∧
    decode 0b0000110000001100111#19 = .fn03 103 ∧
    decode 0b0001000000001101000#19 = .fn04 104 ∧
    decode 0b0001010000001101001#19 = .fn05 105 ∧
    decode 0b0001100000001101010#19 = .fn06 106 ∧
    decode 0b0001110000001101011#19 = .fn07 107 := by decide

theorem test_encode_group_0 :
    encode (.fn00 100) = 0b0000000000001100100#19 ∧
    encode (.fn01 101) = 0b0000010000001100101#19 ∧
    encode (.fn02 102) = 0b0000100000001100110#19 ∧
    encode (.fn03 103) = 0b0000110000001100111#19 ∧
    encode (.fn04 104) = 0b0001000000001101000#19 ∧
    encode (.fn05 105) = 0b0001010000001101001#19 ∧
    encode (.fn06 106) = 0b0001100000001101010#19 ∧
    encode (.fn07 107) = 0b0001110000001101011#19 := by decide

theorem test_decode_group_1 :
    decode 0b0010000111111111111#19 = .fn10 4095 ∧
    decode 0b0010011000000000000#19 = .fn11 4096 ∧
    decode 0b0010101000000000001#19 = .fn12 4097 ∧
    decode 0b0010111000000000010#19 = .fn13 4098 ∧
    decode 0b0011001000000000011#19 = .fn14 4099 ∧
    decode 0b0011011000000000100#19 = .fn15 4100 ∧
    decode 0b0011101000000000101#19 = .fn16 4101 ∧
    decode 0b0011111000000000110#19 = .fn17 4102 := by decide

theorem test_encode_group_1 :
    encode (.fn10 4095) = 0b0010000111111111111#19 ∧
    encode (.fn11 4096) = 0b0010011000000000000#19 ∧
    encode (.fn12 4097) = 0b0010101000000000001#19 ∧
    encode (.fn13 4098) = 0b0010111000000000010#19 ∧
    encode (.fn14 4099) = 0b0011001000000000011#19 ∧
    encode (.fn15 4100) = 0b0011011000000000100#19 ∧
    encode (.fn16 4101) = 0b0011101000000000101#19 ∧
    encode (.fn17 4102) = 0b0011111000000000110#19 := by decide

theorem test_decode_group_2 :
    decode 0b0100001111111111111#19 = .fn20 8191 ∧
    decode 0b0100011111111111110#19 = .fn21 8190 ∧
    decode 0b0100101111111111101#19 = .fn22 8189 ∧
    decode 0b0100111111111111100#19 = .fn23 8188 ∧
    decode 0b0101001111111111011#19 = .fn24 8187 ∧
    decode 0b0101011111111111010#19 = .fn25 8186 ∧
    decode 0b0101101111111111001#19 = .fn26 8185 ∧
    decode 0b0101111111111111000#19 = .fn27 8184 := by decide

theorem test_encode_group_2 :
    encode (.fn20 8191) = 0b0100001111111111111#19 ∧
    encode (.fn21 8190) = 0b0100011111111111110#19 ∧
    encode (.fn22 8189) = 0b0100101111111111101#19 ∧
    encode (.fn23 8188) = 0b0100111111111111100#19 ∧
    encode (.fn24 8187) = 0b0101001111111111011#19 ∧
    encode (.fn25 8186) = 0b0101011111111111010#19 ∧
    encode (.fn26 8185) = 0b0101101111111111001#19 ∧
    encode (.fn27 8184) = 0b0101111111111111000#19 := by decide

theorem test_decode_group_3 :
    decode 0b0110000000000000001#19 = .fn30 1 ∧
    decode 0b0110010000000000010#19 = .fn31 2 ∧
    decode 0b0110100000000000011#19 = .fn32 3 ∧
    decode 0b0110110000000000100#19 = .fn33 4 ∧
    decode 0b0111000000000000101#19 = .fn34 5 ∧
    decode 0b0111010000000000110#19 = .fn35 6 ∧
    decode 0b0111100000000000111#19 = .fn36 7 ∧
    decode 0b0111110000000001000#19 = .fn37 8 := by decide

theorem test_encode_group_3 :
    encode (.fn30 1) = 0b0110000000000000001#19 ∧
    encode (.fn31 2) = 0b0110010000000000010#19 ∧
    encode (.fn32 3) = 0b0110100000000000011#19 ∧
    encode (.fn33 4) = 0b0110110000000000100#19 ∧
    encode (.fn34 5) = 0b0111000000000000101#19 ∧
    encode (.fn35 6) = 0b0111010000000000110#19 ∧
    encode (.fn36 7) = 0b0111100000000000111#19 ∧
    encode (.fn37 8) = 0b0111110000000001000#19 := by decide

theorem test_decode_group_4 :
    decode 0b1000001000000000000#19 = .fn40 4096 ∧
    decode 0b1000011000000000001#19 = .fn41 4097 ∧
    decode 0b1000101000000000010#19 = .fn42 4098 ∧
    decode 0b1000111000000000011#19 = .fn43 4099 ∧
    decode 0b1001001000000000100#19 = .fn44 4100 ∧
    decode 0b1001011000000000101#19 = .fn45 4101 ∧
    decode 0b1001101000000000110#19 = .fn46 4102 ∧
    decode 0b1001111000000000111#19 = .fn47 4103 := by decide

theorem test_encode_group_4 :
    encode (.fn40 4096) = 0b1000001000000000000#19 ∧
    encode (.fn41 4097) = 0b1000011000000000001#19 ∧
    encode (.fn42 4098) = 0b1000101000000000010#19 ∧
    encode (.fn43 4099) = 0b1000111000000000011#19 ∧
    encode (.fn44 4100) = 0b1001001000000000100#19 ∧
    encode (.fn45 4101) = 0b1001011000000000101#19 ∧
    encode (.fn46 4102) = 0b1001101000000000110#19 ∧
    encode (.fn47 4103) = 0b1001111000000000111#19 := by decide

theorem test_decode_group_5 :
    decode 0b1010000000001111111#19 = .fn50 127 ∧
    decode 0b1010010000010000000#19 = .fn51 128 ∧
    decode 0b1010100000010000001#19 = .fn52 129 ∧
    decode 0b1010110000010000010#19 = .fn53 130 ∧
    decode 0b1011000000010000011#19 = .fn54 131 ∧
    decode 0b1011010000010000100#19 = .fn55 132 ∧
    decode 0b1011100000010000101#19 = .fn56 133 ∧
    decode 0b1011110000010000110#19 = .fn57 134 := by decide

theorem test_encode_group_5 :
    encode (.fn50 127) = 0b1010000000001111111#19 ∧
    encode (.fn51 128) = 0b1010010000010000000#19 ∧
    encode (.fn52 129) = 0b1010100000010000001#19 ∧
    encode (.fn53 130) = 0b1010110000010000010#19 ∧
    encode (.fn54 131) = 0b1011000000010000011#19 ∧
    encode (.fn55 132) = 0b1011010000010000100#19 ∧
    encode (.fn56 133) = 0b1011100000010000101#19 ∧
    encode (.fn57 134) = 0b1011110000010000110#19 := by decide

theorem test_decode_group_6 :
    decode 0b1100000101010101010#19 = .fn60 2730 ∧
    decode 0b1100010101010101011#19 = .fn61 2731 ∧
    decode 0b1100100101010101100#19 = .fn62 2732 ∧
    decode 0b1100110101010101101#19 = .fn63 2733 ∧
    decode 0b1101000101010101110#19 = .fn64 2734 ∧
    decode 0b1101010111111111111#19 = .fn65Shift 4095 ∧
    decode 0b1101011000000000000#19 = .fn65Std 4096 ∧
    decode 0b1101100101010110001#19 = .fn66 2737 ∧
    decode 0b1101110101010110010#19 = .fn67 2738 := by decide

theorem test_encode_group_6 :
    encode (.fn60 2730) = 0b1100000101010101010#19 ∧
    encode (.fn61 2731) = 0b1100010101010101011#19 ∧
    encode (.fn62 2732) = 0b1100100101010101100#19 ∧
    encode (.fn63 2733) = 0b1100110101010101101#19 ∧
    encode (.fn64 2734) = 0b1101000101010101110#19 ∧
    encode (.fn65Shift 4095) = 0b1101010111111111111#19 ∧
    encode (.fn65Std 4096) = 0b1101011000000000000#19 ∧
    encode (.fn66 2737) = 0b1101100101010110001#19 ∧
    encode (.fn67 2738) = 0b1101110101010110010#19 := by decide

theorem test_decode_group_7 :
    decode 0b1110001010101010101#19 = .fn70 5461 ∧
    decode 0b1110011010101010110#19 = .fn71 5462 ∧
    decode 0b1110101010101010111#19 = .fn72 5463 ∧
    decode 0b1110111010101011000#19 = .fn73 5464 ∧
    decode 0b1111001010101011001#19 = .fn74 5465 ∧
    decode 0b1111011010101011010#19 = .fn75 5466 ∧
    decode 0b1111101010101011011#19 = .fn76 5467 ∧
    decode 0b1111111010101011100#19 = .fn77 5468 := by decide

theorem test_encode_group_7 :
    encode (.fn70 5461) = 0b1110001010101010101#19 ∧
    encode (.fn71 5462) = 0b1110011010101010110#19 ∧
    encode (.fn72 5463) = 0b1110101010101010111#19 ∧
    encode (.fn73 5464) = 0b1110111010101011000#19 ∧
    encode (.fn74 5465) = 0b1111001010101011001#19 ∧
    encode (.fn75 5466) = 0b1111011010101011010#19 ∧
    encode (.fn76 5467) = 0b1111101010101011011#19 ∧
    encode (.fn77 5468) = 0b1111111010101011100#19 := by decide

/-- R93, 1.1 of the test vectors: text outside the grammar is refused. -/
theorem test_literal_refused : parseWord? ['2', '8', '4', ':', '0', '6', '0'] = none ∧ parseWord? ['2', '6', '4', ':', '0', '6'] = none ∧
    parseWord? ['0', '0', '8', '1', '9', '2', ':', '0', '0', '0'] = none := by decide

/-- The table's numbering: bit 0 is the least significant; bits above 19 are not the instruction's. -/
theorem test_decodeTableWord : decodeTableWord 24 0b0001000000001100100 = some (.fn04 100) := by decide
/-! ### One step (expected values from `95_test_vectors.md`) -/

/-- A field of the next state; none for a fault or a refusal. -/
def field {α : Type} (f : State → α) (o : Host.Outcome State Fault Refusal) : Option α :=
  match o with
  | .next t => some (f t)
  | .fault _ => none
  | .refused _ => none

/-- The execute phase right after power-on, with nothing in the store. -/
def started : State := { State.reset with fetching := false, stopped := false }

/-- `ACC` is `a` and `STORE[100]` is `n`. -/
def pair (a n : Int) : State := { started with acc := word a, store := started.store.write 100 (word n) }

/-- `ACC` and `STORE[100]` as signed numbers, and `OFLOW`. -/
def accStore (s : State) : Int × Int × Bool := (signed s.acc, signed (s.store.read 100), s.oflow)

/-- Section 2.2: all of group 0 on a = 5, n = 3. -/
theorem test_group_0 :
    ([Instr.fn00 100, .fn01 100, .fn02 100, .fn03 100, .fn04 100, .fn05 100, .fn06 100, .fn07 100].map
      (fun i => field accStore (exec i (pair 5 3)))) =
    [some (5, 3, false), some (-5, 3, false), some (4, 3, false), some (1, 3, false), some (8, 3, false), some (2, 3, false),
      some (0, 3, false), some (-2, 3, false)] := by decide

/-- Section 2.2: all of group 1. -/
theorem test_group_1 :
    ([Instr.fn10 100, .fn11 100, .fn12 100, .fn13 100, .fn14 100, .fn15 100, .fn16 100, .fn17 100].map
      (fun i => field accStore (exec i (pair 5 3)))) =
    [some (3, 5, false), some (-3, 5, false), some (4, 5, false), some (1, 5, false), some (8, 5, false), some (2, 5, false),
      some (0, 5, false), some (-2, 5, false)] := by decide

/-- Section 2.2: all of group 2. -/
theorem test_group_2 :
    ([Instr.fn20 100, .fn21 100, .fn22 100, .fn23 100, .fn24 100, .fn25 100, .fn26 100, .fn27 100].map
      (fun i => field accStore (exec i (pair 5 3)))) =
    [some (5, 5, false), some (5, -5, false), some (5, 4, false), some (5, 1, false), some (5, 8, false), some (5, 2, false),
      some (5, 0, false), some (5, -2, false)] := by decide

/-- Section 2.2: all of group 3. -/
theorem test_group_3 :
    ([Instr.fn30 100, .fn31 100, .fn32 100, .fn33 100, .fn34 100, .fn35 100, .fn36 100, .fn37 100].map
      (fun i => field accStore (exec i (pair 5 3)))) =
    [some (3, 3, false), some (3, -3, false), some (3, 4, false), some (3, 1, false), some (3, 8, false), some (3, 2, false),
      some (3, 0, false), some (3, -2, false)] := by decide

/-- Section 2.2, overflow cases (2^38 = 274877906944). -/
theorem test_overflows :
    field accStore (exec (.fn04 100) (pair 274877906943 1)) = some (-274877906944, 1, true) ∧
    field accStore (exec (.fn01 100) (pair (-274877906944) 0)) = some (-274877906944, 0, true) ∧
    field accStore (exec (.fn12 100) (pair 7 274877906943)) = some (-274877906944, 7, true) ∧
    field accStore (exec (.fn21 100) (pair (-274877906944) 9)) = some (-274877906944, -274877906944, true) ∧
    field accStore (exec (.fn27 100) (pair 274877906943 (-274877906944))) = some (274877906943, 1, true) ∧
    field accStore (exec (.fn35 100) (pair (-274877906944) 1)) = some (1, 274877906943, true) := by decide

/-- Section 2.2, addresses below 4: `04 2` adds 0 although STORE[2] holds a bootstrap word, `20 2` writes nothing, `22 1` leaves `BREG` 0. -/
theorem test_reserved_addresses :
    field (·.acc) (exec (.fn04 2) (pair 5 0)) = some 5 ∧ field (·.store.read 2) (exec (.fn20 2) (pair 5 0)) = some 386552766464#39 ∧
    field (·.breg) (exec (.fn22 1) (pair 5 0)) = some 0 := by decide

/-- Section 2.3: jumps from SCR = 60 with `M` true, taken and not. -/
theorem test_jumps :
    let s : State := { State.reset with scr := 60, modPending := true }
    let now := fun t : State => (t.scr, t.oflow, t.modPending)
    field now (exec (.fn40 100) s) = some (200, false, false) ∧ field now (exec (.fn44 100) s) = some (201, false, false) ∧
    field now (exec (.fn41 7) { s with nega := true }) = some (14, false, false) ∧
    field now (exec (.fn45 7) s) = some (61, false, true) ∧
    field now (exec (.fn42 7) { s with z := true }) = some (14, false, false) ∧
    field now (exec (.fn46 7) { s with z := true }) = some (15, false, false) ∧
    field now (exec (.fn43 1) { s with oflow := true }) = some (2, false, false) ∧
    field now (exec (.fn47 9) s) = some (61, false, true) := by decide

/-- `ACC` and `AR` are these numbers. -/
def regs (a r : Nat) : State := { started with acc := BitVec.ofNat 39 a, ar := BitVec.ofNat 39 r }

/-- `ACC`, `AR` and `OFLOW` as numbers. -/
def accAr (s : State) : Nat × Nat × Bool := (s.acc.toNat, s.ar.toNat, s.oflow)

/-- Section 2.4: one place of each shift (2^37 = 137438953472). -/
theorem test_shift_one_place :
    field accAr (exec (.fn50 1) (regs 549755813887 0)) = some (549755813887, 137438953472, false) ∧
    field accAr (exec (.fn51 1) (regs 549755813887 7)) = some (274877906943, 0, false) ∧
    field accAr (exec (.fn54 1) (regs 137438953472 0)) = some (274877906944, 0, true) ∧
    field accAr (exec (.fn55 1) (regs 549755813887 0)) = some (549755813886, 0, false) := by decide

/-- Section 2.4: a count of 0, of which only `N[6:0]` counts. -/
theorem test_shift_no_place :
    field accAr (exec (.fn51 0) (regs 5 7)) = some (5, 0, false) ∧
    field accAr (exec (.fn50 128) (regs 5 7)) = some (5, 7, false) := by decide

/-- The last beat of a long function: `L` true, `T` 1, the operand latched (R308). -/
def ending (a r m : Int) : State := { started with acc := word a, ar := word r, mreg := word m, longFn := true, t := 1 }

/-- Section 2.5: 52, 53, 56 on their last beat, 57. -/
theorem test_multiply_divide :
    let now := fun t : State => (signed t.acc, t.ar.toNat, t.oflow)
    field now (exec (.fn52 100) (ending 7 0 (-6))) = some (-1, 274877906902, false) ∧
    field now (exec (.fn52 100) (ending (-274877906944) 0 (-274877906944))) = some (-274877906944, 0, true) ∧
    field now (exec (.fn53 100) (ending (-3) 0 137438953472)) = some (-1, 0, false) ∧
    field now (exec (.fn53 100) (ending (-274877906944) 0 (-274877906944))) = some (-274877906944, 0, true) ∧
    field now (exec (.fn56 100) (ending 0 42 (-5))) = some (-9, 0, false) ∧
    field now (exec (.fn56 100) (ending 137438953472 0 137438953472)) = some (-274877906944, 0, true) ∧
    field (fun t => (t.ar.toNat, t.oflow)) (exec (.fn56 100) (ending 0 7 0)) = some (0, true) ∧
    field now (exec (.fn57 100) { started with acc := 99, ar := 42 }) = some (42, 42, false) := by decide

/-- The packed words of section 2.6 (the table of floating-point constants). -/
def fp1 : Word := 137438953729#39
def fp2 : Word := 137438953730#39
def fp3 : Word := 206158430466#39
def fp5 : Word := 171798692099#39
def fp6 : Word := 206158430467#39
def fpMinus1 : Word := 274877907200#39
def fpBig : Word := 274877906943#39

def fpEnding (a m : Word) : State := { started with acc := a, ar := 5, mreg := m, longFn := true, t := 1 }

/-- Section 2.6: 2 + 3, 2 - 3, 3 - 2, 2 * 3, 6 / 3 on the last beat. -/
theorem test_float :
    let now := fun t : State => (t.acc, t.ar, t.fpo, t.stopped)
    field now (exec (.fn60 100) (fpEnding fp2 fp3)) = some (fp5, 0, false, false) ∧
    field now (exec (.fn61 100) (fpEnding fp2 fp3)) = some (fpMinus1, 0, false, false) ∧
    field now (exec (.fn62 100) (fpEnding fp2 fp3)) = some (fp1, 0, false, false) ∧
    field now (exec (.fn63 100) (fpEnding fp2 fp3)) = some (fp6, 0, false, false) ∧
    field now (exec (.fn64 100) (fpEnding fp6 fp3)) = some (fp2, 0, false, false) := by decide

/-- Section 2.6: overflow sets `FPO` and `S` and clears `AR`. -/
theorem test_float_overflow :
    field (fun t => (t.ar, t.fpo, t.stopped)) (exec (.fn60 100) (fpEnding fpBig fpBig)) = some (0, true, true) := by decide

/-- S8: a zero divisor stops 64 in one beat and keeps `ACC` and `AR`. -/
theorem test_float_zero_divisor :
    field (fun t => (t.acc, t.ar, t.fpo, t.stopped, t.scr)) (exec (.fn64 314) { started with acc := fp2, ar := 5, scr := 605 }) =
      some (fp2, 5, true, true, 606) := by decide

/-- Section 2.6: 65 with N >= 4096 on 12345, 65 with N < 4096 by 38 and 39 places, 66 and 67 leave the accumulator. -/
theorem test_function_65 :
    field (fun t => (t.acc, t.ar)) (exec (.fn65Std 4096) (fpEnding 12345 0)) = some (207114731790, 0) ∧
    field (fun t => (t.acc, t.ar)) (exec (.fn65Shift 38) { started with acc := 1, ar := 9 }) = some (274877906944, 0) ∧
    field (fun t => (t.acc, t.ar)) (exec (.fn65Shift 39) { started with acc := 1, ar := 9 }) = some (0, 0) ∧
    field (fun t => (t.acc, t.ar)) (exec (.fn66 100) { started with acc := 1, ar := 9 }) = some (1, 9) ∧
    field (fun t => (t.acc, t.ar)) (exec (.fn67 100) { started with acc := 1, ar := 9 }) = some (1, 9) := by decide

/-- Section 2.7: 70 waits under manual data; 71 takes 5 bits into the accumulator; 72 and 74 drive the lines; 73 stores the link; 75 and 76
stall; 77 takes two beats. -/
theorem test_input_output :
    field (fun t => (t.busy, t.acc)) (exec (.fn70 0) { started with acc := 9, wires := { Wires.quiet with md := true, f1 := 1 } }) = some (true, 9) ∧
    field (fun t => (t.busy, t.acc)) (exec (.fn70 0) { started with wires := { Wires.quiet with n2 := 7, f1 := 1 } }) =
      some (false, 8589934599) ∧
    field (fun t => (t.busy, t.acc, t.out.act)) (exec (.fn71 0) { started with acc := 32, wires := { Wires.quiet with ready := true, trlines := 17 } }) =
      some (false, 49, true) ∧
    field (fun t => (t.busy, t.out.f72, t.out.act, t.out.clines)) (exec (.fn72 60) started) = some (true, true, false, 60) ∧
    field (fun t => (t.busy, t.out.f74, t.out.act, t.scr)) (exec (.fn74 60) { started with wires := { Wires.quiet with ready := true } }) =
      some (false, true, true, 1) ∧
    field (fun t => (t.store.read 60, t.breg)) (exec (.fn73 60) { started with scr := 101 }) = some (50, 50) ∧
    field (fun t => (t.busy, t.fetching)) (exec (.fn75 0) started) = some (true, false) ∧
    field (fun t => (t.busy, t.fetching)) (exec (.fn76 0) started) = some (true, false) ∧
    field (fun t => (t.longFn, t.t, t.fetching)) (exec (.fn77 0) started) = some (true, 1, false) := by decide

/-- Program 2 of section 3: in the fetch of `40 1` from the second half of `00 60 / 40 1` with `BREG` 50 the jump goes to word 51. -/
theorem test_modified_jump :
    let s : State := { State.reset with
      stopped := false, scr := 115, modPending := true, breg := 50
      store := State.reset.store.write 57 (packWord (encode (.fn00 60)) true (encode (.fn40 1))) }
    field (fun t => (t.scr, t.ir, t.modPending)) (step s) = some (102, encode (.fn40 51), false) := by decide

/-- The host's way to run one instruction, on a plain one and on a jump (log 17). -/
theorem test_withFetchWord :
    field (·.scr) (step (State.reset.withFetchWord 24 0b1000000000001100100)) = some 200 ∧
    field (fun t => (t.scr, t.acc)) (step (State.reset.withFetchWord 24 0b0000100000001100100)) = some (1, 1) := by decide

/-- A RESET in the middle of a shift keeps the shifted registers and stops the core (R293). -/
theorem test_reset_wire :
    field (fun t => (t.acc, t.ar, t.stopped, t.fetching, t.oflow))
      (step { ending 5 6 0 with ir := encode (.fn50 3), oflow := true, wires := { Wires.quiet with reset := true } }) =
      some (5, 6, true, true, false) := by decide

/-! ### Witnesses: the hypotheses of each statement can be met -/

/-- The execute phase with `x` in `IR`, right after power-on. -/
def executing (x : InstrBits) : State := { started with ir := x }

theorem executing_inv_of {x : InstrBits} {w : Wires} (h : isJumpBits x = false) : ({ executing x with wires := w } : State).Inv :=
  ⟨rfl, fun _ _ => rfl, (by decide : (0 : Word).getLsbD 38 = false), rfl, (fun h => nomatch h), (fun h => nomatch h), rfl, fun _ => h,
    (fun h => nomatch h), (fun h => nomatch h)⟩

theorem executing_inv {x : InstrBits} (h : isJumpBits x = false) : (executing x).Inv := executing_inv_of h

theorem executing_noReset (x : InstrBits) : (executing x).NoReset := ⟨rfl, fun _ h => nomatch h⟩

/-- The running machine about to fetch the word `w` at address 5. -/
def fetching (w : Word) : State := { State.reset with stopped := false, scr := 10, store := State.reset.store.write 5 w }

theorem witness_DecodeOfEncode :
    (Instr.fn65Shift 4095).wellFormed = true ∧ (Instr.fn65Std 4096).wellFormed = true ∧ (Instr.fn77 8191).wellFormed = true := by decide

theorem witness_EveryWordIsExactlyOneInstruction :
    (Instr.fn65Std 4096).wellFormed = true ∧ encode (.fn65Std 4096) = 0b1101011000000000000#19 := by decide

theorem witness_FpSplitAndJoinAreInverse : (-2 ^ 29 : Int) ≤ -2 ^ 29 ∧ (-2 ^ 29 : Int) < 2 ^ 29 ∧ 511 < 512 := by decide

theorem witness_GroupZeroResults : started.Executing ∧ started.longFn = false := ⟨⟨rfl, rfl, rfl⟩, rfl⟩

theorem witness_GroupOneResults : (pair 5 3).Executing ∧ (pair 5 3).longFn = false := ⟨⟨rfl, rfl, by decide⟩, rfl⟩

theorem witness_GroupTwoResults : (pair (-1) 0).Executing ∧ (pair (-1) 0).longFn = false := ⟨⟨rfl, rfl, by decide⟩, rfl⟩

theorem witness_GroupThreeResults : (pair 0 (-1)).Executing ∧ (pair 0 (-1)).longFn = false := ⟨⟨rfl, rfl, by decide⟩, rfl⟩

/-- Each case: another address, a reserved address, a jump. -/
theorem witness_OnlyTheAddressedWordChanges :
    (∃ t, exec (.fn20 4) started = .next t ∧ 5 ≠ (4#13).toNat) ∧ (∃ t, exec (.fn20 3) started = .next t ∧ (3#13).toNat < 4) ∧
    (∃ t, exec (.fn40 4) State.reset = .next t ∧ (Instr.fn40 4).isJump = true) :=
  ⟨⟨_, rfl, by decide⟩, ⟨_, rfl, by decide⟩, ⟨_, rfl, by decide⟩⟩

/-- Each case: a reserved word, RESET, a stopped beat, a fetch without and with the clear-store wire, an execute beat. -/
theorem witness_WordTimeStoreFrame :
    (∃ t, step (executing (encode (.fn20 3))) = .next t) ∧
    (∃ t, step { started with wires := { Wires.quiet with reset := true } } = .next t) ∧
    (∃ t, step State.reset = .next t ∧ State.reset.fetching = true ∧ State.reset.stopped = true) ∧
    (∃ t, step (fetching 0) = .next t ∧ (fetching 0).fetching = true ∧ (fetching 0).wires.cs = false) ∧
    (∃ t, step { fetching 0 with wires := { Wires.quiet with cs := true } } = .next t ∧ 4 ≠ (scrWord (fetching 0).scr).toNat) ∧
    (∃ t, step (executing (encode (.fn20 4))) = .next t ∧ 5 ≠ (addressField (executing (encode (.fn20 4))).ir).toNat) := by
  have ok : ∀ o : Host.Outcome State Fault Refusal, field (fun _ => ()) o = some () → ∃ t, o = .next t := by
    intro o h
    cases o with
    | next t => exact ⟨t, rfl⟩
    | fault _ => exact nomatch h
    | refused _ => exact nomatch h
  refine ⟨ok _ (by decide), ok _ (by decide), ?_, ?_, ?_, ?_⟩
  · obtain ⟨t, h⟩ := ok (step State.reset) (by decide)
    exact ⟨t, h, rfl, rfl⟩
  · obtain ⟨t, h⟩ := ok (step (fetching 0)) (by decide)
    exact ⟨t, h, rfl, rfl⟩
  · obtain ⟨t, h⟩ := ok (step { fetching 0 with wires := { Wires.quiet with cs := true } }) (by decide)
    exact ⟨t, h, by decide⟩
  · obtain ⟨t, h⟩ := ok (step (executing (encode (.fn20 4)))) (by decide)
    exact ⟨t, h, by decide⟩

theorem witness_DoubleShiftBeat : started.Executing ∧ (0#13).toNat % 128 = 0 ∧ (127#13).toNat % 128 ≠ 0 := ⟨⟨rfl, rfl, rfl⟩, by decide⟩

theorem witness_SingleShiftBeat : started.Executing ∧ (ending 1 2 3).Executing ∧ (ending 1 2 3).longFn = true :=
  ⟨⟨rfl, rfl, rfl⟩, ⟨rfl, rfl, rfl⟩, rfl⟩

/-- Counts 0 and 127. -/
theorem witness_ShiftRightDoubleRun : (executing (encode (.fn50 0))).Inv ∧ (executing (encode (.fn50 127))).Inv ∧
    (executing (encode (.fn50 127))).NoReset ∧
    (executing (encode (.fn50 127))).fetching = false ∧ (executing (encode (.fn50 127))).longFn = false :=
  ⟨executing_inv (by decide), executing_inv (by decide), executing_noReset _, rfl, rfl⟩

theorem witness_ShiftRightSingleRun : (executing (encode (.fn51 0))).Inv ∧ (executing (encode (.fn51 127))).Inv ∧
    (executing (encode (.fn51 127))).NoReset ∧
    (executing (encode (.fn51 127))).fetching = false ∧ (executing (encode (.fn51 127))).longFn = false :=
  ⟨executing_inv (by decide), executing_inv (by decide), executing_noReset _, rfl, rfl⟩

theorem witness_ShiftLeftDoubleRun : (executing (encode (.fn54 0))).Inv ∧ (executing (encode (.fn54 127))).Inv ∧
    (executing (encode (.fn54 127))).NoReset ∧
    (executing (encode (.fn54 127))).fetching = false ∧ (executing (encode (.fn54 127))).longFn = false :=
  ⟨executing_inv (by decide), executing_inv (by decide), executing_noReset _, rfl, rfl⟩

theorem witness_ShiftLeftSingleRun : (executing (encode (.fn55 0))).Inv ∧ (executing (encode (.fn55 127))).Inv ∧
    (executing (encode (.fn55 127))).NoReset ∧
    (executing (encode (.fn55 127))).fetching = false ∧ (executing (encode (.fn55 127))).longFn = false :=
  ⟨executing_inv (by decide), executing_inv (by decide), executing_noReset _, rfl, rfl⟩

/-- On the last of several beats, and on the only beat when `MUL_BEATS` is 1. -/
theorem witness_MultiplyResults :
    ((ending 7 0 6).Executing ∧ (ending 7 0 6).lastBeat (ending 7 0 6).params.mulLast) ∧
    ({ started with params := { Params.default with mulLast := 0 } } : State).Executing ∧
    ({ started with params := { Params.default with mulLast := 0 } } : State).lastBeat 0 :=
  ⟨⟨⟨rfl, rfl, rfl⟩, rfl⟩, ⟨rfl, rfl, rfl⟩, rfl⟩

theorem witness_MultiplyRun : (executing (encode (.fn52 100))).Inv ∧ (executing (encode (.fn52 100))).NoReset ∧
    (executing (encode (.fn52 100))).fetching = false ∧ (executing (encode (.fn52 100))).longFn = false :=
  ⟨executing_inv (by decide), executing_noReset _, rfl, rfl⟩

/-- A divisor that is not 0, and a zero divisor. -/
theorem witness_DivideResults :
    ((ending 0 42 5).Executing ∧ (ending 0 42 5).lastBeat (ending 0 42 5).params.divLast ∧ signed ((ending 0 42 5).operandNow 100) ≠ 0) ∧
    (ending 0 7 0).lastBeat (ending 0 7 0).params.divLast ∧ signed ((ending 0 7 0).operandNow 100) = 0 :=
  ⟨⟨⟨rfl, rfl, rfl⟩, rfl, by decide⟩, rfl, by decide⟩

theorem witness_ReadArFastShiftAndNoOps : (regs 5 9).Executing ∧ (regs 5 9).longFn = false := ⟨⟨rfl, rfl, rfl⟩, rfl⟩

/-- The first beat is not the last: of 52, 53, 56, 60 to 63, of 64 with a divisor that is not 0, of 65. -/
theorem witness_LongFunctionsWaitForTheirLastBeat :
    (pair 5 3).Executing ∧ ¬ (pair 5 3).lastBeat (pair 5 3).params.mulLast ∧ ¬ (pair 5 3).lastBeat (pair 5 3).params.divLast ∧
    ¬ (pair 5 3).lastBeat 1 ∧ ¬ (pair 5 3).lastBeat 15 ∧ (¬ (pair 5 3).lastBeat 31 ∧ (pair 5 3).memRead 100 ≠ 0) ∧
    ¬ (pair 5 3).lastBeat (pair 5 3).params.stdLast := by
  have h : ∀ k : BitVec 7, (pair 5 3).lastBeat k ↔ k = 0 := fun k => Iff.rfl
  simp only [h]
  exact ⟨⟨rfl, rfl, by decide⟩, by decide⟩

/-- A result, and an overflow. -/
theorem witness_FloatResults :
    (fpEnding fp2 fp3).Executing ∧ fpStandard (fpEnding fp2 fp3).acc = true ∧ fpStandard ((fpEnding fp2 fp3).operandNow 100) = true ∧
    (fpEnding fp2 fp3).lastBeat 1 ∧ (fpEnding fp2 fp3).lastBeat 15 ∧ fpNum .halfUp .add fp2 fp3 = some fp5 ∧
    fpNum .halfUp .add fpBig fpBig = none :=
  ⟨⟨rfl, rfl, rfl⟩, by decide, by decide, rfl, rfl, by decide, by decide⟩

/-- The zero-word divisor and another on the first beat, and the last beat of a division. -/
theorem witness_FloatDivideResults :
    (started.Executing ∧ started.longFn = false ∧ started.memRead 314 = 0) ∧
    ((pair 5 3).Executing ∧ (pair 5 3).longFn = false ∧ (pair 5 3).memRead 100 ≠ 0) ∧
    ((fpEnding fp6 fp3).longFn = true ∧ (fpEnding fp6 fp3).t = 1 ∧ fpStandard (fpEnding fp6 fp3).acc = true ∧
      fpStandard (fpEnding fp6 fp3).mreg = true ∧ (fpEnding fp6 fp3).mreg ≠ 0) :=
  ⟨⟨⟨rfl, rfl, rfl⟩, rfl, by decide⟩, ⟨⟨rfl, rfl, by decide⟩, rfl, by decide⟩, rfl, rfl, by decide, by decide, by decide⟩

theorem witness_FloatOnUnnormalisedOperandsCompletes :
    (fpEnding 1 fp3).Executing ∧ fpStandard (fpEnding 1 fp3).acc = false ∧ (fpEnding 1 fp3).lastBeat 1 ∧ (fpEnding 1 fp3).lastBeat 15 ∧
    (fpEnding 1 fp3).longFn = true ∧ (fpEnding 1 fp3).t = 1 :=
  ⟨⟨rfl, rfl, rfl⟩, by decide, rfl, rfl, rfl, rfl⟩

theorem witness_StandardiseResults : (fpEnding 12345 0).Executing ∧ (fpEnding 12345 0).lastBeat (fpEnding 12345 0).params.stdLast :=
  ⟨⟨rfl, rfl, rfl⟩, rfl⟩

theorem witness_FloatResultsAreInStandardForm : (FpOp.div = .div → fpMant fp3 ≠ 0) ∧ fpNum .halfUp .div fp6 fp3 = some fp2 := by decide

theorem witness_RoundingKeepsRepresentableValues : fpStandard 0 = true ∧ fpStandard fpBig = true ∧ fpStandard fpMinus1 = true := by decide

theorem witness_FpRoundIsTheReference : (fpExact .div fp1 fp3).num ≠ 0 ∧ (fpExact .div fp1 fp3).den ≠ 0 := by decide

theorem witness_FpnumRoundsTheExactResult : fpMant fp3 ≠ 0 := by decide

/-- 2 + 3 = 5, 2 - 3 = -1, 2 * 3 = 6, 6 / 3 = 2, and the integer 2. -/
theorem witness_RepresentableResultsAreExact :
    (fpStandard fp5 = true ∧ ratVal fp5 = ratVal fp2 + ratVal fp3) ∧ (fpStandard fpMinus1 = true ∧ ratVal fpMinus1 = ratVal fp2 - ratVal fp3) ∧
    (fpStandard fp6 = true ∧ ratVal fp6 = ratVal fp2 * ratVal fp3) ∧
    (fpStandard fp2 = true ∧ fpMant fp3 ≠ 0 ∧ ratVal fp2 = ratVal fp6 / ratVal fp3) ∧ ratVal fp2 = (signed 2 : ℚ) := by
  have v : ∀ (w : Word) (m : Int) (e : Nat), fpMant w = m → fpExp w = e → ratVal w = (m : ℚ) * (2 : ℚ) ^ ((e : ℤ) - 256 - 29) := by
    intro w m e hm he
    rw [ratVal, hm, he]
  rw [v fp5 335544320 259 (by decide) (by decide), v fp2 268435456 258 (by decide) (by decide), v fp3 402653184 258 (by decide) (by decide),
    v fpMinus1 (-536870912) 256 (by decide) (by decide), v fp6 402653184 259 (by decide) (by decide), show signed 2 = 2 by decide]
  refine ⟨⟨by decide, ?_⟩, ⟨by decide, ?_⟩, ⟨by decide, ?_⟩, ⟨by decide, by decide, ?_⟩, ?_⟩ <;> norm_num [zpow_neg]

/-- Waiting under manual data, and reading. -/
theorem witness_WordGeneratorRead :
    started.fetching = false ∧ started.longFn = false ∧ started.store.wf = true ∧
    ({ Wires.quiet with md := true } : Wires).operate = false := ⟨rfl, rfl, rfl, rfl⟩

theorem witness_PeripheralTransfers :
    (started.fetching = false ∧ started.longFn = false ∧ started.store.wf = true ∧ started.wires.ready = false) ∧
    ({ started with wires := { Wires.quiet with ready := true } } : State).wires.ready = true := ⟨⟨rfl, rfl, rfl, rfl⟩, rfl⟩

theorem witness_LinkIsStored : ({ started with scr := 101 } : State).Executing ∧ ({ started with scr := 101 } : State).longFn = false :=
  ⟨⟨rfl, rfl, rfl⟩, rfl⟩

theorem witness_StallsAndTwoBeatNoOp :
    started.fetching = false ∧ started.store.wf = true ∧ started.longFn = false ∧ started.busy = false := ⟨rfl, rfl, rfl, rfl⟩

/-- 75, 76, 71 and 74 with no peripheral ready, 70 with manual data held. -/
theorem witness_StallsNeverEndWithoutReset :
    (∀ x, isJumpBits x = false → (executing x).Inv) ∧ (∀ x, (executing x).NoReset) ∧
    (executing (encode (.fn75 0))).PermanentStall ∧ (executing (encode (.fn76 8191))).PermanentStall ∧
    (executing (encode (.fn71 5))).PermanentStall ∧ (executing (encode (.fn74 0))).PermanentStall ∧
    (let s := { executing (encode (.fn70 0)) with wires := { Wires.quiet with md := true } }
     s.Inv ∧ s.NoReset ∧ s.PermanentStall) :=
  ⟨fun _ h => executing_inv h, executing_noReset, ⟨rfl, Or.inl (by decide)⟩, ⟨rfl, Or.inl (by decide)⟩,
    ⟨rfl, Or.inr (Or.inl ⟨by decide, rfl, fun _ h => nomatch h⟩)⟩, ⟨rfl, Or.inr (Or.inl ⟨by decide, rfl, fun _ h => nomatch h⟩)⟩,
    executing_inv_of (by decide), ⟨rfl, fun _ h => nomatch h⟩,
    ⟨rfl, Or.inr (Or.inr ⟨by decide, ⟨rfl, rfl⟩, fun _ h => nomatch h⟩)⟩⟩

/-- An execute beat, a jump at fetch, another function at fetch. -/
theorem witness_StepRunsTheDecodedInstruction :
    (started.wires.reset = false ∧ started.fetching = false ∧ (Instr.fn00 0).isJump = false ∧ started.ir = encode (.fn00 0) ∧
      ∃ t, exec (.fn00 0) { started with out := Outputs.quiet } = .next t) ∧
    ((Instr.fn40 7).isJump = true ∧ (fetching (packWord (encode (.fn40 7)) false 0)).fetched.ir = encode (.fn40 7) ∧
      ∃ t, exec (.fn40 7) (fetching (packWord (encode (.fn40 7)) false 0)).fetched = .next t) ∧
    ((Instr.fn04 7).isJump = false ∧ (fetching (packWord (encode (.fn04 7)) false 0)).fetched.ir = encode (.fn04 7)) :=
  ⟨⟨rfl, rfl, by decide, by decide, _, rfl⟩, ⟨by decide, by decide, _, rfl⟩, by decide, by decide⟩

/-- RESET outside a long function, in a shift, and in a multiplication. -/
theorem witness_ResetWire :
    let r := { Wires.quiet with reset := true }
    ({ started with wires := r } : State).longFn = false ∧
    fnField ({ ending 1 2 3 with ir := encode (.fn54 3), wires := r } : State).ir ∉ [42#6, 43#6, 46#6, 48#6, 49#6, 50#6, 51#6, 52#6, 53#6] ∧
    ({ ending 1 2 3 with ir := encode (.fn52 3), wires := r } : State).wires.reset = true := by decide

/-- The four actions of a stopped beat, Obey on a jump and on another function. -/
theorem witness_ConsoleActions :
    (State.reset.wires.reset = false ∧ State.reset.fetching = true ∧ State.reset.stopped = true ∧ State.reset.wires.operate = false) ∧
    ({ Wires.quiet with operate := true, ron := .obey, f1 := 32 } : Wires).f1.toNat / 8 = 4 ∧
    ({ Wires.quiet with operate := true, ron := .obey, f1 := 31 } : Wires).f1.toNat / 8 ≠ 4 := by decide

theorem witness_StoppedIsASteadyState : State.reset.isStopped = true ∧ State.reset.ConsoleQuiet :=
  ⟨rfl, rfl, fun _ h => nomatch h⟩

/-- The selected stop may be set for another word; the first conclusion holds with a RESET yet to come. -/
theorem witness_JumpToItselfIsADynamicStop :
    let s := { fetching (packWord (encode (.fn40 5)) false 0) with wires := { Wires.quiet with ss := true, n1 := 6 } }
    (s.fetching = true ∧ s.stopped = false ∧ s.scr.toNat = 2 * (5#13).toNat ∧
      firstHalf (s.store.read (5#13).toNat) = encode (.fn40 5)) ∧
    (let r := s.withWires { Wires.quiet with reset := true } []
     r.fetching = true ∧ r.stopped = false ∧ r.scr.toNat = 2 * (5#13).toNat ∧
      firstHalf (r.store.read (5#13).toNat) = encode (.fn40 5)) ∧
    s.Always (fun w => w.reset = false ∧ w.cs = false ∧ (w.ss = true → w.n1 ≠ 5#13)) :=
  ⟨by decide, by decide, ⟨rfl, rfl, by decide⟩, fun _ h => nomatch h⟩

/-- There are wires with the console at rest, so that a dynamic stop says something of every state. -/
theorem test_console_at_rest :
    Wires.quiet.consoleAtRest = true ∧ ({ Wires.quiet with md := true, ready := true, trlines := 31, ron := .obey } : Wires).consoleAtRest = true ∧
    ({ Wires.quiet with ss := true } : Wires).consoleAtRest = false := by decide

/-- A loop that is left on its second pass is no dynamic stop: with `OFLOW` set `43 5` at word 5 is taken once. -/
theorem test_overflow_loop_is_left :
    let s := { fetching (packWord (encode (.fn43 5)) false 0) with oflow := true }
    field (fun t => (t.scr, t.oflow)) (Sys2Proof.core.run 1 s) = some (10, false) ∧
    field (·.scr) (Sys2Proof.core.run 2 s) = some 11 := by decide

theorem witness_PowerOnWithAnImage : (List.replicate 65536 1#8).length = 65536 := List.length_replicate

/-- The eight bytes of a word, the least significant at the lowest offset, bits above 38 ignored (R76). -/
theorem test_image_byte_order :
    (loadImage ((List.replicate 32 0#8) ++ [1, 2, 3, 4, 133, 6, 7, 8])).read 4 = 21542142465#39 := by decide

theorem witness_EveryStepKeepsTheInvariant : State.reset.Inv ∧ ∃ t, step State.reset = .next t :=
  ⟨⟨rfl, fun _ _ => rfl, by decide, rfl, (fun h => nomatch h), (fun h => nomatch h), rfl, (fun h => nomatch h), (fun h => nomatch h),
    (fun h => nomatch h)⟩, _, rfl⟩

theorem witness_TheMachineNeverFaults : (executing (encode (.fn77 0))).Inv := executing_inv (by decide)

theorem witness_FlagsDescribeTheAccumulator :
    ∃ t, step (fetching 0) = .next t ∧ ({ fetching 0 with z := true } : State).FlagsDescribeAcc ∧ started.fetching = false ∧
      (fetching 0).wires.reset = false :=
  ⟨_, rfl, ⟨rfl, rfl⟩, rfl, rfl⟩

/-- A jump 43 in a fetch clears `OFLOW`. -/
theorem witness_OverflowIsSticky :
    field (·.oflow) (step { fetching (packWord (encode (.fn43 7)) false 0) with oflow := true }) = some false := by decide

/-- Operate in Normal clears `S`; RESET clears `FPO`; 64 on a zero divisor sets both. -/
theorem witness_StopAndFpoChangeOnlyByTheirRules :
    field (·.stopped) (step { State.reset with wires := { Wires.quiet with operate := true } }) = some false ∧
    field (·.fpo) (step { State.reset with fpo := true, wires := { Wires.quiet with reset := true } }) = some false ∧
    field (·.fpo) (step (executing (encode (.fn64 314)))) = some true := by decide

theorem witness_FetchPhaseKeepsTheRegisters :
    (∃ t, step (fetching 0) = .next t) ∧ (fetching 0).fetching = true ∧ (fetching 0).wires.reset = false := ⟨⟨_, rfl⟩, rfl, rfl⟩

theorem witness_ExecuteBeatFrame :
    field (fun _ => ()) (step (executing (encode (.fn04 4)))) = some () ∧ (executing (encode (.fn04 4))).fetching = false ∧
    (executing (encode (.fn04 4))).wires.reset = false := by decide

theorem witness_CoreImageRoundTrip : Store.wf [(4, 1)] = true ∧ ∀ a : Nat, a < 4 → Store.read [(4, 1)] a = Store.initial a := by decide

/-- One idle word-time, with the clear-store button held, then the operate event in Normal. -/
theorem witness_PowerOnIsIdle :
    let start := { Wires.quiet with operate := true }
    let held := { Wires.quiet with cs := true, ron := .obey }
    (none : Option (List (BitVec 8))) = none ∧ (List.replicate 65536 1#8).length = 65536 ∧
    held :: [start, Wires.quiet] = [held] ++ start :: Wires.quiet :: [] ∧ (held.reset = false ∧ held.operate = false) ∧
    start.reset = false ∧ start.operate = true ∧ start.ron = .normal ∧ Wires.quiet.reset = false :=
  ⟨rfl, List.length_replicate, rfl, ⟨rfl, rfl⟩, rfl, rfl, rfl, rfl⟩

theorem witness_PlacedInstructionRunsNext : 19 ≤ 24 ∧ 2 ^ 19 - 1 < 2 ^ 19 := by decide

end Sys2Proof.Tests
end

/-! SUPPORT. What one word-time can do, said once: RESET, the fetch phase (stopped or running), or an execute beat. Every statement about
a step of the machine is a case analysis over `StepCase`. -/

namespace Sys2Proof.Machine

open Sys2Proof

/-! ### The store between two word-times -/

/-- The store stays in its canonical form and keeps the bootstrap words (R63, R75). -/
structure StoreKept (m m' : Store) : Prop where
  wf : m.wf = true → m'.wf = true
  low : ∀ a : Nat, a < reservedLow → m'.read a = m.read a

theorem storeKept_refl (m : Store) : StoreKept m m := ⟨id, fun _ _ => rfl⟩

theorem storeKept_fetched (s : State) : StoreKept s.store s.fetched.store :=
  ⟨fetched_wf, fun a ha => fetched_store_read s a (Or.inl ha)⟩

/-- The read and the write-back of an execute beat, at the same address. -/
theorem storeKept_finish {s u : State} (n : Address) (w : Word) (hu : u.store = (s.clearOnRead n).store) :
    StoreKept s.store (u.finish n w).store := by
  refine ⟨finish_wf n w hu, fun a ha => finish_store_read n w hu a ?_⟩
  unfold reservedLow at ha
  omega

/-! ### The fetch phase -/

/-- What a word-time of the fetch phase without RESET keeps, with the console or without (R295 to R304). -/
structure FetchPhaseKeeps (s u : State) : Prop where
  frame : u = { s with
    scr := u.scr, ir := u.ir, modPending := u.modPending, oflow := u.oflow, fetching := u.fetching, stopped := u.stopped
    store := u.store, out := .quiet }
  store : StoreKept s.store u.store
  /-- only an instruction that is no jump goes on to the execute phase (R303) -/
  noJumpWaits : u.fetching = false → isJumpBits u.ir = false
  /-- only 43 and 47 clear it (R176) -/
  oflowCleared : s.oflow = true → u.oflow = false → fnField u.ir = 35#6 ∨ fnField u.ir = 39#6
  /-- only Operate in Normal clears it (R296) -/
  stopCleared : s.stopped = true → u.stopped = false → s.wires.operate = true ∧ s.wires.ron = .normal

/-- `Decode` (R303) at the end of a beat that has left `R` and `OFLOW` alone. -/
theorem FetchPhaseKeeps.decodeBeat {s v u : State} (hv : FetchPhaseKeeps s v) (hf : v.fetching = true) (ho : v.oflow = s.oflow)
    (hd : decodeBeat v = .next u) : FetchPhaseKeeps s u := by
  obtain ⟨hframe, hstore, -, -, hstop⟩ := hv
  rcases decodeBeat_cases v with ⟨hj, he⟩ | ⟨-, scr, m, o, he, hoflow⟩
  · cases he.symm.trans hd
    exact ⟨by rw [hframe], hstore, fun _ => hj, (fun h1 h2 => nomatch h1.symm.trans (ho.symm.trans h2)), hstop⟩
  · cases he.symm.trans hd
    refine ⟨by rw [hframe], hstore, (fun h => nomatch hf.symm.trans h), fun h1 h2 => ?_, hstop⟩
    rcases hoflow with h | ⟨-, h⟩
    · exact nomatch h1.symm.trans (ho.symm.trans (h.symm.trans h2))
    · exact h

/-- A change of no more than `IR`, `M`, `S` and the store before `Decode`: `R` and `OFLOW` are as they were. -/
theorem fetchPhaseKeeps_of_fetching {s v : State} (hf : s.fetching = true)
    (hv : v = { s with ir := v.ir, modPending := v.modPending, stopped := v.stopped, store := v.store, out := .quiet })
    (hm : StoreKept s.store v.store)
    (hs : s.stopped = true → v.stopped = false → s.wires.operate = true ∧ s.wires.ron = .normal) : FetchPhaseKeeps s v := by
  have hvf : v.fetching = true := by rw [hv, hf]
  have hvo : v.oflow = s.oflow := by rw [hv]
  refine ⟨by rw [hv], hm, (fun h => nomatch hvf.symm.trans h), fun h1 h2 => ?_, hs⟩
  exact nomatch h1.symm.trans (hvo.symm.trans h2)

/-- The stopped beat (R295, R296). -/
theorem stoppedBeat_keeps {s u : State} (hf : s.fetching = true) (h : stoppedBeat s.quietOutputs = .next u) :
    FetchPhaseKeeps s u := by
  have kept : s.stopped = true → s.stopped = false → s.wires.operate = true ∧ s.wires.ron = .normal :=
    fun h1 h2 => nomatch h1.symm.trans h2
  have loaded : FetchPhaseKeeps s s.quietOutputs.loadButtons := fetchPhaseKeeps_of_fetching hf rfl (storeKept_refl _) kept
  rcases stoppedBeat_cases s.quietOutputs with he | ⟨hop, hron, he⟩ | ⟨-, -, he⟩ | ⟨-, -, he⟩
  · cases he.symm.trans h
    exact fetchPhaseKeeps_of_fetching hf rfl (storeKept_refl _) kept
  · cases he.symm.trans h
    exact fetchPhaseKeeps_of_fetching hf rfl (storeKept_refl _) (fun _ _ => ⟨hop, hron⟩)
  · cases he.symm.trans h
    exact loaded
  · exact loaded.decodeBeat hf rfl (he.symm.trans h)

/-- The fetch beat of the running machine (R300). -/
theorem fetchBeat_keeps {s u : State} (hf : s.fetching = true) (hs : s.stopped = false)
    (h : decodeBeat s.quietOutputs.fetched = .next u) : FetchPhaseKeeps s u := by
  have fetched : FetchPhaseKeeps s s.quietOutputs.fetched :=
    fetchPhaseKeeps_of_fetching hf rfl (storeKept_fetched _) (fun h1 => nomatch h1.symm.trans hs)
  exact fetched.decodeBeat hf rfl h

/-! ### The execute beat -/

/-- `L` and `B` after an execute beat (R307, R308): outside `Sequence` `T` and `L` are left alone; a sequenced beat leaves `B` alone and
sets `L` while beats are to come. -/
def PhaseFlags (s u : State) : Prop :=
  (stallFunction s.ir = true ∧ u.longFn = s.longFn ∧ u.t = s.t) ∨
  (stallFunction s.ir = false ∧ u.busy = s.busy ∧ u.longFn = (u.t != 0))

/-- What an execute beat keeps, whatever the instruction (R307 to R311). -/
structure ExecuteBeatKeeps (s u : State) : Prop where
  frame : u = { u with ir := s.ir, modPending := s.modPending, parity := s.parity, wires := s.wires, feed := s.feed, params := s.params }
  store : StoreKept s.store u.store
  arSign : s.ar.getLsbD 38 = false → u.ar.getLsbD 38 = false
  flags : u.FlagsDescribeAcc
  /-- `Advance`: the phase ends when neither `L` nor `B` holds it (R311) -/
  fetching : u.fetching = (s.fetching || !(u.longFn || u.busy))
  phase : PhaseFlags s u
  oflow : s.oflow = true → u.oflow = true
  stopped : s.stopped = true → u.stopped = true
  fpo : s.fpo = true → u.fpo = true
  /-- `FPO` is never set without `S` (R342) -/
  fpoStops : s.fpo = false → u.fpo = true → u.stopped = true

/-- A beat through `Sequence` (R308). -/
theorem finish_sequenced_keeps {s u : State} (n : Address) (k : Word → BitVec 7) (latch : Bool) (w : Word)
    (hs : stallFunction s.ir = false) (hu : SequencedKeeps (s.begun n k latch) u) : ExecuteBeatKeeps s (u.finish n w) := by
  obtain ⟨hframe, har, hoflow, hstopped, hfpo, hfpoStops⟩ := hu
  unfold HandlerKeeps at hframe
  have hstore : u.store = (s.clearOnRead n).store := by rw [hframe]; rfl
  have hfetching : u.fetching = s.fetching := by rw [hframe]; rfl
  have hbusy : u.busy = s.busy := by rw [hframe]; rfl
  have hlong : u.longFn = (u.t != 0) := by rw [hframe]; rfl
  exact
    { frame := by rw [hframe]; rfl
      store := storeKept_finish n w hstore
      arSign := har
      flags := ⟨rfl, rfl⟩
      fetching := by rw [State.finish_fetching, hfetching]; rfl
      phase := .inr ⟨hs, hbusy, hlong⟩
      oflow := hoflow, stopped := hstopped, fpo := hfpo, fpoStops := hfpoStops }

/-- A beat outside `Sequence` (R307). -/
theorem finish_io_keeps {s u : State} (n : Address) (w : Word) (hs : stallFunction s.ir = true)
    (hu : IoKeeps { s.clearOnRead n with lastWt := false } u) : ExecuteBeatKeeps s (u.finish n w) := by
  unfold IoKeeps at hu
  have hstore : u.store = (s.clearOnRead n).store := by rw [hu]
  have har : u.ar = s.ar := by rw [hu]; rfl
  have hfetching : u.fetching = s.fetching := by rw [hu]; rfl
  have hoflow : u.oflow = s.oflow := by rw [hu]; rfl
  have hstopped : u.stopped = s.stopped := by rw [hu]; rfl
  have hfpo : u.fpo = s.fpo := by rw [hu]; rfl
  exact
    { frame := by rw [hu]; rfl
      store := storeKept_finish n w hstore
      arSign := fun h => har ▸ h
      flags := ⟨rfl, rfl⟩
      fetching := by rw [State.finish_fetching, hfetching]; rfl
      phase := .inl ⟨hs, by rw [hu]; rfl, by rw [hu]; rfl⟩
      oflow := hoflow.trans, stopped := hstopped.trans, fpo := hfpo.trans
      fpoStops := fun h1 h2 => nomatch h1.symm.trans (hfpo.symm.trans h2) }

/-- The beat of an instruction that is no jump. -/
theorem exec_keeps {s u : State} (hj : isJumpBits s.ir = false) (h : exec (decode s.ir) s = .next u) : ExecuteBeatKeeps s u := by
  rcases exec_cases (decode s.ir) s with ⟨_, _, _, hj', -, -, -⟩ | ⟨k, latch, v, w, -, hs, hv, he⟩ | ⟨v, -, hs, hv, he⟩
  · exact nomatch hj'.symm.trans ((decode_isJump s.ir).trans hj)
  · cases he.symm.trans h
    exact finish_sequenced_keeps _ k latch w ((decode_stall s.ir).symm.trans hs) hv
  · cases he.symm.trans h
    exact finish_io_keeps _ _ ((decode_stall s.ir).symm.trans hs) hv

/-- The execute beat, which is of no jump (R307). -/
theorem executeBeat_keeps {s u : State} (h : executeBeat s = .next u) : isJumpBits s.ir = false ∧ ExecuteBeatKeeps s u := by
  cases hj : isJumpBits s.ir
  · exact ⟨rfl, exec_keeps hj ((executeBeat_plain hj).symm.trans h)⟩
  · simp [executeBeat, hj] at h

/-! ### The step -/

/-- The three kinds of a word-time from `s` to `u`, the wires not yet changed (R290). -/
inductive StepCase (s u : State) : Prop where
  | reset (hr : s.wires.reset = true) (hu : u = resetBeat s.quietOutputs)
  | fetch (hr : s.wires.reset = false) (hf : s.fetching = true) (hu : FetchPhaseKeeps s u)
  | execute (hr : s.wires.reset = false) (hf : s.fetching = false) (hj : isJumpBits s.ir = false)
      (hu : ExecuteBeatKeeps s.quietOutputs u)

/-- Every step is one of them, followed by the environment's change of the wires. -/
theorem step_cases {s t : State} (h : step s = .next t) : ∃ u, t = u.nextWires ∧ StepCase s u := by
  obtain ⟨u, hu, rfl⟩ := wordTime_of_step h
  refine ⟨u, rfl, ?_⟩
  cases hr : s.wires.reset
  · cases hf : s.fetching
    · obtain ⟨hj, hk⟩ := executeBeat_keeps ((wordTime_execute hr hf).symm.trans hu)
      exact .execute hr hf hj hk
    · cases hs : s.stopped
      · exact .fetch hr hf (fetchBeat_keeps hf hs ((wordTime_fetch hr hf hs).symm.trans hu))
      · exact .fetch hr hf (stoppedBeat_keeps hf ((wordTime_stopped hr hf hs).symm.trans hu))
  · exact .reset hr (Host.Outcome.next.inj (hu.symm.trans (wordTime_reset hr)))

end Sys2Proof.Machine

/-! SUPPORT. The invariant of the machine's states and what a word-time does to the flags (`10_state.md` R30 to R40). -/

namespace Sys2Proof.Machine

open Sys2Proof

/-! ### The invariant, one kind of word-time at a time -/

/-- The invariant does not speak of the wires, out or in. -/
theorem State.Inv.rewire {s : State} (h : s.Inv) (o : Outputs) (b : Wires) (f : List Wires) :
    ({ s with out := o, wires := b, feed := f } : State).Inv :=
  { storeWf := h.storeWf, bootWords := h.bootWords, arSign := h.arSign, parityTrue := h.parityTrue
    longExecutes := h.longExecutes, busyExecutes := h.busyExecutes, counter := h.counter, noJumpExecutes := h.noJumpExecutes
    busyStalls := h.busyStalls, longSequenced := h.longSequenced }

theorem State.Inv.quietOutputs {s : State} (h : s.Inv) : s.quietOutputs.Inv := h.rewire .quiet s.wires s.feed

theorem State.Inv.nextWires {s : State} (h : s.Inv) : s.nextWires.Inv :=
  h.rewire s.out (s.feed.headD { s.wires with operate := false }) s.feed.tail

/-- RESET leaves `AR[38]` 0, also where it makes `AR` a free value (U1). -/
theorem resetBeat_arSign {s : State} (h : s.ar.getLsbD 38 = false) : (resetBeat s).ar.getLsbD 38 = false := by
  have free : ∀ w : Word, (0#1 ++ w.extractLsb' 0 38 : BitVec (1 + 38)).getLsbD 38 = false := by
    intro w
    rw [BitVec.getLsbD_append]
    simp
  simp only [resetBeat, State.cutOff]
  split
  · exact free _
  · exact h

/-- RESET leaves the fetch phase with `T` 0 and `L`, `B` false (R293). -/
theorem State.Inv.resetBeat {s : State} (h : s.Inv) : (resetBeat s).Inv :=
  { storeWf := h.storeWf, bootWords := h.bootWords, arSign := resetBeat_arSign h.arSign, parityTrue := rfl
    longExecutes := nofun, busyExecutes := nofun, counter := rfl
    noJumpExecutes := nofun, busyStalls := nofun, longSequenced := nofun }

/-- The fetch phase is entered with `L` and `B` false and leaves them so. -/
theorem State.Inv.fetchPhase {s u : State} (h : s.Inv) (hf : s.fetching = true) (hu : FetchPhaseKeeps s u) : u.Inv := by
  have hlong : u.longFn ≠ true := by
    rw [hu.frame]
    exact fun hl => nomatch hf.symm.trans (h.longExecutes hl)
  have hbusy : u.busy ≠ true := by
    rw [hu.frame]
    exact fun hb => nomatch hf.symm.trans (h.busyExecutes hb)
  exact
    { storeWf := hu.store.wf h.storeWf
      bootWords := fun a ha => (hu.store.low a ha).trans (h.bootWords a ha)
      arSign := by rw [hu.frame]; exact h.arSign
      parityTrue := by rw [hu.frame]; exact h.parityTrue
      longExecutes := fun hl => absurd hl hlong
      busyExecutes := fun hb => absurd hb hbusy
      counter := by rw [hu.frame]; exact h.counter
      noJumpExecutes := hu.noJumpWaits
      busyStalls := fun hb => absurd hb hbusy
      longSequenced := fun hl => absurd hl hlong }

/-- `L` counts `T`, and `L` and `B` keep to their own functions (R307, R308): a sequenced function is never met with `B` set, nor one
outside `Sequence` with `L` set. -/
theorem State.Inv.phaseFlags {s u : State} (h : s.Inv) (hp : PhaseFlags s u) :
    u.longFn = (u.t != 0) ∧ (u.busy = true → stallFunction s.ir = true) ∧ (u.longFn = true → stallFunction s.ir = false) := by
  rcases hp with ⟨hs, hl, ht⟩ | ⟨hs, hb, hl⟩
  · refine ⟨by rw [hl, ht]; exact h.counter, fun _ => hs, fun hu => h.longSequenced (hl.symm.trans hu)⟩
  · exact ⟨hl, fun hu => h.busyStalls (hb.symm.trans hu), fun _ => hs⟩

/-- An execute beat stays in the execute phase exactly while `L` or `B` is true (R311). -/
theorem State.Inv.executeBeat {s u : State} (h : s.Inv) (hf : s.fetching = false) (hj : isJumpBits s.ir = false)
    (hu : ExecuteBeatKeeps s u) : u.Inv := by
  obtain ⟨hcounter, hbusy, hlong⟩ := h.phaseFlags hu.phase
  have hir : u.ir = s.ir := by rw [hu.frame]
  have hphase : u.fetching = !(u.longFn || u.busy) := by rw [hu.fetching, hf, Bool.false_or]
  exact
    { storeWf := hu.store.wf h.storeWf
      bootWords := fun a ha => (hu.store.low a ha).trans (h.bootWords a ha)
      arSign := hu.arSign h.arSign
      parityTrue := by rw [hu.frame]; exact h.parityTrue
      longExecutes := fun hl => by simp [hphase, hl]
      busyExecutes := fun hb => by simp [hphase, hb]
      counter := hcounter
      noJumpExecutes := fun _ => hir ▸ hj
      busyStalls := fun hb => hir ▸ hbusy hb
      longSequenced := fun hl => hir ▸ hlong hl }

/-! ### The obligations -/

/-- Settles O51, one kind of word-time at a time. -/
theorem everyStepKeepsTheInvariant : Obligations.EveryStepKeepsTheInvariant := by
  intro s t hs h
  obtain ⟨u, rfl, hc⟩ := step_cases h
  apply State.Inv.nextWires
  cases hc with
  | reset _ hu => exact hu ▸ hs.quietOutputs.resetBeat
  | fetch _ hf hu => exact hs.fetchPhase hf hu
  | execute _ hf hj hu => exact hs.quietOutputs.executeBeat hf hj hu

/-- Settles O53: the fetch phase touches neither `ACC` nor the two flags, and `EndOfBeat` (R310) computes them. -/
theorem flagsDescribeTheAccumulator : Obligations.FlagsDescribeTheAccumulator := by
  intro s t h hnr
  obtain ⟨u, rfl, hc⟩ := step_cases h
  cases hc with
  | reset hr _ => exact nomatch hr.symm.trans hnr
  | fetch _ hf hu =>
    refine ⟨fun hs => ?_, fun he => nomatch hf.symm.trans he⟩
    rw [hu.frame]
    exact hs
  | execute _ _ _ hu => exact ⟨fun _ => hu.flags, fun _ => hu.flags⟩

/-- Settles O54: an execute beat only ever sets `OFLOW`, and a fetch-phase beat that clears it holds 43 or 47. -/
theorem overflowIsSticky : Obligations.OverflowIsSticky := by
  intro s t h hs ht
  obtain ⟨u, rfl, hc⟩ := step_cases h
  cases hc with
  | reset hr _ => exact .inl hr
  | fetch _ hf hu => exact .inr ⟨hf, hu.oflowCleared hs ht⟩
  | execute _ _ _ hu => exact nomatch (hu.oflow hs).symm.trans ht

/-- Settles O55: RESET sets `S` and clears `FPO`, the fetch phase keeps `FPO`, and an execute beat only ever sets the two flags. -/
theorem stopAndFpoChangeOnlyByTheirRules : Obligations.StopAndFpoChangeOnlyByTheirRules := by
  intro s t h
  obtain ⟨u, rfl, hc⟩ := step_cases h
  cases hc with
  | reset hr hu =>
    subst hu
    exact ⟨fun _ ht => by contradiction, fun _ _ => hr, fun _ ht => by contradiction⟩
  | fetch hr hf hu =>
    have hfpo : u.fpo = s.fpo := by rw [hu.frame]
    refine ⟨fun hs ht => ⟨hr, hf, hu.stopCleared hs ht⟩, fun hs ht => ?_, fun hs ht => ?_⟩
    · exact nomatch hs.symm.trans (hfpo.symm.trans ht)
    · exact nomatch hs.symm.trans (hfpo.symm.trans ht)
  | execute _ hf _ hu =>
    refine ⟨fun hs ht => ?_, fun hs ht => ?_, fun hs ht => ⟨hu.fpoStops hs ht, hf⟩⟩
    · exact nomatch (hu.stopped hs).symm.trans ht
    · exact nomatch (hu.fpo hs).symm.trans ht

/-- Settles O57 from the frame of each kind of word-time. -/
theorem executeBeatFrame : Obligations.ExecuteBeatFrame := by
  intro s t h
  obtain ⟨u, rfl, hc⟩ := step_cases h
  cases hc with
  | reset hr hu =>
    subst hu
    exact ⟨rfl, rfl, fun _ hnr => nomatch hr.symm.trans hnr⟩
  | fetch _ hf hu =>
    rw [hu.frame]
    exact ⟨rfl, rfl, fun he => nomatch hf.symm.trans he⟩
  | execute _ _ _ hu =>
    rw [hu.frame]
    exact ⟨rfl, rfl, fun _ _ => ⟨rfl, rfl, rfl⟩⟩

/-- Settles O49: every clause at the power-on values (R50), the bootstrap words being what an unlisted address reads as. -/
theorem powerOnMeetsTheInvariant : Obligations.PowerOnMeetsTheInvariant :=
  { storeWf := State.reset_store_wf, bootWords := fun _ _ => rfl, arSign := by decide, parityTrue := rfl
    longExecutes := nofun, busyExecutes := nofun, counter := rfl
    noJumpExecutes := nofun, busyStalls := nofun, longSequenced := nofun }

end Sys2Proof.Machine

/-! SUPPORT. What a word-time leaves unchanged in the store (`20_memory.md` R60 to R75). -/

namespace Sys2Proof.Machine

open Sys2Proof

/-! ### The store in one instruction -/

/-- Settles O13: `MemRead` (R62, R75) masks the store word in one condition, which is split here into the two rules. -/
theorem operandReads : Obligations.OperandReads := by
  intro n s
  simp only [State.memRead, reserved_eq]
  by_cases hn : n.toNat < 4
  · simp [hn]
  · cases hcs : s.wires.cs <;> simp [hn]

/-- Settles O14: a jump writes no word (R170), and every other beat ends in the write-back to the instruction's address. -/
theorem onlyTheAddressedWordChanges : Obligations.OnlyTheAddressedWordChanges := by
  intro i s t a h hframe
  have written : i.isJump = false → a ≠ i.address.toNat ∨ i.address.toNat < 4 := by
    intro hj
    simpa [hj] using hframe
  rcases exec_cases i s with ⟨scr, m, o, -, he, -, -⟩ | ⟨k, latch, u, w, hj, -, hu, he⟩ | ⟨u, hj, -, hu, he⟩
  · cases he.symm.trans h
    rfl
  · cases he.symm.trans h
    have hstore : u.store = (s.clearOnRead i.address).store := by rw [hu.frame]; rfl
    exact finish_store_read _ w hstore a (written hj)
  · cases he.symm.trans h
    have hstore : u.store = (s.clearOnRead i.address).store := by rw [hu]
    exact finish_store_read _ _ hstore a (written hj)

/-! ### The store in one word-time -/

/-- `Decode` (R303) leaves the store alone, also where it carries out a jump. -/
theorem decodeBeat_store {s u : State} (h : decodeBeat s = .next u) : u.store = s.store := by
  rcases decodeBeat_cases s with ⟨-, he⟩ | ⟨-, scr, m, o, he, -⟩
  · cases he.symm.trans h
    rfl
  · cases he.symm.trans h
    rfl

/-- The console reaches `S`, `IR` and `M`, not the store (R296). -/
theorem stoppedBeat_store {s u : State} (h : stoppedBeat s = .next u) : u.store = s.store := by
  rcases stoppedBeat_cases s with he | ⟨-, -, he⟩ | ⟨-, -, he⟩ | ⟨-, -, he⟩
  · cases he.symm.trans h
    rfl
  · cases he.symm.trans h
    rfl
  · cases he.symm.trans h
    rfl
  · exact decodeBeat_store (s := s.loadButtons) (he.symm.trans h)

/-- Where a word-time from `s` to `u` can write the store: not at all under RESET and in the stopped machine, at `SCR` in the fetch of the
running machine (R75), and by the instruction in `IR` in an execute beat (R67). -/
inductive StoreCase (s u : State) : Prop where
  | kept (hu : u.store = s.store)
  | fetch (hr : s.wires.reset = false) (hs : s.stopped = false) (hf : s.fetching = true) (hu : u.store = s.fetched.store)
  | execute (hr : s.wires.reset = false) (hf : s.fetching = false) (hu : exec (decode s.ir) s.quietOutputs = .next u)

theorem wordTime_storeCase {s u : State} (h : wordTime s = .next u) : StoreCase s u := by
  cases hr : s.wires.reset
  · cases hf : s.fetching
    · have he := (wordTime_execute hr hf).symm.trans h
      have hj := (executeBeat_keeps he).1
      exact .execute hr hf ((executeBeat_plain hj).symm.trans he)
    · cases hs : s.stopped
      · exact .fetch hr hs hf (decodeBeat_store (s := s.quietOutputs.fetched) ((wordTime_fetch hr hf hs).symm.trans h))
      · exact .kept (stoppedBeat_store (s := s.quietOutputs) ((wordTime_stopped hr hf hs).symm.trans h))
  · cases (wordTime_reset hr).symm.trans h
    exact .kept rfl

/-- Settles O15: the fetch writes at most the word at `SCR`, and the execute beat is an instruction of O14 with the address of `IR`. -/
theorem wordTimeStoreFrame : Obligations.WordTimeStoreFrame := by
  intro s t a h hframe
  obtain ⟨u, hu, rfl⟩ := wordTime_of_step h
  rw [State.nextWires_store]
  rcases wordTime_storeCase hu with hu | ⟨hr, hs, hf, hu⟩ | ⟨hr, hf, hu⟩
  · rw [hu]
  · rw [hu]
    apply fetched_store_read
    simpa [hr, hs, hf] using hframe
  · have hother : a < 4 ∨ a ≠ (addressField s.ir).toNat := by simpa [hr, hf] using hframe
    refine onlyTheAddressedWordChanges _ s.quietOutputs u a hu ?_
    rw [(decode_fields s.ir).2]
    omega

end Sys2Proof.Machine

/-! SUPPORT. The core image file (`20_memory.md` R76): its containers, its bytes, and that loading a saved store gives the store back. -/

namespace Sys2Proof.Machine

open Sys2Proof

/-! ### The canonical form determines the store -/

theorem Store.wfFrom_cons {lo a : Nat} {w : Word} {m : Store} :
    Store.wfFrom lo ((a, w) :: m) = true ↔ lo ≤ a ∧ a < storeWords ∧ w ≠ Store.initial a ∧ m.wfFrom (a + 1) = true := by
  simp [Store.wfFrom, and_assoc]

theorem Store.read_cons_same (a : Nat) (w : Word) (m : Store) : Store.read ((a, w) :: m) a = w := by simp [Store.read]

theorem Store.read_cons_other {a b : Nat} (w : Word) (m : Store) (h : b ≠ a) : Store.read ((a, w) :: m) b = m.read b := by
  simp [Store.read, h]

/-- Addresses beyond the store are not listed. -/
theorem Store.read_beyond {m : Store} {lo a : Nat} (h : m.wfFrom lo = true) (ha : storeWords ≤ a) :
    m.read a = Store.initial a := by
  induction m generalizing lo with
  | nil => rfl
  | cons p rest ih =>
    obtain ⟨b, w⟩ := p
    obtain ⟨-, hb, -, hrest⟩ := Store.wfFrom_cons.mp h
    rw [Store.read_cons_other w rest (by omega)]
    exact ih hrest

/-- The first listed address is one that every store listing only higher addresses reads differently. -/
theorem Store.read_head_ne {m m' : Store} {lo a : Nat} {w : Word} (h : Store.wfFrom lo ((a, w) :: m) = true)
    (h' : m'.wfFrom (a + 1) = true) : Store.read ((a, w) :: m) a ≠ m'.read a := by
  obtain ⟨-, -, hw, -⟩ := Store.wfFrom_cons.mp h
  rwa [Store.read_cons_same, Store.read_below h' (Nat.lt_succ_self a)]

/-- Two stores in canonical form that read alike at every address are the same list. -/
theorem Store.ext_of_wfFrom {m m' : Store} {lo lo' : Nat} (h : m.wfFrom lo = true) (h' : m'.wfFrom lo' = true)
    (hread : ∀ a, m.read a = m'.read a) : m = m' := by
  induction m generalizing m' lo lo' with
  | nil =>
    cases m' with
    | nil => rfl
    | cons q rest' => exact absurd (hread q.1).symm (Store.read_head_ne h' rfl)
  | cons p rest ih =>
    cases m' with
    | nil => exact absurd (hread p.1) (Store.read_head_ne h rfl)
    | cons q rest' =>
      obtain ⟨a, w⟩ := p
      obtain ⟨b, v⟩ := q
      obtain ⟨-, ha, hw, hrest⟩ := Store.wfFrom_cons.mp h
      obtain ⟨-, hb, hv, hrest'⟩ := Store.wfFrom_cons.mp h'
      rcases Nat.lt_trichotomy a b with hab | rfl | hab
      · exact absurd (hread a) (Store.read_head_ne h (Store.wfFrom_cons.mpr ⟨hab, hb, hv, hrest'⟩))
      · have hwv : w = v := by simpa only [Store.read_cons_same] using hread a
        have htail : rest = rest' := by
          refine ih hrest hrest' fun c => ?_
          by_cases hc : c = a
          · rw [hc, Store.read_below hrest (Nat.lt_succ_self a), Store.read_below hrest' (Nat.lt_succ_self a)]
          · simpa only [Store.read_cons_other _ _ hc] using hread c
        rw [hwv, htail]
      · exact absurd (hread b).symm (Store.read_head_ne h' (Store.wfFrom_cons.mpr ⟨hab, ha, hw, hrest⟩))

theorem Store.ext_of_wf {m m' : Store} (h : m.wf = true) (h' : m'.wf = true) (hread : ∀ a, m.read a = m'.read a) : m = m' :=
  Store.ext_of_wfFrom h h' hread

/-! ### Containers -/

theorem bytesOfContainer_length (c : BitVec 64) : (bytesOfContainer c).length = 8 := rfl

theorem containersOfBytes_append (c : BitVec 64) (rest : List (BitVec 8)) :
    containersOfBytes (bytesOfContainer c ++ rest) = c :: containersOfBytes rest := by
  have hc : containerOfBytes (c.extractLsb' 0 8) (c.extractLsb' 8 8) (c.extractLsb' 16 8) (c.extractLsb' 24 8)
      (c.extractLsb' 32 8) (c.extractLsb' 40 8) (c.extractLsb' 48 8) (c.extractLsb' 56 8) = c := by
    apply BitVec.eq_of_toNat_eq
    have hlt := c.isLt
    simp only [containerOfBytes, toNat_append_eq, BitVec.extractLsb'_toNat, Nat.shiftRight_eq_div_pow]
    omega
  exact congrArg (· :: containersOfBytes rest) hc

/-- The container of a word is the word with its sign in bit 39 and zeros above (R76). -/
theorem containerOfWord_getLsbD (w : Word) (k : Nat) :
    (containerOfWord w).getLsbD k = if k < 39 then w.getLsbD k else if k = 39 then w.getLsbD 38 else false := by
  simp only [containerOfWord, ext40, BitVec.getLsbD_setWidth, BitVec.getLsbD_signExtend, BitVec.msb_eq_getLsbD_last]
  by_cases h1 : k < 39
  · simp [h1, show k < 64 by omega, show k < 40 by omega]
  · by_cases h2 : k = 39
    · simp [h2]
    · simp [h1, h2, show ¬ k < 40 by omega]

theorem wordOfContainer_containerOfWord (w : Word) : wordOfContainer (containerOfWord w) = w := by
  apply BitVec.eq_of_getLsbD_eq
  intro k hk
  simp [wordOfContainer, containerOfWord_getLsbD, hk]

/-- A container from address 4 on is the word read there. -/
theorem storeFrom_read {a b : Nat} (cs : List (BitVec 64)) (hab : a ≤ b) (hlow : reservedLow ≤ b) (hb : b < storeWords) :
    (storeFrom a cs).read b = wordOfContainer (cs.getD (b - a) 0) := by
  have hinit : Store.initial b = 0 := by
    unfold reservedLow at hlow
    obtain ⟨k, rfl⟩ := Nat.exists_eq_add_of_le' hlow
    rfl
  induction cs generalizing a with
  | nil => exact hinit
  | cons c rest ih =>
    rcases Nat.eq_or_lt_of_le hab with rfl | hlt
    · simp only [storeFrom, hlow, hb, true_and, Nat.sub_self, List.getD_cons_zero]
      split
      · exact Store.read_cons_same _ _ _
      · next hzero =>
        rw [Store.read_below (storeFrom_wfFrom (a + 1) rest) (Nat.lt_succ_self a), hinit]
        exact (not_not.mp hzero).symm
    · have hread : (storeFrom a (c :: rest)).read b = (storeFrom (a + 1) rest).read b := by
        simp only [storeFrom]
        split
        · exact Store.read_cons_other _ _ (by omega)
        · rfl
      rw [hread, ih hlt, show b - a = (b - (a + 1)) + 1 by omega, List.getD_cons_succ]

/-! ### The image of a store -/

/-- The containers of a store from address 0 on (R76). -/
def containersOfStore (m : Store) : List (BitVec 64) := (List.range storeWords).map fun a => containerOfWord (m.read a)

theorem saveImage_eq (m : Store) : saveImage m = (containersOfStore m).flatMap bytesOfContainer := by
  rw [containersOfStore, List.flatMap_map, saveImage]

theorem containersOfStore_length (m : Store) : (containersOfStore m).length = storeWords := by
  rw [containersOfStore, List.length_map, List.length_range]

theorem containersOfStore_getD (m : Store) {a : Nat} (ha : a < storeWords) :
    (containersOfStore m).getD a 0 = containerOfWord (m.read a) := by
  simp [containersOfStore, List.getD, ha]

theorem flatMap_bytesOfContainer_length (cs : List (BitVec 64)) : (cs.flatMap bytesOfContainer).length = 8 * cs.length := by
  induction cs with
  | nil => rfl
  | cons c rest ih => rw [List.flatMap_cons, List.length_append, ih, bytesOfContainer_length, List.length_cons]; omega

/-- Byte `i` of container `a` stands at offset `8 * a + i` of the file (R76). -/
theorem flatMap_bytesOfContainer_getD (cs : List (BitVec 64)) {a i : Nat} (ha : a < cs.length) (hi : i < 8) :
    (cs.flatMap bytesOfContainer).getD (8 * a + i) 0 = (cs.getD a 0).extractLsb' (8 * i) 8 := by
  induction cs generalizing a with
  | nil => exact absurd ha (Nat.not_lt_zero a)
  | cons c rest ih =>
    rw [List.flatMap_cons]
    cases a with
    | zero =>
      rw [List.getD_append _ _ _ _ (by rw [bytesOfContainer_length]; omega)]
      simp [bytesOfContainer, List.getD, hi]
    | succ a =>
      rw [List.getD_append_right _ _ _ _ (by rw [bytesOfContainer_length]; omega), bytesOfContainer_length,
        show 8 * (a + 1) + i - 8 = 8 * a + i by omega, List.getD_cons_succ]
      exact ih (Nat.lt_of_succ_lt_succ ha)

theorem containersOfBytes_flatMap (cs : List (BitVec 64)) : containersOfBytes (cs.flatMap bytesOfContainer) = cs := by
  induction cs with
  | nil => rfl
  | cons c rest ih => rw [List.flatMap_cons, containersOfBytes_append, ih]

/-- A saved store, loaded again, reads as it did, and the canonical form leaves one store that does. -/
theorem loadImage_saveImage {m : Store} (hwf : m.wf = true) (hboot : ∀ a : Nat, a < reservedLow → m.read a = Store.initial a) :
    loadImage (saveImage m) = m := by
  refine Store.ext_of_wf (loadImage_wf _) hwf fun a => ?_
  by_cases hlow : a < reservedLow
  · rw [loadImage_read_low _ hlow, hboot a hlow]
  · by_cases ha : a < storeWords
    · rw [loadImage, saveImage_eq, containersOfBytes_flatMap, storeFrom_read _ (Nat.zero_le a) (Nat.le_of_not_lt hlow) ha,
        Nat.sub_zero, containersOfStore_getD m ha, wordOfContainer_containerOfWord]
    · rw [Store.read_beyond (loadImage_wf _) (Nat.le_of_not_lt ha), Store.read_beyond hwf (Nat.le_of_not_lt ha)]

/-- Settles O58: the file is the containers' bytes in order, a container's bits are the word's with its sign repeated, and the canonical
form makes the loaded store the saved one. -/
theorem coreImageRoundTrip : Obligations.CoreImageRoundTrip := by
  intro m hwf hboot
  refine ⟨?_, fun a i j ha hi hj => ?_, loadImage_saveImage hwf hboot⟩
  · simp only [saveImage_eq, flatMap_bytesOfContainer_length, containersOfStore_length, storeWords, Nat.reduceMul]
  · rw [saveImage_eq, flatMap_bytesOfContainer_getD _ (by rwa [containersOfStore_length]) hi, containersOfStore_getD m ha,
      BitVec.getLsbD_extractLsb', decide_eq_true hj, Bool.true_and, containerOfWord_getLsbD]

end Sys2Proof.Machine

/-! SUPPORT. The encoding (`30_encoding.md`): decoder and encoder undo each other, a word is its halves and its B digit, and the host's way
to have one instruction run next. -/

namespace Sys2Proof.Machine

open Sys2Proof

/-! ### Decoder and encoder -/

@[simp] theorem fnField_encode (i : Instr) : fnField (encode i) = i.code := fnField_append _ _

@[simp] theorem addressField_encode (i : Instr) : addressField (encode i) = i.address := addressField_append _ _

/-- Function 65 is the one whose row the address decides (R95, R239, R240). -/
theorem decode_of_fn65 {x : InstrBits} (h : fnField x = 53#6) :
    decode x = if (addressField x).getLsbD 12 then .fn65Std (addressField x) else .fn65Shift (addressField x) := by
  unfold decode
  rw [h]
  rfl

/-- Settles O1. The function code alone leads the decoder back to the row, but for function 65, whose rows bit 12 of `N` tells apart. -/
theorem decodeOfEncode : Obligations.DecodeOfEncode := by
  intro i hw
  cases i with
  | fn65Shift n =>
    have hbit : n.getLsbD 12 = false := by simpa [Instr.wellFormed] using hw
    rw [decode_of_fn65 (fnField_encode _), addressField_encode]
    exact if_neg (ne_true_of_eq_false hbit)
  | fn65Std n =>
    rw [decode_of_fn65 (fnField_encode _), addressField_encode]
    exact if_pos hw
  | _ n =>
    unfold decode
    rw [fnField_encode, addressField_encode]
    dsimp only [Instr.code, Instr.address]
    rfl

/-- An instruction is found by its encoding. -/
theorem decode_eq_of_encode {i : Instr} {x : InstrBits} (hw : i.wellFormed = true) (he : encode i = x) : decode x = i :=
  he ▸ decodeOfEncode i hw

/-- Only function 65 fixes more than the function code (R95). -/
theorem wellFormed_of_code_ne {i : Instr} (h : i.code ≠ 53#6) : i.wellFormed = true := by
  cases i with
  | fn65Shift | fn65Std => exact absurd rfl h
  | _ => rfl

/-- The decoder gives instructions of the table alone (R88). -/
theorem decode_wellFormed (x : InstrBits) : (decode x).wellFormed = true := by
  by_cases h : fnField x = 53#6
  · rw [decode_of_fn65 h]
    cases hbit : (addressField x).getLsbD 12
    · exact congrArg Bool.not hbit
    · exact hbit
  · exact wellFormed_of_code_ne ((decode_fields x).1 ▸ h)

/-- The decoder loses none of the 19 bits (R81). -/
theorem encode_decode (x : InstrBits) : encode (decode x) = x := by
  obtain ⟨hcode, haddress⟩ := decode_fields x
  rw [encode, hcode, haddress]
  exact fields_append x

/-- Settles O2: the decoder gives one such instruction, and by O1 every other is that one. -/
theorem everyWordIsExactlyOneInstruction : Obligations.EveryWordIsExactlyOneInstruction := fun x =>
  ⟨decode_wellFormed x, encode_decode x, fun _ hw he => (decode_eq_of_encode hw he).symm⟩

/-- Settles O3: each pattern is the encoding of its instruction, and O1 reads it back. -/
theorem sampleWordsDecode : Obligations.SampleWordsDecode := by
  refine ⟨?_, ?_, ?_, ?_, ?_, ?_, ?_, ?_, ?_⟩ <;> exact decode_eq_of_encode rfl rfl

/-! ### The halves of a word -/

@[simp] theorem firstHalf_packWord (x1 : InstrBits) (b : Bool) (x2 : InstrBits) : firstHalf (packWord x1 b x2) = x1 := by
  apply BitVec.eq_of_toNat_eq
  rw [firstHalf_toNat, packWord_toNat]
  have := x2.isLt
  have := b.toNat_lt
  omega

@[simp] theorem secondHalf_packWord (x1 : InstrBits) (b : Bool) (x2 : InstrBits) : secondHalf (packWord x1 b x2) = x2 := by
  apply BitVec.eq_of_toNat_eq
  rw [secondHalf_toNat, packWord_toNat]
  have := x2.isLt
  omega

@[simp] theorem bDigit_packWord (x1 : InstrBits) (b : Bool) (x2 : InstrBits) : bDigit (packWord x1 b x2) = b := by
  have hdigit : (packWord x1 b x2).toNat / 2 ^ 19 % 2 = b.toNat := by
    rw [packWord_toNat]
    have := x2.isLt
    have := b.toNat_lt
    omega
  rw [bDigit_eq, hdigit]
  cases b <;> rfl

/-- Nothing of a word lies outside its halves and its B digit (R80). -/
theorem packWord_halves (w : Word) : packWord (firstHalf w) (bDigit w) (secondHalf w) = w := by
  have hdigit : (bDigit w).toNat = w.toNat / 2 ^ 19 % 2 := by
    rw [bDigit_eq]
    rcases Nat.mod_two_eq_zero_or_one (w.toNat / 2 ^ 19) with h | h <;> (rw [h]; rfl)
  apply BitVec.eq_of_toNat_eq
  rw [packWord_toNat, firstHalf_toNat, secondHalf_toNat, hdigit]
  omega

/-- Settles O4, one direction for each part and one for the whole. -/
theorem halvesMakeTheWord : Obligations.HalvesMakeTheWord :=
  ⟨fun x1 x2 b => ⟨firstHalf_packWord x1 b x2, secondHalf_packWord x1 b x2, bDigit_packWord x1 b x2⟩, packWord_halves⟩

/-! ### The placed instruction -/

/-- No instruction touches the input wires or what is to come on them, and each has a next state (R320). -/
theorem exec_keeps_wires (i : Instr) (s : State) : ∃ t, exec i s = .next t ∧ t.wires = s.wires ∧ t.feed = s.feed := by
  rcases exec_cases i s with ⟨scr, m, o, -, he, -, -⟩ | ⟨k, latch, u, w, -, -, hu, he⟩ | ⟨u, -, -, hu, he⟩
  · exact ⟨_, he, rfl, rfl⟩
  · have hframe := hu.frame
    unfold HandlerKeeps at hframe
    refine ⟨_, he, ?_, ?_⟩ <;> (rw [hframe]; rfl)
  · unfold IoKeeps at hu
    refine ⟨_, he, ?_, ?_⟩ <;> (rw [hu]; rfl)

/-- With no schedule and no operate event the wires hold their levels (log 14). -/
theorem State.nextWires_of_idle {s : State} (hfeed : s.feed = []) (hop : s.wires.operate = false) : s.nextWires = s := by
  unfold State.nextWires
  rw [hfeed, List.headD_nil, List.tail_nil, ← hop, ← hfeed]

/-- Taking what is there already changes nothing (R301, R302). -/
theorem State.loadIr_eq_self {s : State} {w : Word}
    (hir : (if scrSecond s.scr then modified w s.modPending s.breg else firstHalf w) = s.ir)
    (hm : (!scrSecond s.scr && bDigit w) = s.modPending) : s.loadIr w = s := by
  unfold State.loadIr
  rw [hir, hm]

/-- What the fetch takes from the half at `SCR` of the placed word: the instruction, and no B digit (R80, R82). -/
theorem fetch_wordWithHalf (x : InstrBits) (second : Bool) (breg : BitVec 19) :
    (if second then modified (wordWithHalf x second) false breg else firstHalf (wordWithHalf x second)) = x ∧
    (!second && bDigit (wordWithHalf x second)) = false := by
  cases second
  · exact ⟨firstHalf_packWord x false 0, bDigit_packWord x false 0⟩
  · exact ⟨secondHalf_packWord 0 false x, rfl⟩

theorem fetchRead_placeInstruction {s : State} (x : InstrBits) (hwf : s.store.wf = true) :
    (s.placeInstruction x).fetchRead (scrWord s.scr) = wordWithHalf x (scrSecond s.scr) :=
  Store.read_write_self _ hwf

/-- The placed state is the one its own fetch leaves, up to `Decode` (log 17). -/
theorem fetched_placeInstruction {s : State} (x : InstrBits) (hwf : s.store.wf = true) (hss : s.wires.ss = false) :
    (s.placeInstruction x).fetched = s.placeInstruction x := by
  obtain ⟨hir, hm⟩ := fetch_wordWithHalf x (scrSecond s.scr) s.breg
  have hload : (s.placeInstruction x).loadIr (wordWithHalf x (scrSecond s.scr)) = s.placeInstruction x :=
    State.loadIr_eq_self hir hm
  have hstop : (s.placeInstruction x).selectedStop (scrWord s.scr) = s.placeInstruction x := by
    unfold State.selectedStop
    rw [show (s.placeInstruction x).wires.ss = false from hss]
    rfl
  calc (s.placeInstruction x).fetched
      = ((s.placeInstruction x).loadIr ((s.placeInstruction x).fetchRead (scrWord s.scr))).selectedStop (scrWord s.scr) := rfl
    _ = s.placeInstruction x := by rw [fetchRead_placeInstruction x hwf, hload, hstop]

/-- The word-time after `placeInstruction` is the placed instruction, in the fetch phase for a jump and in the execute phase for any
other (R303, R307). -/
theorem wordTime_placeInstruction {s : State} (x : InstrBits) (hwf : s.store.wf = true) (hss : s.wires.ss = false)
    (hout : s.out = .quiet) : wordTime (s.placeInstruction x) = exec (decode x) (s.placeInstruction x) := by
  have hquiet : (s.placeInstruction x).quietOutputs = s.placeInstruction x := by
    unfold State.quietOutputs
    rw [← hout]
    rfl
  cases hj : isJumpBits x
  · rw [wordTime_execute rfl hj, hquiet]
    exact executeBeat_plain hj
  · rw [wordTime_fetch rfl hj rfl, hquiet, fetched_placeInstruction x hwf hss]
    exact decodeBeat_jump hj

/-- The step after `placeInstruction`, where the environment leaves the wires as they are. -/
theorem step_placeInstruction {s : State} (x : InstrBits) (hwf : s.store.wf = true) (hss : s.wires.ss = false)
    (hout : s.out = .quiet) (hfeed : s.feed = []) (hop : s.wires.operate = false) :
    step (s.placeInstruction x) = exec (decode x) (s.placeInstruction x) := by
  obtain ⟨t, he, hwires, htfeed⟩ := exec_keeps_wires (decode x) (s.placeInstruction x)
  have hidle : t.nextWires = t := State.nextWires_of_idle (htfeed.trans hfeed) ((congrArg Wires.operate hwires).trans hop)
  rw [step_of_wordTime ((wordTime_placeInstruction x hwf hss hout).trans he), hidle, he]

/-- Settles O60: the table's bits are the 19 of the instruction, and the power-on state has the placed instruction run next. -/
theorem placedInstructionRunsNext : Obligations.PlacedInstructionRunsNext := by
  intro nbits w hn hw
  have hbits : w % 2 ^ nbits = w := Nat.mod_eq_of_lt (hw.trans_le (Nat.pow_le_pow_right Nat.two_pos hn))
  unfold decodeTableWord State.withFetchWord
  rw [hbits]
  exact ⟨decode (BitVec.ofNat 19 w), rfl, encode_decode _, step_placeInstruction _ State.reset_store_wf rfl rfl rfl rfl⟩

end Sys2Proof.Machine

/-! SUPPORT. The word arithmetic of `40_alu_primitives.md`: the 40-bit overflow test, the one-place shifts repeated, the floating-point
fields, and one beat of the shifts 50, 51, 54, 55. -/

namespace Sys2Proof.Machine

open Sys2Proof

/-! ### The 40-bit container (R101) -/

theorem toInt_ext40 (w : Word) : (ext40 w).toInt = signed w := BitVec.toInt_signExtend_of_le (by decide)

/-- The sum of two words fits the container. -/
theorem toInt_ext40_add (a b : Word) : (ext40 a + ext40 b).toInt = signed a + signed b := by
  obtain ⟨ha, ha'⟩ := signed_range a
  obtain ⟨hb, hb'⟩ := signed_range b
  rw [BitVec.toInt_add, toInt_ext40, toInt_ext40]
  exact Int.bmod_eq_of_le (by omega) (by omega)

/-- The difference of two words fits the container. -/
theorem toInt_ext40_sub (a b : Word) : (ext40 a - ext40 b).toInt = signed a - signed b := by
  obtain ⟨ha, ha'⟩ := signed_range a
  obtain ⟨hb, hb'⟩ := signed_range b
  rw [BitVec.toInt_sub, toInt_ext40, toInt_ext40]
  exact Int.bmod_eq_of_le (by omega) (by omega)

/-- The low 39 bits of a container are the word of its value. -/
theorem word_toInt (raw : BitVec 40) : word raw.toInt = raw.setWidth 39 := by
  apply BitVec.eq_of_toNat_eq
  rw [word_toNat, BitVec.toNat_setWidth, BitVec.toInt_eq_toNat_cond]
  split <;> omega

/-- The top two bits of a container agree exactly when its value fits 39 bits. -/
theorem overflow40_eq (raw : BitVec 40) : overflow40 raw = !fits39 raw.toInt := by
  have h39 : raw.getLsbD 39 = decide (2 ^ 39 ≤ raw.toNat) := by
    rw [← BitVec.testBit_toNat, Nat.testBit_eq_decide_div_mod_eq, decide_eq_decide]
    omega
  have h38 : raw.getLsbD 38 = decide (raw.toNat / 2 ^ 38 % 2 = 1) := by
    rw [← BitVec.testBit_toNat, Nat.testBit_eq_decide_div_mod_eq]
  rw [overflow40, h39, h38, fits39, BitVec.toInt_eq_toNat_cond, Bool.eq_iff_iff]
  simp only [Bool.xor_iff_ne, ne_eq, decide_eq_decide, Bool.not_eq_true', Bool.and_eq_false_iff, decide_eq_false_iff_not]
  split <;> omega

/-- A result read off its 40-bit container (R101). -/
theorem aluResult_toInt (raw : BitVec 40) : aluResult raw.toInt = (raw.setWidth 39, overflow40 raw) := by
  rw [aluResult, word_toInt, overflow40_eq]

/-- Settles O6: the container holds the true sum or difference, so the test may be read off its two top bits. -/
theorem overflowIsTheFortyBitTest : Obligations.OverflowIsTheFortyBitTest := by
  intro a b
  constructor
  · rw [aluAdd, ← toInt_ext40_add, aluResult_toInt]
  · rw [aluSub, ← toInt_ext40_sub, aluResult_toInt]

/-! ### Double-length shifts of several places (R111, R113, R121) -/

/-- The registers after one place of double-length left shift. -/
def leftPlace (p : Word × Word) : Word × Word := ((shiftLeftDouble p.1 p.2).acc, (shiftLeftDouble p.1 p.2).ar)

/-- The registers after one place of double-length right shift. -/
def rightPlace (p : Word × Word) : Word × Word := ((shiftRightDouble p.1 p.2).acc, (shiftRightDouble p.1 p.2).ar)

/-- `k` places left multiply by 2^k, modulo 2^77. -/
theorem dl_leftPlace_iterate (k : Nat) (p : Word × Word) :
    dl (leftPlace^[k] p).1 (leftPlace^[k] p).2 = Int.bmod (dl p.1 p.2 * 2 ^ k) (2 ^ 77) := by
  induction k with
  | zero =>
    obtain ⟨hlo, hhi⟩ := dl_range p.1 p.2
    rw [pow_zero, mul_one, Int.bmod_eq_of_le (by omega) (by omega)]
    rfl
  | succ k ih =>
    rw [Function.iterate_succ_apply', pow_succ, ← mul_assoc, ← Int.bmod_mul_bmod, ← ih]
    exact dl_shiftLeftDouble _ _

/-- `k` places right divide by 2^k, rounding down. -/
theorem dl_rightPlace_iterate (k : Nat) (p : Word × Word) :
    dl (rightPlace^[k] p).1 (rightPlace^[k] p).2 = dl p.1 p.2 / 2 ^ k := by
  induction k with
  | zero => simp
  | succ k ih =>
    rw [Function.iterate_succ_apply', pow_succ, ← Int.ediv_ediv_of_nonneg (by positivity), ← ih]
    exact dl_shiftRightDouble _ _

/-- A place right leaves `AR[38]` 0, whatever it was (R111). -/
theorem arSign_shiftRightDouble (acc ar : Word) : (shiftRightDouble acc ar).ar.getLsbD 38 = false := by
  have h : (shiftRightDouble acc ar).ar.toNat < 2 ^ 38 := by
    rw [shiftRightDouble_ar]
    omega
  exact Nat.testBit_lt_two_pow h

/-- After at least one place right `AR[38]` is 0. -/
theorem arSign_rightPlace_iterate (k : Nat) (p : Word × Word) : (rightPlace^[k + 1] p).2.getLsbD 38 = false := by
  rw [Function.iterate_succ_apply']
  exact arSign_shiftRightDouble _ _

/-- The value and `AR[38]` 0 determine the pair (R110). -/
theorem eq_iff_dl_eq {p q : Word × Word} (hp : p.2.getLsbD 38 = false) :
    p = q ↔ q.2.getLsbD 38 = false ∧ dl p.1 p.2 = dl q.1 q.2 := by
  constructor
  · rintro rfl
    exact ⟨hp, rfl⟩
  · rintro ⟨hq, h⟩
    rw [← Prod.mk.eta (p := p), ← dlpair_dl hp, h, dlpair_dl hq]

/-- What is left of a 77-bit value after 39 places left and 39 right: the value itself exactly when it has 38 bits. -/
theorem bmod_shift_back_eq_iff (v : Int) : Int.bmod (v * 2 ^ 39) (2 ^ 77) / 2 ^ 39 = v ↔ -2 ^ 37 ≤ v ∧ v < 2 ^ 37 := by
  constructor
  · intro h
    have hlo : -2 ^ 76 ≤ Int.bmod (v * 2 ^ 39) (2 ^ 77) := Int.le_bmod (by decide)
    have hhi : Int.bmod (v * 2 ^ 39) (2 ^ 77) < 2 ^ 76 := Int.bmod_lt (by decide)
    omega
  · rintro ⟨hlo, hhi⟩
    rw [Int.bmod_eq_of_le (by omega) (by omega)]
    omega

/-- Settles O7: the restored pair has `AR[38]` 0 and the value `dl * 2^39` modulo 2^77, divided by 2^39. -/
theorem doubleShiftRestoresExactly : Obligations.DoubleShiftRestoresExactly := by
  intro acc ar
  change rightPlace^[39] (leftPlace^[39] (acc, ar)) = (acc, ar) ↔ _
  rw [eq_iff_dl_eq (arSign_rightPlace_iterate 38 _), dl_rightPlace_iterate, dl_leftPlace_iterate, bmod_shift_back_eq_iff]

/-! ### Floating-point fields (R118) -/

/-- Joining the fields of a word gives the word. -/
theorem fpJoin_fpMant_fpExp (w : Word) : fpJoin (fpMant w) (fpExp w) = w := by
  apply BitVec.eq_of_toNat_eq
  have hw := w.isLt
  have he : fpExp w < 512 := by rw [fpExp_eq]; omega
  rw [fpJoin_toNat _ he, fpMant_eq, fpExp_eq, signed_eq]
  split <;> omega

theorem fpExp_fpJoin (m : Int) {e : Nat} (he : e < 512) : fpExp (fpJoin m e) = e := by
  rw [fpExp_eq, fpJoin_toNat m he]
  omega

theorem fpMant_fpJoin {m : Int} {e : Nat} (hlo : -2 ^ 29 ≤ m) (hhi : m < 2 ^ 29) (he : e < 512) : fpMant (fpJoin m e) = m := by
  rw [fpMant_eq, signed_eq, fpJoin_toNat m he]
  split <;> omega

/-- Settles O8: read as a number, a word is its mantissa modulo 2^30, times 2^9, plus its exponent. -/
theorem fpSplitAndJoinAreInverse : Obligations.FpSplitAndJoinAreInverse :=
  ⟨fpJoin_fpMant_fpExp, fun m _ hlo hhi he => Prod.ext (fpExp_fpJoin m he) (fpMant_fpJoin hlo hhi he)⟩

/-! ### One beat of a shift (R191, R308) -/

/-- `K - 1` of the shifts: a count of 0 takes the one beat that a count of 1 takes. -/
theorem shiftLast_eq_ofNat (n : Address) : shiftLast n = BitVec.ofNat 7 (n.toNat % 128 - 1) := by
  rw [shiftLast_eq]
  split
  next h => rw [h]; rfl
  next => rfl

/-- One beat of a shift that takes `AR` along (50, 54). -/
theorem shiftBeat_keepAr {s : State} (n : Address) (place : Word → Word → Shifted) (hs : s.Executing) :
    shiftBeat n false place s =
      let p := place s.acc s.ar
      State.afterBeat (if n.toNat % 128 = 0 then s else
        { s with acc := p.acc, ar := p.ar, oflow := s.oflow || p.ov }) n (s.memRead n) (BitVec.ofNat 7 (n.toNat % 128 - 1)) := by
  rw [shiftBeat_eq n false place hs, shiftLast_eq_ofNat]
  rfl

/-- One beat of a shift that clears `AR` on its first beat (51, 55), register by register. -/
theorem shiftBeat_clearAr {s : State} (n : Address) (place : Word → Word → Shifted) (hs : s.Executing) :
    shiftBeat n true place s =
      let c := n.toNat % 128
      let ar := if s.longFn = true then s.ar else 0
      let p := place s.acc ar
      State.afterBeat { s with
        acc := if c = 0 then s.acc else p.acc
        ar := if c = 0 then ar else p.ar
        oflow := if c = 0 then s.oflow else s.oflow || p.ov } n (s.memRead n) (BitVec.ofNat 7 (c - 1)) := by
  have har : (if (true && !s.longFn) = true then 0 else s.ar) = if s.longFn = true then s.ar else 0 := by
    cases s.longFn <;> rfl
  rw [shiftBeat_eq n true place hs, shiftLast_eq_ofNat, har]
  by_cases hc : n.toNat % 128 = 0
  · simp only [hc, if_true]
  · simp only [hc, if_false]

/-- The new `AR` in the order of concatenation in which the statements write it. -/
theorem shiftRightDouble_eq (acc ar : Word) : shiftRightDouble acc ar =
    { acc := BitVec.ofBool (acc.getLsbD 38) ++ acc.extractLsb' 1 38
      ar := 0#1 ++ (BitVec.ofBool (acc.getLsbD 0) ++ ar.extractLsb' 1 37)
      ov := false } :=
  congrArg (Shifted.mk _ · false) (BitVec.append_assoc.trans (BitVec.cast_eq _ _))

/-- The new `AR` in the order of concatenation in which the statements write it. -/
theorem shiftLeftDouble_eq (acc ar : Word) : shiftLeftDouble acc ar =
    { acc := acc.extractLsb' 0 38 ++ BitVec.ofBool (ar.getLsbD 37)
      ar := 0#1 ++ (ar.extractLsb' 0 37 ++ 0#1)
      ov := acc.getLsbD 38 ^^ acc.getLsbD 37 } :=
  congrArg (Shifted.mk _ · _) (BitVec.append_assoc.trans (BitVec.cast_eq _ _))

/-- Settles O18: a place right has no overflow, so `OFLOW` stays. -/
theorem doubleShiftBeat : Obligations.DoubleShiftBeat := by
  intro n s hs
  constructor
  · change Host.Outcome.next (shiftBeat n false shiftRightDouble s) = _
    simp only [shiftBeat_keepAr n _ hs, shiftRightDouble_eq, Bool.or_false]
  · change Host.Outcome.next (shiftBeat n false shiftLeftDouble s) = _
    simp only [shiftBeat_keepAr n _ hs, shiftLeftDouble_eq]

/-- Settles O19: the single-length places leave the `AR` they are given, so it is cleared whatever the count. -/
theorem singleShiftBeat : Obligations.SingleShiftBeat := by
  intro n s hs
  constructor
  · change Host.Outcome.next (shiftBeat n true shiftRightSingle s) = _
    simp only [shiftBeat_clearAr n _ hs, shiftRightSingle, Bool.or_false, ite_self]
  · change Host.Outcome.next (shiftBeat n true shiftLeftSingle s) = _
    simp only [shiftBeat_clearAr n _ hs, shiftLeftSingle, leftOverflow, ite_self]

end Sys2Proof.Machine

/-! SUPPORT. Functions 00 to 37 (`41_group0_3_arith.md`): the eight members of the table of R130 are the model's operations, and the four
groups route them to the accumulator and the store. -/

namespace Sys2Proof.Machine

open Sys2Proof

/-! ### The members of R130 -/

/-- A result overflows when it lies outside the range of a word (R7, R101). -/
theorem not_fits39 (v : Int) : (!fits39 v) = decide (v < -2 ^ 38 ∨ 2 ^ 38 ≤ v) := by
  rw [fits39, Bool.eq_iff_iff]
  simp only [Bool.not_eq_true', Bool.and_eq_false_iff, decide_eq_false_iff_not, decide_eq_true_iff]
  omega

/-- The negation of the most negative word is the only one to overflow (R104). -/
theorem aluNeg_eq (w : Word) : aluNeg w = (word (-signed w), decide (signed w = -2 ^ 38)) := by
  obtain ⟨hlo, hhi⟩ := signed_range w
  have zero : signed 0 = 0 := by decide
  rw [aluNeg, aluSub, aluResult, zero, zero_sub, not_fits39, Prod.mk.injEq, decide_eq_decide]
  exact ⟨rfl, by omega⟩

/-- The successor of the largest word is the only one to overflow (R105). -/
theorem aluInc_eq (w : Word) : aluInc w = (word (signed w + 1), decide (signed w = 2 ^ 38 - 1)) := by
  obtain ⟨hlo, hhi⟩ := signed_range w
  have one : signed 1 = 1 := by decide
  rw [aluInc, aluAdd, aluResult, one, not_fits39, Prod.mk.injEq, decide_eq_decide]
  exact ⟨rfl, by omega⟩

section
variable {a n p : Word}

theorem aluPlain_eq_combined : aluPlain p = combined 0 a n p := rfl

theorem aluNeg_eq_combined : aluNeg p = combined 1 a n p := aluNeg_eq p

theorem aluInc_eq_combined : aluInc n = combined 2 a n p := aluInc_eq n

theorem aluAnd_eq_combined : aluAnd a n = combined 3 a n p := rfl

theorem aluAdd_eq_combined : aluAdd a n = combined 4 a n p := rfl

theorem aluSub_eq_combined : aluSub a n = combined 5 a n p := rfl

theorem aluZero_eq_combined : aluZero = combined 6 a n p := rfl

theorem aluSub_swap_eq_combined : aluSub n a = combined 7 a n p := rfl

end

/-! ### The four groups -/

/-- One beat of member `k` of a group (R131): `f` computes the combined value `c` from the plain operand `p`; `acc` and `sc` are what
the group leaves in the accumulator and the store word (R130). -/
theorem exec_member {s : State} {n : Address} (p : Word) (acc sc : Word × Bool → Word) (hs : s.Executing) (hl : s.longFn = false)
    {i : Instr} {f : Word → Word → Routed} {c : Word × Bool} {k : Nat} (hi : exec i s = .next (arithBeat n f s))
    (hf : f s.acc (s.memRead n) = { acc := acc c, sc := sc c, ov := c.2 }) (hc : c = combined k s.acc (s.memRead n) p) :
    exec i s =
      let c := combined k s.acc (s.memRead n) p
      .next (State.ended { s with acc := acc c, oflow := s.oflow || c.2 } n (sc c)) := by
  rw [hi, arithBeat_eq n f hs hl, hf, hc]

/-- Settles O9: the plain operand is the accumulator, and the store word goes back as it was. -/
theorem groupZeroResults : Obligations.GroupZeroResults := by
  intro n s hs hl
  have member {i f c k} := exec_member (n := n) (i := i) (f := f) (c := c) (k := k) s.acc Prod.fst (fun _ => s.memRead n) hs hl
  exact ⟨member rfl rfl aluPlain_eq_combined, member rfl rfl aluNeg_eq_combined, member rfl rfl aluInc_eq_combined,
    member rfl rfl aluAnd_eq_combined, member rfl rfl aluAdd_eq_combined, member rfl rfl aluSub_eq_combined,
    member rfl rfl aluZero_eq_combined, member rfl rfl aluSub_swap_eq_combined⟩

/-- Settles O10: the plain operand is the store word, and the old accumulator goes to the store. -/
theorem groupOneResults : Obligations.GroupOneResults := by
  intro n s hs hl
  have member {i f c k} := exec_member (n := n) (i := i) (f := f) (c := c) (k := k) (s.memRead n) Prod.fst (fun _ => s.acc) hs hl
  exact ⟨member rfl rfl aluPlain_eq_combined, member rfl rfl aluNeg_eq_combined, member rfl rfl aluInc_eq_combined,
    member rfl rfl aluAnd_eq_combined, member rfl rfl aluAdd_eq_combined, member rfl rfl aluSub_eq_combined,
    member rfl rfl aluZero_eq_combined, member rfl rfl aluSub_swap_eq_combined⟩

/-- Settles O11: the plain operand is the accumulator, which keeps its value. -/
theorem groupTwoResults : Obligations.GroupTwoResults := by
  intro n s hs hl
  have member {i f c k} := exec_member (n := n) (i := i) (f := f) (c := c) (k := k) s.acc (fun _ => s.acc) Prod.fst hs hl
  exact ⟨member rfl rfl aluPlain_eq_combined, member rfl rfl aluNeg_eq_combined, member rfl rfl aluInc_eq_combined,
    member rfl rfl aluAnd_eq_combined, member rfl rfl aluAdd_eq_combined, member rfl rfl aluSub_eq_combined,
    member rfl rfl aluZero_eq_combined, member rfl rfl aluSub_swap_eq_combined⟩

/-- Settles O12: the plain operand is the store word, which goes to the accumulator. -/
theorem groupThreeResults : Obligations.GroupThreeResults := by
  intro n s hs hl
  have member {i f c k} := exec_member (n := n) (i := i) (f := f) (c := c) (k := k) (s.memRead n) (fun _ => s.memRead n) Prod.fst hs hl
  exact ⟨member rfl rfl aluPlain_eq_combined, member rfl rfl aluNeg_eq_combined, member rfl rfl aluInc_eq_combined,
    member rfl rfl aluAnd_eq_combined, member rfl rfl aluAdd_eq_combined, member rfl rfl aluSub_eq_combined,
    member rfl rfl aluZero_eq_combined, member rfl rfl aluSub_swap_eq_combined⟩

end Sys2Proof.Machine

/-! SUPPORT. Functions 40 to 47 (`42_group4_jumps.md`): the next state of a jump, taken and not taken, and the dynamic stop of `40 p` in
the first half of word `p` (`70_reset_and_hazards.md` R365). -/

namespace Sys2Proof.Machine

open Sys2Proof

/-! ### The next state of a jump -/

/-- The two outcomes of a jump (R171); an untaken one leaves `M` alone. -/
theorem State.jump_eq (s : State) (cond : Bool) (n : Address) (second : Bool) :
    s.jump cond n second =
      if cond = true then { s with scr := BitVec.ofNat 14 (2 * n.toNat + second.toNat), modPending := false }
      else { s with scr := s.scr + 1 } := by
  cases cond
  · rfl
  · simp only [State.jump, scrOf_eq, if_true, Bool.not_true, Bool.false_and]

/-- The two outcomes of a jump on overflow, which leaves `OFLOW` false in both (R176). -/
theorem State.jumpOverflow_eq (s : State) (n : Address) (second : Bool) :
    s.jumpOverflow n second =
      if s.oflow = true then
        { s with scr := BitVec.ofNat 14 (2 * n.toNat + second.toNat), modPending := false, oflow := false }
      else { s with scr := s.scr + 1, oflow := false } := by
  rw [State.jumpOverflow, State.jump_eq]
  split <;> rfl

/-- Settles O16: each of the six is `State.jump` on its own condition. -/
theorem jumpsOnTheFlags : Obligations.JumpsOnTheFlags := by
  intro n s
  have jumps (cond second : Bool) := congrArg (Host.Outcome.next (φ := Fault) (ρ := Refusal)) (s.jump_eq cond n second)
  exact ⟨jumps true false, jumps s.nega false, jumps s.z false, jumps true true, jumps s.nega true, jumps s.z true⟩

/-- Settles O17: both are `State.jumpOverflow`. -/
theorem jumpsOnOverflow : Obligations.JumpsOnOverflow := by
  intro n s
  exact ⟨congrArg _ (s.jumpOverflow_eq n false), congrArg _ (s.jumpOverflow_eq n true)⟩

/-! ### The jump to itself -/

/-- The machine is about to fetch `40 p` from the first half of word `p`. -/
structure State.AtSelfJump (s : State) (p : Address) : Prop where
  fetching : s.fetching = true
  running : s.stopped = false
  scr : s.scr.toNat = 2 * p.toNat
  jump : firstHalf (s.store.read p.toNat) = encode (.fn40 p)

/-- Wires that let a loop at word `p` go on: no RESET, no clear store, no selected-stop match (R75, R293, R304; log 29). -/
def Wires.sparesLoop (p : Address) (w : Wires) : Prop := w.reset = false ∧ w.cs = false ∧ (w.ss = true → w.n1 ≠ p)

/-- A console at rest spares every loop. -/
theorem Wires.sparesLoop_of_consoleAtRest (p : Address) {w : Wires} (h : w.consoleAtRest = true) : w.sparesLoop p := by
  simp only [Wires.consoleAtRest, Wires.consoleQuiet, Bool.and_eq_true, Bool.not_eq_true'] at h
  obtain ⟨⟨⟨hreset, -⟩, hcs⟩, hss⟩ := h
  exact ⟨hreset, hcs, fun h => nomatch hss.symm.trans h⟩

theorem State.Always.mono {s : State} {p q : Wires → Prop} (h : s.Always p) (hpq : ∀ w, p w → q w) : s.Always q :=
  ⟨hpq _ h.1, fun w hw => hpq w (h.2 w hw)⟩

/-- The word address of a sequence control value that selects a first half (R24). -/
theorem scrWord_of_firstHalf {scr : BitVec 14} {p : Address} (h : scr.toNat = 2 * p.toNat) : scrWord scr = p := by
  apply BitVec.eq_of_toNat_eq
  rw [scrWord_toNat]
  omega

/-- The fetch of a first half with the clear store and the selected stop at rest (R301, R304): only `IR` and `M` are loaded. -/
theorem fetched_firstHalf {s : State} {p : Address} (hscr : s.scr.toNat = 2 * p.toNat) (hcs : s.wires.cs = false)
    (hss : s.wires.ss = true → s.wires.n1 ≠ p) :
    s.fetched = { s with ir := firstHalf (s.store.read p.toNat), modPending := bDigit (s.store.read p.toNat) } := by
  have hfirst : scrSecond s.scr = false := by
    rw [scrSecond_eq, decide_eq_false_iff_not]
    omega
  have hmatch : (s.wires.ss && s.wires.n1 == p) = false := by
    rw [Bool.and_eq_false_imp]
    exact fun h => beq_false_of_ne (hss h)
  simp only [State.fetched, State.clearOnRead, State.fetchRead, State.loadIr, State.selectedStop, scrWord_of_firstHalf hscr, hfirst,
    hmatch, hcs, Bool.false_and, Bool.false_eq_true, if_false, Bool.not_false, Bool.true_and, Bool.or_false]

/-- `40 p` leaves `SCR` where it was: the jump goes to the half it was fetched from (R172). -/
theorem jump_to_self {s : State} {p : Address} (hscr : s.scr.toNat = 2 * p.toNat) :
    s.jump true p false = { s with modPending := false } := by
  have hback : BitVec.ofNat 14 (2 * p.toNat + false.toNat) = s.scr := by
    rw [Bool.toNat_false, Nat.add_zero, ← hscr, BitVec.ofNat_toNat, BitVec.setWidth_eq]
  rw [State.jump_eq, hback]
  rfl

/-- `Decode` (R303) carries `40 p` out in the beat that fetched it (R170). -/
theorem decodeBeat_fn40 {s : State} {p : Address} (h : s.ir = encode (.fn40 p)) : decodeBeat s = .next (s.jump true p false) := by
  have hjump : isJumpBits s.ir = true := by
    rw [h, isJumpBits_encode]
    exact (by decide : (fnGroup 32#6 == 4#3) = true)
  rw [decodeBeat_jump hjump, h, decodeOfEncode (.fn40 p) rfl]
  rfl

/-- `s` after a pass of the loop, the wires moved on. -/
def State.looped (s : State) (p : Address) (b : Wires) (f : List Wires) : State :=
  { s with ir := encode (.fn40 p), modPending := false, out := .quiet, wires := b, feed := f }

/-- One pass of the loop is one word-time. -/
theorem step_selfJump {s : State} {p : Address} (h : s.AtSelfJump p) (hw : s.wires.sparesLoop p) :
    step s = .next (s.looped p s.wires s.feed).nextWires := by
  obtain ⟨hfetching, hrunning, hscr, hjump⟩ := h
  obtain ⟨hreset, hcs, hss⟩ := hw
  have hfetched := fetched_firstHalf (s := s.quietOutputs) hscr hcs hss
  rw [State.quietOutputs_store, hjump] at hfetched
  apply step_of_wordTime
  calc wordTime s
      = decodeBeat s.quietOutputs.fetched := wordTime_fetch hreset hfetching hrunning
    _ = .next (s.quietOutputs.fetched.jump true p false) := decodeBeat_fn40 (by rw [hfetched])
    _ = .next (s.looped p s.wires s.feed) := by
        rw [hfetched]
        exact congrArg _ (jump_to_self hscr)

/-- Every pass but the first finds the machine as the one before it left it, but for the wires. -/
theorem run_selfJump {s : State} {p : Address} (k : Nat) (h : s.AtSelfJump p) (hw : s.Always (Wires.sparesLoop p)) :
    ∃ b f, Sys2Proof.core.run (k + 1) s = .next (s.looped p b f) := by
  induction k generalizing s with
  | zero => exact ⟨_, _, core_run_succ (step_selfJump h hw.1)⟩
  | succ k ih =>
    have hloop : (s.looped p s.wires s.feed).nextWires.AtSelfJump p := ⟨h.fetching, h.running, h.scr, h.jump⟩
    have hwires : (s.looped p s.wires s.feed).nextWires.Always (Wires.sparesLoop p) := State.Always.nextWires hw fun _ => id
    obtain ⟨b, f, hrun⟩ := ih hloop hwires
    exact ⟨b, f, (core_run_succ (step_selfJump h hw.1)).trans hrun⟩

/-- The same for every number of word-times, none included. -/
theorem run_selfJump_frame {s : State} {p : Address} (h : s.AtSelfJump p) (hw : s.Always (Wires.sparesLoop p)) (k : Nat) :
    ∃ x m o b f, Sys2Proof.core.run k s = .next { s with ir := x, modPending := m, out := o, wires := b, feed := f } ∧
      (0 < k → x = encode (.fn40 p) ∧ m = false) := by
  cases k with
  | zero => exact ⟨s.ir, s.modPending, s.out, s.wires, s.feed, rfl, fun h => absurd h (Nat.lt_irrefl 0)⟩
  | succ k =>
    obtain ⟨b, f, hrun⟩ := run_selfJump k h hw
    exact ⟨_, _, _, b, f, hrun, fun _ => ⟨rfl, rfl⟩⟩

/-- The loop is one of period 1 under whatever wires with the console at rest (R365). -/
theorem State.AtSelfJump.dynamicStop {s : State} {p : Address} (h : s.AtSelfJump p) : s.DynamicStop := by
  refine ⟨h.fetching, h.running, 1, Nat.one_pos, fun b f hrest k => ?_⟩
  have hloop : (s.withWires b f).AtSelfJump p := ⟨h.fetching, h.running, h.scr, h.jump⟩
  have hwires := hrest.mono fun _ => Wires.sparesLoop_of_consoleAtRest p
  obtain ⟨x, m, o, b', f', hnow, -⟩ := run_selfJump_frame hloop hwires k
  obtain ⟨b'', f'', hnext⟩ := run_selfJump k hloop hwires
  exact ⟨_, _, hnow, hnext, ⟨s.scr, x, m, o, b', f', rfl⟩, rfl⟩

/-- Settles O48: the states of the run differ from the first in nothing that makes it a jump to itself. -/
theorem jumpToItselfIsADynamicStop : Obligations.JumpToItselfIsADynamicStop := by
  intro s p hfetching hrunning hscr hjump
  have hloop : s.AtSelfJump p := ⟨hfetching, hrunning, hscr, hjump⟩
  refine ⟨hloop.dynamicStop, fun hw k => ?_⟩
  obtain ⟨x, m, o, b, f, hrun, hpast⟩ := run_selfJump_frame hloop hw k
  have hstill : State.AtSelfJump { s with ir := x, modPending := m, out := o, wires := b, feed := f } p :=
    ⟨hfetching, hrunning, hscr, hjump⟩
  exact ⟨_, hrun, hstill.dynamicStop, x, m, o, b, f, rfl, hpast⟩

end Sys2Proof.Machine

/-! SUPPORT. Functions 50 to 57 (`43_group5_shift_mul_div.md`), with the fast shift of 65 and the no operations 66 and 67: the one-beat
functions, and what the last beat of a multiplication and of a division commits. -/

namespace Sys2Proof.Machine

open Sys2Proof

/-! ### The one-beat functions (R199, R239, R241, R242) -/

/-- `{0, AR[37:0]}` as a number (R199). -/
theorem arValue_eq (ar : Word) : arValue ar = BitVec.ofNat 39 (ar.toNat % 2 ^ 38) := by
  apply BitVec.eq_of_toNat_eq
  refine (toNat_append_eq 0#1 (ar.extractLsb' 0 38)).trans ?_
  rw [BitVec.extractLsb'_toNat, Nat.shiftRight_eq_div_pow, BitVec.toNat_ofNat]
  simp
  omega

/-- The count of the fast shift as a number (R83, R239). -/
theorem fastCount_eq (n : Address) : fastCount n = n.toNat % 64 := by
  simp [fastCount, BitVec.extractLsb'_toNat]

/-- A natural number reduced to a word (R7). -/
theorem word_natCast (k : Nat) : word k = BitVec.ofNat 39 k := BitVec.ofInt_natCast 39 k

/-- 39 places or more shift every bit out (R115). -/
theorem shlN_eq (a : Word) (c : Nat) : shlN a c = if 39 ≤ c then 0 else word (a.toNat * 2 ^ c) := by
  split
  next h => exact BitVec.shiftLeft_eq_zero h
  next =>
    apply BitVec.eq_of_toNat_eq
    rw [shlN, BitVec.toNat_shiftLeft, Nat.shiftLeft_eq, ← BitVec.toNat_ofNat, ← word_natCast]
    push_cast
    rfl

/-- The bits that leave at the top of a rotation enter at the bottom, where the shift has left zeros (R115). -/
theorem rolN_eq (a : Word) (c : Nat) :
    rolN a c = word ((a.toNat : Int) * 2 ^ (c % 39) + (a.toNat / 2 ^ (39 - c % 39) : Nat)) := by
  have hc : c % 39 < 39 := Nat.mod_lt _ (by decide)
  rw [rolN]
  generalize c % 39 = k at *
  obtain ⟨j, hj⟩ : ∃ j, 39 = k + j := ⟨39 - k, by omega⟩
  have hm : 2 ^ 39 = 2 ^ k * 2 ^ j := by rw [hj, pow_add]
  have hleave : a.toNat / 2 ^ j < 2 ^ k := Nat.div_lt_of_lt_mul (by rw [Nat.mul_comm, ← hm]; exact a.isLt)
  have hshift : a.toNat * 2 ^ k % 2 ^ 39 = 2 ^ k * (a.toNat % 2 ^ j) := by rw [hm, Nat.mul_comm, Nat.mul_mod_mul_left]
  have hsum : 2 ^ k * (a.toNat % 2 ^ j) + a.toNat / 2 ^ j < 2 ^ 39 := by
    calc 2 ^ k * (a.toNat % 2 ^ j) + a.toNat / 2 ^ j
        < 2 ^ k * (a.toNat % 2 ^ j + 1) := by rw [Nat.mul_succ]; exact Nat.add_lt_add_left hleave _
      _ ≤ 2 ^ k * 2 ^ j := Nat.mul_le_mul_left _ (Nat.mod_lt _ (by positivity))
      _ = 2 ^ 39 := hm.symm
  have hword : word ((a.toNat : Int) * 2 ^ k + (a.toNat / 2 ^ j : Nat)) = BitVec.ofNat 39 (a.toNat * 2 ^ k + a.toNat / 2 ^ j) := by
    rw [← word_natCast]
    push_cast
    rfl
  rw [show 39 - k = j by omega, hword]
  apply BitVec.eq_of_toNat_eq
  rw [BitVec.toNat_or, BitVec.toNat_shiftLeft, BitVec.toNat_ushiftRight, Nat.shiftLeft_eq, Nat.shiftRight_eq_div_pow, hshift,
    ← Nat.two_pow_add_eq_or_of_lt hleave, BitVec.toNat_ofNat, ← Nat.mod_add_mod, hshift, Nat.mod_eq_of_lt hsum]

/-- Function 65 with N < 4096, by the parameter `F65_FAST` (R239). -/
theorem exec_fn65Shift {n : Address} {s : State} (hs : s.Executing) (hl : s.longFn = false) :
    exec (.fn65Shift n) s =
      .next (State.ended { s with acc := fastShift s.params.fast65 s.acc (n.toNat % 64), ar := 0 } n (s.memRead n)) := by
  have hbeat := plainBeat_eq n (fun u => { u with acc := fastShift u.params.fast65 u.acc (fastCount n), ar := 0 }) hs hl rfl
  rw [← fastCount_eq]
  exact congrArg _ hbeat

/-- Settles O27: each is a beat of `K = 1` that leaves the store word as it was. -/
theorem readArFastShiftAndNoOps : Obligations.ReadArFastShiftAndNoOps := by
  intro n s hs hl
  refine ⟨?_, ?_, ?_, ?_⟩
  · rw [← arValue_eq]
    exact congrArg _ (plainBeat_eq n (fun u => { u with acc := arValue u.ar }) hs hl rfl)
  · rw [exec_fn65Shift hs hl]
    cases hfast : s.params.fast65 with
    | shift => simp only [fastShift, shlN_eq]
    | rotate => simp only [fastShift, rolN_eq]
  · exact congrArg _ (plainBeat_eq n id hs hl rfl)
  · exact congrArg _ (plainBeat_eq n id hs hl rfl)

/-! ### The last beat of a long function (R309) -/

/-- `MREG` after a beat that latches: the operand this beat computes with (R308). -/
theorem latched_eq_operandNow (s : State) (n : Address) :
    (if (true && !s.longFn) = true then s.memRead n else s.mreg) = s.operandNow n := by
  rw [State.operandNow]
  cases s.longFn <;> rfl

/-- The state a commit of 52, 53, 56 starts from: the operand latched, the scratch registers worked in. -/
def State.worked (s : State) (n : Address) (k : BitVec 7) : State := (s.begun n (fun _ => k) true).workScratch

theorem State.worked_mreg (s : State) (n : Address) (k : BitVec 7) : (s.worked n k).mreg = s.operandNow n :=
  latched_eq_operandNow s n

/-- The last beat of a long function that latches its operand: the result registers are those of the commit. -/
theorem longBeat_last {s : State} {n : Address} {k : BitVec 7} {commit : State → State} (hs : s.Executing) (hlast : s.lastBeat k)
    (hc : ∀ u, SequencedKeeps u (commit u)) :
    longBeat n k true commit s =
      let r := commit (s.worked n k)
      State.afterBeat { s with
        acc := r.acc, ar := r.ar, oflow := r.oflow, fpo := r.fpo, stopped := r.stopped, scratch := r.scratch, draws := r.draws
        mreg := (s.worked n k).mreg } n (s.memRead n) k := by
  rw [longBeat_eq n k true commit hs (hc _).frame]
  simp only [(lastBeat_iff s k).mp hlast, if_true]
  rfl

/-- A beat of a long function that latches its operand, before the last: no result is written. -/
theorem longBeat_waits {s : State} {n : Address} {k : BitVec 7} {commit : State → State} (hs : s.Executing) (hwait : ¬ s.lastBeat k)
    (hc : ∀ u, SequencedKeeps u (commit u)) :
    longBeat n k true commit s = State.afterBeat
      { s with mreg := s.operandNow n, scratch := Config.drawScratch s.draws, draws := s.draws + 1 } n (s.memRead n) k := by
  rw [longBeat_eq n k true commit hs (hc _).frame]
  simp only [mt (lastBeat_iff s k).mpr hwait, if_false, latched_eq_operandNow]
  rfl

/-! ### Multiplication (R194, R195) -/

/-- A word is given by its signed value. -/
theorem eq_word_iff (w : Word) {v : Int} (hlo : -2 ^ 38 ≤ v) (hhi : v < 2 ^ 38) : w = word v ↔ signed w = v := by
  constructor
  · rintro rfl
    rw [signed_word, Int.bmod_eq_of_le (by omega) (by omega)]
  · rintro rfl
    exact BitVec.ofInt_toInt.symm

/-- A product of two factors of 39 bits other than `(-2^38) * (-2^38)` stays clear of 2^76. -/
theorem signed_mul_le (a m : Word) (h : ¬ (signed a = -2 ^ 38 ∧ signed m = -2 ^ 38)) : signed a * signed m ≤ 2 ^ 76 - 2 ^ 38 := by
  obtain ⟨halo, hahi⟩ := signed_range a
  obtain ⟨hmlo, hmhi⟩ := signed_range m
  rw [not_and_or] at h
  rcases h with ha | hm
  · nlinarith [lt_of_le_of_ne halo (Ne.symm ha)]
  · nlinarith [lt_of_le_of_ne hmlo (Ne.symm hm)]

/-- The rounded product overflows for `(-2^38) * (-2^38)` alone (R195). -/
theorem not_fits39_rounded (a m : Word) :
    (!fits39 ((signed a * signed m + 2 ^ 37) / 2 ^ 38)) = decide (a = word (-2 ^ 38) ∧ m = word (-2 ^ 38)) := by
  have hlo : -2 ^ 76 ≤ signed a * signed m := by
    obtain ⟨halo, hahi⟩ := signed_range a
    obtain ⟨hmlo, hmhi⟩ := signed_range m
    nlinarith
  rw [not_fits39, decide_eq_decide, eq_word_iff a (by decide) (by decide), eq_word_iff m (by decide) (by decide)]
  constructor
  · intro hover
    by_contra h
    have := signed_mul_le a m h
    omega
  · rintro ⟨ha, hm⟩
    rw [ha, hm]
    decide

/-- Settles O24: both commits take the product of `ACC` and the operand latched on the first beat. -/
theorem multiplyResults : Obligations.MultiplyResults := by
  intro n s hs hlast
  refine ⟨Config.drawScratch s.draws, ?_, ?_⟩
  · rw [← State.worked_mreg s n s.params.mulLast]
    exact congrArg _ (longBeat_last hs hlast commitMultiply_keeps)
  · rw [← not_fits39_rounded, ← State.worked_mreg s n s.params.mulLast]
    exact congrArg _ (longBeat_last hs hlast commitRoundedMultiply_keeps)

/-! ### Division (R198) -/

/-- The remainder of floor division lies between 0 and the divisor, on the divisor's side of 0. -/
theorem fmod_range (D : Int) {d : Int} (hd : d ≠ 0) : (0 ≤ D.fmod d ∧ D.fmod d < d) ∨ (d < D.fmod d ∧ D.fmod d ≤ 0) := by
  rcases lt_or_gt_of_ne hd with hneg | hpos
  · right
    have hnonneg := Int.fmod_nonneg_of_pos (-D) (Int.neg_pos_of_neg hneg)
    have hlt := Int.fmod_lt_of_pos (-D) (Int.neg_pos_of_neg hneg)
    rw [Int.neg_fmod_neg] at hnonneg hlt
    omega
  · exact .inl ⟨Int.fmod_nonneg_of_pos D hpos, Int.fmod_lt_of_pos D hpos⟩

/-- Floor division of integers is the floor of the rational quotient. -/
theorem fdiv_eq_floor (D : Int) {d : Int} (hd : d ≠ 0) : D.fdiv d = ⌊(D : ℚ) / (d : ℚ)⌋ := by
  have hquot : (D : ℚ) / d = D.fdiv d + (D.fmod d : ℚ) / d := by
    have hdq : (d : ℚ) ≠ 0 := Int.cast_ne_zero.mpr hd
    have hsplit : (D : ℚ) = D.fdiv d * d + D.fmod d := by exact_mod_cast (Int.fdiv_mul_add_fmod D d).symm
    rw [hsplit, add_div, mul_div_cancel_right₀ _ hdq]
  obtain ⟨hlo, hhi⟩ : 0 ≤ (D.fmod d : ℚ) / d ∧ (D.fmod d : ℚ) / d < 1 := by
    rcases fmod_range D hd with ⟨hlo, hhi⟩ | ⟨hlo, hhi⟩
    · exact ⟨div_nonneg (by exact_mod_cast hlo) (by exact_mod_cast hlo.trans hhi.le),
        (div_lt_one (by exact_mod_cast hlo.trans_lt hhi)).mpr (by exact_mod_cast hhi)⟩
    · exact ⟨div_nonneg_of_nonpos (by exact_mod_cast hhi) (by exact_mod_cast hlo.le.trans hhi),
        (div_lt_one_of_neg (by exact_mod_cast hlo.trans_le hhi)).mpr (by exact_mod_cast hlo)⟩
  rw [eq_comm, Int.floor_eq_iff, hquot]
  exact ⟨le_add_of_nonneg_right hlo, add_lt_add_right hhi _⟩

/-- An admissible `DIV56` (R198) gives the floor of the quotient, or, when the division is not exact and the rounding not the default, the
ceiling. -/
theorem div56_cases (r : DivRounding) (D d : Int) :
    div56 r D d = D.fdiv d ∨ (r = .free ∧ D.fmod d ≠ 0 ∧ div56 r D d = D.fdiv d + 1) := by
  have hmod := Int.fdiv_mul_add_fmod D d
  by_cases hexact : D.fdiv d * d = D
  · left
    simp only [div56, hexact, if_true]
  · cases r with
    | floor =>
      left
      simp only [div56, hexact, Bool.false_eq_true, if_false]
    | free =>
      simp only [div56, hexact, if_false]
      split
      · exact .inr ⟨trivial, by omega, rfl⟩
      · exact .inl rfl

/-- The error of an admissible `DIV56` is less than the divisor. -/
theorem div56_error (r : DivRounding) (D : Int) {d : Int} (hd : d ≠ 0) : |div56 r D d * d - D| < |d| := by
  have hmod := Int.fdiv_mul_add_fmod D d
  have hrange := fmod_range D hd
  rcases div56_cases r D d with hq | ⟨-, hinexact, hq⟩
  · have herror : div56 r D d * d - D = -D.fmod d := by rw [hq]; omega
    rw [herror, Int.abs_eq_natAbs, Int.abs_eq_natAbs]
    omega
  · have herror : div56 r D d * d - D = d - D.fmod d := by rw [hq, add_mul]; omega
    rw [herror, Int.abs_eq_natAbs, Int.abs_eq_natAbs]
    omega

/-- An exact division has its quotient. -/
theorem div56_exact (r : DivRounding) {D d : Int} (h : d ∣ D) : div56 r D d * d = D := by
  rcases div56_cases r D d with hq | ⟨-, hinexact, -⟩
  · rw [hq, Int.fdiv_mul_cancel h]
  · exact absurd (Int.dvd_iff_fmod_eq_zero.mp h) hinexact

/-- The default of `DIV56` rounds down. -/
theorem div56_floor (D d : Int) : div56 .floor D d = D.fdiv d := by
  rcases div56_cases .floor D d with hq | ⟨hfree, -, -⟩
  · exact hq
  · cases hfree

/-- The zero divisor (U3). -/
theorem commitDivide_of_zero {u : State} (h : signed u.mreg = 0) :
    u.commitDivide = { u.drawn with acc := u.freeWord, ar := 0, oflow := true } := by
  simp only [State.commitDivide, h, if_true]

/-- Every other divisor. -/
theorem commitDivide_of_ne_zero {u : State} (h : signed u.mreg ≠ 0) :
    u.commitDivide =
      let q := div56 u.params.div56 (dl u.acc u.ar) (signed u.mreg)
      { u with acc := word q, ar := 0, oflow := u.oflow || !fits39 q } := by
  simp only [State.commitDivide, h, if_false]

/-- Settles O26: the quotient is `div56` of the double-length value and the latched operand. -/
theorem divideResults : Obligations.DivideResults := by
  intro n s hs hlast
  have hlong := longBeat_last (n := n) hs hlast commitDivide_keeps
  rw [← State.worked_mreg s n s.params.divLast]
  constructor
  · intro hd
    refine ⟨div56 s.params.div56 (dl s.acc s.ar) _, Config.drawScratch s.draws, div56_error _ _ hd, div56_exact _,
      fun hfloor => ?_, ?_⟩
    · rw [hfloor, div56_floor, fdiv_eq_floor _ hd]
    · rw [commitDivide_of_ne_zero hd] at hlong
      exact congrArg _ hlong
  · intro hd
    refine ⟨(s.worked n s.params.divLast).freeWord, Config.drawScratch s.draws, ?_⟩
    rw [commitDivide_of_zero hd] at hlong
    exact congrArg _ hlong

end Sys2Proof.Machine

/-! SUPPORT. Runs of an instruction of several beats (`50_cycle_controller.md` R307, R308): each beat but the last leaves the next one to
come, and the last leaves the fetch phase at the next `SCR`. -/

namespace Sys2Proof.Machine

open Sys2Proof

/-! ### One beat of an instruction of several -/

/-- `s` is in the execute phase of `i`, with no RESET to come. -/
structure State.Runs (s : State) (i : Instr) : Prop where
  inv : s.Inv
  executes : s.fetching = false
  ir : s.ir = encode i
  noReset : s.NoReset

/-- How many beats of an instruction of `k + 1` beats are still to come, this one included (R308). -/
def State.beatsLeft (s : State) (k : BitVec 7) : Nat := if s.longFn then s.t.toNat else k.toNat + 1

theorem State.beatsLeft_of_first {s : State} (k : BitVec 7) (hl : s.longFn = false) : s.beatsLeft k = k.toNat + 1 :=
  if_neg (Bool.eq_false_iff.mp hl)

/-- `T` after a beat counts the beats left after it. -/
theorem State.Inv.nextT_toNat {s : State} (h : s.Inv) (k : BitVec 7) : (s.nextT k).toNat + 1 = s.beatsLeft k := by
  have hcount := h.counter
  rw [State.nextT, State.beatsLeft]
  cases hl : s.longFn
  · rfl
  · have ht : s.t ≠ 0 := bne_iff_ne.mp (hcount.symm.trans hl)
    simp only [if_true]
    bv_omega

theorem State.Inv.lastBeat_iff_beatsLeft {s : State} (h : s.Inv) (k : BitVec 7) : s.lastBeat k ↔ s.beatsLeft k = 1 := by
  rw [lastBeat_iff, ← h.nextT_toNat k, BitVec.toNat_eq]
  exact Nat.add_eq_right.symm

/-- The machine has gone on from an instruction begun at `s` to the next one (R311). -/
structure State.Completed (s t : State) : Prop where
  fetching : t.fetching = true
  scr : t.scr = s.scr + 1
  longFn : t.longFn = false
  t : t.t = 0

/-- One beat, from `s` to `t`, of an instruction of `k + 1` beats. -/
structure BeatOf (i : Instr) (k : BitVec 7) (s t : State) : Prop where
  step : step s = .next t
  inv : t.Inv
  params : t.params = s.params
  goesOn : ¬ s.lastBeat k → t.Runs i ∧ t.longFn = true ∧ t.scr = s.scr ∧ t.beatsLeft k + 1 = s.beatsLeft k
  ends : s.lastBeat k → s.Completed t

/-- `B` is false in the execute phase of a sequenced instruction (R307). -/
theorem State.Runs.executing {s : State} {i : Instr} (h : s.Runs i) (hi : stallFunction (encode i) = false) :
    s.quietOutputs.Executing := by
  have hsequenced : stallFunction s.ir = false := h.ir ▸ hi
  have hfree : s.busy = false := Bool.eq_false_iff.mpr fun hb => nomatch (h.inv.busyStalls hb).symm.trans hsequenced
  exact ⟨h.executes, ⟨hfree, h.inv.storeWf⟩⟩

/-- A word-time of the execute phase is the beat of the instruction (R307). -/
theorem State.Runs.step {s u : State} {i : Instr} (h : s.Runs i) (hi : i.wellFormed = true) (he : exec i s.quietOutputs = .next u) :
    step s = .next u.nextWires := by
  apply step_of_wordTime
  rw [wordTime_execute h.noReset.1 h.executes, executeBeat_plain (s := s.quietOutputs) (h.inv.noJumpExecutes h.executes)]
  exact (congrArg (exec · _) (decode_eq_of_encode hi h.ir.symm)).trans he

/-- A beat that ends as R307 to R311 say, the handler having written no more than it may. -/
theorem State.Runs.beatOf {s v : State} {i : Instr} {n : Address} {w : Word} {k : BitVec 7} (h : s.Runs i) (hi : i.wellFormed = true)
    (he : exec i s.quietOutputs = .next (v.afterBeat n w k)) (hv : HandlerKeeps { s.quietOutputs with mreg := v.mreg } v) :
    BeatOf i k s (v.afterBeat n w k).nextWires := by
  have hstep := h.step hi he
  have hinv := everyStepKeepsTheInvariant s _ h.inv hstep
  unfold HandlerKeeps at hv
  have hnext : v.nextT k = s.nextT k := by rw [hv]; rfl
  have hscr : v.scr = s.scr := by rw [hv]; rfl
  have hir : v.ir = s.ir := by rw [hv]; rfl
  have hwires : v.Always fun w => w.reset = false := by rw [hv]; exact h.noReset
  refine ⟨hstep, hinv, by rw [hv]; rfl, fun hwait => ?_, fun hlast => ?_⟩
  · have hmore : v.nextT k ≠ 0 := hnext ▸ mt (lastBeat_iff s k).mpr hwait
    have hl : (v.afterBeat n w k).nextWires.longFn = true := decide_eq_true hmore
    refine ⟨⟨hinv, decide_eq_false hmore, hir.trans h.ir, ?_⟩, hl, (if_neg hmore).trans hscr, ?_⟩
    · exact State.Always.nextWires (s := v.afterBeat n w k) hwires fun _ => id
    · rw [← h.inv.nextT_toNat k, ← hnext, State.beatsLeft, if_pos hl]
      rfl
  · have hdone : v.nextT k = 0 := hnext.trans ((lastBeat_iff s k).mp hlast)
    exact ⟨decide_eq_true hdone, (if_pos hdone).trans (congrArg (· + 1) hscr), decide_eq_false (not_not.mpr hdone), hdone⟩

/-! ### The beats in a row -/

/-- A run goes on from where a shorter one ended. -/
theorem core_run_add {s t : State} {j k : Nat} (h : Sys2Proof.core.run j s = .next t) :
    Sys2Proof.core.run (j + k) s = Sys2Proof.core.run k t := by
  induction j generalizing s with
  | zero =>
    cases h
    rw [Nat.zero_add]
  | succ j ih =>
    cases hstep : step s with
    | next u =>
      rw [core_run_succ hstep] at h
      rw [Nat.succ_add, core_run_succ hstep]
      exact ih h
    | fault r => simp only [Host.Core.run, show Sys2Proof.core.step s = .fault r from hstep] at h; cases h
    | refused r => simp only [Host.Core.run, show Sys2Proof.core.step s = .refused r from hstep] at h; cases h

section
variable {α : Type} {obs : State → α} {f : α → α} {i : Instr} {k : BitVec 7}

/-- The beats before the last: `obs` is what is followed, and `f` what each of them does to it. -/
theorem run_before_last {s : State} {j : Nat}
    (hbeat : ∀ u, u.Runs i → u.params = s.params → ¬ u.lastBeat k → ∃ t, BeatOf i k u t ∧ obs t = f (obs u))
    (hs : s.Runs i) (hj : j < s.beatsLeft k) :
    ∃ t, Sys2Proof.core.run j s = .next t ∧ t.Runs i ∧ t.params = s.params ∧ t.scr = s.scr ∧
      t.beatsLeft k + j = s.beatsLeft k ∧ obs t = f^[j] (obs s) := by
  induction j generalizing s with
  | zero => exact ⟨s, rfl, hs, rfl, rfl, rfl, rfl⟩
  | succ j ih =>
    have hwait : ¬ s.lastBeat k := by
      rw [hs.inv.lastBeat_iff_beatsLeft]
      omega
    obtain ⟨u, hu, hobs⟩ := hbeat s hs rfl hwait
    obtain ⟨huruns, -, huscr, huleft⟩ := hu.goesOn hwait
    obtain ⟨t, hrun, htruns, hparams, hscr, hleft, htobs⟩ := ih (hu.params ▸ hbeat) huruns (by omega)
    exact ⟨t, (core_run_succ hu.step).trans hrun, htruns, hparams.trans hu.params, hscr.trans huscr, by omega,
      htobs.trans (congrArg f^[j] hobs)⟩

/-- The whole instruction, from its first beat: `q` is what its last beat makes of what was followed. -/
theorem run_instruction {s : State} {q : State → Prop}
    (hbeat : ∀ u, u.Runs i → u.params = s.params → ¬ u.lastBeat k → ∃ t, BeatOf i k u t ∧ obs t = f (obs u))
    (hlast : ∀ u, u.Runs i → u.params = s.params → u.lastBeat k → obs u = f^[k.toNat] (obs s) → ∃ t, BeatOf i k u t ∧ q t)
    (hs : s.Runs i) (hl : s.longFn = false) :
    ∃ t, Sys2Proof.core.run (k.toNat + 1) s = .next t ∧ t.Inv ∧ s.Completed t ∧ q t := by
  have hbeats := State.beatsLeft_of_first k hl
  obtain ⟨u, hrun, hu, hparams, hscr, hleft, hobs⟩ := run_before_last hbeat hs (by omega : k.toNat < s.beatsLeft k)
  have hulast : u.lastBeat k := (hu.inv.lastBeat_iff_beatsLeft k).mpr (by omega)
  obtain ⟨t, ht, hq⟩ := hlast u hu hparams hulast hobs
  obtain ⟨hfetching, hscr', hlong, htime⟩ := ht.ends hulast
  exact ⟨t, (core_run_add hrun).trans (core_run_succ ht.step), ht.inv, ⟨hfetching, hscr'.trans (by rw [hscr]), hlong, htime⟩, hq⟩

end

end Sys2Proof.Machine

/-! SUPPORT. Functions 50, 51, 54, 55 (`43_group5_shift_mul_div.md` R191 to R197) run to their end: a place of shift on every beat, and
what `c` places come to. -/

namespace Sys2Proof.Machine

open Sys2Proof

/-! ### The registers of a shift, place by place -/

/-- The registers after one place, `OFLOW` in the component for the overflow. -/
def placed (place : Word → Word → Shifted) (r : Shifted) : Shifted :=
  { acc := (place r.acc r.ar).acc, ar := (place r.acc r.ar).ar, ov := r.ov || (place r.acc r.ar).ov }

/-- The registers after one beat of a shift with count `c`: with a count of 0 the one beat shifts nothing. -/
def shiftedOnce (c : Nat) (place : Word → Word → Shifted) (r : Shifted) : Shifted := if c = 0 then r else placed place r

/-- All the beats of a shift come to `c` places. -/
theorem shiftedOnce_iterate (c : Nat) (place : Word → Word → Shifted) (r : Shifted) :
    (shiftedOnce c place)^[max 1 c] r = (placed place)^[c] r := by
  cases c with
  | zero => rfl
  | succ c =>
    rw [Nat.max_eq_right (Nat.succ_le_succ c.zero_le)]
    rfl

/-- The registers this beat of a shift starts from: on its first beat a single-length shift clears `AR` (R193, R197). -/
def State.shiftRegs (s : State) (clearAr : Bool) : Shifted :=
  { acc := s.acc, ar := if clearAr && !s.longFn then 0 else s.ar, ov := s.oflow }

/-- After the first beat they are the registers themselves. -/
theorem State.shiftRegs_of_long {s : State} (clearAr : Bool) (hl : s.longFn = true) :
    s.shiftRegs clearAr = { acc := s.acc, ar := s.ar, ov := s.oflow } := by
  simp only [State.shiftRegs, hl, Bool.not_true, Bool.and_false, Bool.false_eq_true, if_false]

/-- The state with these registers. -/
def State.withShiftRegs (s : State) (r : Shifted) : State := { s with acc := r.acc, ar := r.ar, oflow := r.ov }

/-- One beat of a shift (R191), in terms of the registers it works on. -/
theorem shiftBeat_regs {s : State} (n : Address) (clearAr : Bool) (place : Word → Word → Shifted) (hs : s.Executing) :
    shiftBeat n clearAr place s =
      (s.withShiftRegs (shiftedOnce (n.toNat % 128) place (s.shiftRegs clearAr))).afterBeat n (s.memRead n) (shiftLast n) := by
  rw [shiftBeat_eq n clearAr place hs, shiftedOnce]
  by_cases hc : n.toNat % 128 = 0
  · simp only [hc, if_true]
    rfl
  · simp only [hc, if_false]
    rfl

/-- The `K - 1` of a shift, one less than its number of beats (R191, R315). -/
theorem shiftLast_toNat (n : Address) : (shiftLast n).toNat + 1 = max 1 (n.toNat % 128) := by
  rw [shiftLast_eq_ofNat, BitVec.toNat_ofNat]
  omega

/-! ### The run of a shift -/

/-- `i` is a shift by the places its address field `n` counts. -/
structure IsShift (i : Instr) (n : Address) (clearAr : Bool) (place : Word → Word → Shifted) : Prop where
  wellFormed : i.wellFormed = true
  sequenced : stallFunction (encode i) = false
  exec : ∀ s, exec i s = .next (shiftBeat n clearAr place s)

section
variable {i : Instr} {n : Address} {clearAr : Bool} {place : Word → Word → Shifted} {s : State}

/-- A beat of the run shifts once. -/
theorem IsShift.beat (hi : IsShift i n clearAr place) (hs : s.Runs i) :
    ∃ t, BeatOf i (shiftLast n) s t ∧
      (⟨t.acc, t.ar, t.oflow⟩ : Shifted) = shiftedOnce (n.toNat % 128) place (s.shiftRegs clearAr) := by
  have hbeat := shiftBeat_regs n clearAr place (hs.executing hi.sequenced)
  exact ⟨_, hs.beatOf hi.wellFormed ((hi.exec _).trans (congrArg _ hbeat)) rfl, rfl⟩

/-- The run of a shift, from its first beat (R191). -/
theorem IsShift.run (hi : IsShift i n clearAr place) (hs : s.Runs i) (hl : s.longFn = false) :
    ∃ t, Sys2Proof.core.run (max 1 (n.toNat % 128)) s = .next t ∧ t.Inv ∧ s.Completed t ∧
      (⟨t.acc, t.ar, t.oflow⟩ : Shifted) = (placed place)^[n.toNat % 128] (s.shiftRegs clearAr) := by
  rw [← shiftedOnce_iterate, ← shiftLast_toNat]
  refine run_instruction (obs := (State.shiftRegs · clearAr)) (f := shiftedOnce (n.toNat % 128) place)
    (fun u hu _ hwait => ?_) (fun u hu _ _ hobs => ?_) hs hl
  · obtain ⟨t, ht, hregs⟩ := hi.beat hu
    obtain ⟨-, hlong, -⟩ := ht.goesOn hwait
    exact ⟨t, ht, (State.shiftRegs_of_long clearAr hlong).trans hregs⟩
  · obtain ⟨t, ht, hregs⟩ := hi.beat hu
    refine ⟨t, ht, ?_⟩
    rw [Function.iterate_succ_apply', ← hobs]
    exact hregs

end

/-! ### Several places right -/

/-- A place right has no overflow, so the pair of registers is all there is to follow (R111). -/
theorem placed_rightDouble_iterate (c : Nat) (r : Shifted) :
    (placed shiftRightDouble)^[c] r =
      { acc := (rightPlace^[c] (r.acc, r.ar)).1, ar := (rightPlace^[c] (r.acc, r.ar)).2, ov := r.ov } := by
  induction c with
  | zero => rfl
  | succ c ih =>
    rw [Function.iterate_succ_apply', ih, Function.iterate_succ_apply']
    exact congrArg (Shifted.mk _ _) (Bool.or_false _)

/-- A place right, single length, is the unsigned shift (R112). -/
theorem shiftRightSingle_acc_eq (acc ar : Word) : (shiftRightSingle acc ar).acc = acc >>> 1 := by
  apply BitVec.eq_of_toNat_eq
  rw [shiftRightSingle_acc, BitVec.toNat_ushiftRight, Nat.shiftRight_eq_div_pow]

/-- Places right, single length, leave `AR` and `OFLOW` (R112). -/
theorem placed_rightSingle_iterate (c : Nat) (r : Shifted) :
    (placed shiftRightSingle)^[c] r = { acc := r.acc >>> c, ar := r.ar, ov := r.ov } := by
  induction c with
  | zero => rfl
  | succ c ih =>
    rw [Function.iterate_succ_apply', ih, BitVec.shiftRight_add, ← shiftRightSingle_acc_eq _ r.ar]
    exact congrArg (Shifted.mk _ _) (Bool.or_false _)

/-! ### Several places left -/

/-- A place left overflows when twice the accumulator does not fit (R113, R114). -/
theorem leftOverflow_eq (acc : Word) : leftOverflow acc = decide (signed acc * 2 < -2 ^ 38 ∨ 2 ^ 38 ≤ signed acc * 2) := by
  have hlt := acc.isLt
  have bit (k : Nat) : acc.getLsbD k = decide (acc.toNat / 2 ^ k % 2 = 1) := by
    rw [← BitVec.testBit_toNat, Nat.testBit_eq_decide_div_mod_eq]
  rw [leftOverflow, bit, bit, signed_eq, Bool.eq_iff_iff]
  simp only [Bool.xor_iff_ne, ne_eq, decide_eq_decide, decide_eq_true_iff]
  split <;> omega

/-- The low half of a double-length value does not decide whether twice the value fits (R113). -/
theorem leftOverflow_eq_dl (acc ar : Word) : leftOverflow acc = decide (dl acc ar * 2 < -2 ^ 76 ∨ 2 ^ 76 ≤ dl acc ar * 2) := by
  have hlow : arLow ar < 2 ^ 38 := Nat.mod_lt _ (by decide)
  rw [leftOverflow_eq, dl, decide_eq_decide]
  omega

/-- The range of a double-length value, in the form of R196. -/
theorem not_fits77 (v : Int) : (!(decide (-2 ^ 76 ≤ v) && decide (v ≤ 2 ^ 76 - 1))) = decide (v < -2 ^ 76 ∨ 2 ^ 76 ≤ v) := by
  rw [Bool.eq_iff_iff]
  simp only [Bool.not_eq_true', Bool.and_eq_false_iff, decide_eq_false_iff_not, decide_eq_true_iff]
  omega

/-- The overflows of `c` places left together: the value times 2^c leaves the range `-h` to `h - 1`. A value that has left it does not
come back by doubling, and one that has not is its own residue modulo `m = 2 h`. -/
theorem placed_left_iterate_ov {place : Word → Word → Shifted} {val : Shifted → Int} {r : Shifted} {h : Int} {m : Nat}
    (hm : (m : Int) = 2 * h) (hr : -h ≤ val r ∧ val r < h)
    (hov : ∀ q : Shifted, (place q.acc q.ar).ov = decide (val q * 2 < -h ∨ h ≤ val q * 2))
    (hval : ∀ c, val ((placed place)^[c] r) = Int.bmod (val r * 2 ^ c) m) (c : Nat) :
    ((placed place)^[c] r).ov = (r.ov || decide (val r * 2 ^ c < -h ∨ h ≤ val r * 2 ^ c)) := by
  induction c with
  | zero =>
    have hin : ¬ (val r * 2 ^ 0 < -h ∨ h ≤ val r * 2 ^ 0) := by omega
    rw [decide_eq_false hin, Bool.or_false]
    rfl
  | succ c ih =>
    rw [Function.iterate_succ_apply', placed, ih, hov, hval, Bool.or_assoc, pow_succ, ← mul_assoc]
    generalize val r * 2 ^ c = v
    by_cases hin : v < -h ∨ h ≤ v
    · have hout : v * 2 < -h ∨ h ≤ v * 2 := by omega
      rw [decide_eq_true hin, decide_eq_true hout, Bool.true_or]
    · rw [decide_eq_false hin, Bool.false_or, Int.bmod_eq_of_le (by omega) (by omega)]

/-- `c` places left, double length: the value modulo 2^77 (R113). -/
theorem dl_placed_leftDouble_iterate (c : Nat) (r : Shifted) :
    dl ((placed shiftLeftDouble)^[c] r).acc ((placed shiftLeftDouble)^[c] r).ar = Int.bmod (dl r.acc r.ar * 2 ^ c) (2 ^ 77) := by
  have hpair : Function.Semiconj (fun q : Shifted => (q.acc, q.ar)) (placed shiftLeftDouble) leftPlace := fun _ => rfl
  have hiter := hpair.iterate_right c r
  have hdl := dl_leftPlace_iterate c (r.acc, r.ar)
  rw [← hiter] at hdl
  exact hdl

/-- `c` places left, single length: the accumulator times 2^c modulo 2^39, `AR` left (R114). -/
theorem placed_leftSingle_iterate (c : Nat) (r : Shifted) :
    ((placed shiftLeftSingle)^[c] r).acc = word (signed r.acc * 2 ^ c) ∧ ((placed shiftLeftSingle)^[c] r).ar = r.ar := by
  induction c with
  | zero => exact ⟨by rw [pow_zero, mul_one]; exact BitVec.ofInt_toInt.symm, rfl⟩
  | succ c ih =>
    obtain ⟨hacc, har⟩ := ih
    rw [Function.iterate_succ_apply']
    refine ⟨?_, har⟩
    calc (shiftLeftSingle ((placed shiftLeftSingle)^[c] r).acc ((placed shiftLeftSingle)^[c] r).ar).acc
        = word (signed (word (signed r.acc * 2 ^ c)) * 2) := by rw [shiftLeftSingle_acc, hacc]
      _ = word (signed r.acc * 2 ^ c) * 2 := by rw [word, BitVec.ofInt_mul, signed, BitVec.ofInt_toInt]; rfl
      _ = word (signed r.acc * 2 ^ (c + 1)) := by rw [pow_succ, ← mul_assoc, word, word, BitVec.ofInt_mul _ 2]; rfl

/-- `c` places left, double length, overflow when the value times 2^c does not fit 77 bits (R196). -/
theorem placed_leftDouble_iterate_ov (c : Nat) (r : Shifted) :
    ((placed shiftLeftDouble)^[c] r).ov =
      (r.ov || decide (dl r.acc r.ar * 2 ^ c < -2 ^ 76 ∨ 2 ^ 76 ≤ dl r.acc r.ar * 2 ^ c)) :=
  placed_left_iterate_ov (r := r) (val := fun q => dl q.acc q.ar) (h := 2 ^ 76) (m := 2 ^ 77) rfl (dl_range r.acc r.ar)
    (fun q => leftOverflow_eq_dl q.acc q.ar) (fun c => dl_placed_leftDouble_iterate c r) c

/-- `c` places left, single length, overflow when the value times 2^c does not fit 39 bits (R197). -/
theorem placed_leftSingle_iterate_ov (c : Nat) (r : Shifted) :
    ((placed shiftLeftSingle)^[c] r).ov = (r.ov || decide (signed r.acc * 2 ^ c < -2 ^ 38 ∨ 2 ^ 38 ≤ signed r.acc * 2 ^ c)) := by
  have hval (c : Nat) : signed ((placed shiftLeftSingle)^[c] r).acc = Int.bmod (signed r.acc * 2 ^ c) (2 ^ 39) := by
    rw [(placed_leftSingle_iterate c r).left, signed_word]
  exact placed_left_iterate_ov (r := r) (val := fun q => signed q.acc) (h := 2 ^ 38) (m := 2 ^ 39) rfl (signed_range r.acc)
    (fun q => leftOverflow_eq q.acc) hval c

/-! ### The obligations -/

theorem isShift_fn50 (n : Address) : IsShift (.fn50 n) n false shiftRightDouble := ⟨rfl, stallFunction_encode _, fun _ => rfl⟩

theorem isShift_fn51 (n : Address) : IsShift (.fn51 n) n true shiftRightSingle := ⟨rfl, stallFunction_encode _, fun _ => rfl⟩

theorem isShift_fn54 (n : Address) : IsShift (.fn54 n) n false shiftLeftDouble := ⟨rfl, stallFunction_encode _, fun _ => rfl⟩

theorem isShift_fn55 (n : Address) : IsShift (.fn55 n) n true shiftLeftSingle := ⟨rfl, stallFunction_encode _, fun _ => rfl⟩

/-- Settles O20: `AR[38]` is 0 at the end, so the pair is determined by its value. -/
theorem shiftRightDoubleRun : Obligations.ShiftRightDoubleRun := by
  intro n s hinv hexec hir hl hreset
  obtain ⟨t, hrun, htinv, ⟨hfetching, hscr, hlong, htime⟩, hregs⟩ := (isShift_fn50 n).run ⟨hinv, hexec, hir, hreset⟩ hl
  rw [placed_rightDouble_iterate, Shifted.mk.injEq] at hregs
  obtain ⟨hacc, har, hoflow⟩ := hregs
  refine ⟨t, hrun, ?_, hoflow, hfetching, hscr, hlong, htime⟩
  rw [← dlpair_dl htinv.arSign, hacc, har, dl_rightPlace_iterate]
  rfl

/-- Settles O21: `AR` is cleared before the first place, and no place brings anything into it. -/
theorem shiftRightSingleRun : Obligations.ShiftRightSingleRun := by
  intro n s hinv hexec hir hl hreset
  obtain ⟨t, hrun, -, ⟨hfetching, hscr, hlong, htime⟩, hregs⟩ := (isShift_fn51 n).run ⟨hinv, hexec, hir, hreset⟩ hl
  rw [placed_rightSingle_iterate, Shifted.mk.injEq] at hregs
  obtain ⟨hacc, har, hoflow⟩ := hregs
  refine ⟨t, hrun, hacc, har.trans ?_, hoflow, hfetching, hscr, hlong, htime⟩
  rw [State.shiftRegs, hl]
  rfl

/-- Settles O22: as O20, and the overflows of the places are the one overflow of the product. -/
theorem shiftLeftDoubleRun : Obligations.ShiftLeftDoubleRun := by
  intro n s hinv hexec hir hl hreset
  obtain ⟨t, hrun, htinv, ⟨hfetching, hscr, hlong, htime⟩, hregs⟩ := (isShift_fn54 n).run ⟨hinv, hexec, hir, hreset⟩ hl
  have hdl := dl_placed_leftDouble_iterate (n.toNat % 128) (s.shiftRegs false)
  have hov := placed_leftDouble_iterate_ov (n.toNat % 128) (s.shiftRegs false)
  rw [← hregs] at hdl hov
  refine ⟨t, hrun, ?_, ?_, hfetching, hscr, hlong, htime⟩
  · exact (dlpair_dl htinv.arSign).symm.trans (congrArg dlpair hdl)
  · rw [not_fits77]
    exact hov

/-- Settles O23: the value is the accumulator alone, and `AR` is cleared before the first place. -/
theorem shiftLeftSingleRun : Obligations.ShiftLeftSingleRun := by
  intro n s hinv hexec hir hl hreset
  obtain ⟨t, hrun, -, ⟨hfetching, hscr, hlong, htime⟩, hregs⟩ := (isShift_fn55 n).run ⟨hinv, hexec, hir, hreset⟩ hl
  obtain ⟨hacc, har⟩ := placed_leftSingle_iterate (n.toNat % 128) (s.shiftRegs true)
  have hov := placed_leftSingle_iterate_ov (n.toNat % 128) (s.shiftRegs true)
  rw [← hregs] at hacc har hov
  refine ⟨t, hrun, hacc, har.trans ?_, ?_, hfetching, hscr, hlong, htime⟩
  · rw [State.shiftRegs, hl]
    rfl
  · rw [not_fits39]
    exact hov

end Sys2Proof.Machine

/-! SUPPORT. Function 52 (`43_group5_shift_mul_div.md` R194, R201) run to its end: every beat but the last leaves the registers and the
latched operand, and the last commits the product. -/

namespace Sys2Proof.Machine

open Sys2Proof

/-- What function 52 keeps until its last beat: `ACC`, `AR`, `OFLOW`, and the operand it computes with. -/
structure Factors where
  acc : Word
  ar : Word
  oflow : Bool
  operand : Word

/-- The multiplication a state is in the middle of. -/
def State.factors (s : State) (n : Address) : Factors :=
  { acc := s.acc, ar := s.ar, oflow := s.oflow, operand := s.operandNow n }

/-- The exact product (R194). -/
def Factors.product (f : Factors) : Int := signed f.acc * signed f.operand

section
variable {n : Address} {s : State}

/-- The first beat computes with the operand it reads (R308). -/
theorem State.operandNow_of_first (hl : s.longFn = false) : s.operandNow n = s.memRead n :=
  if_neg (Bool.eq_false_iff.mp hl)

/-- Every later beat computes with `MREG` (R308). -/
theorem State.operandNow_of_long (hl : s.longFn = true) : s.operandNow n = s.mreg := if_pos hl

theorem fn52_sequenced (n : Address) : stallFunction (encode (.fn52 n)) = false := stallFunction_encode _

/-- A beat of 52 before the last (R309). -/
theorem fn52_waits (hs : s.Runs (.fn52 n)) (hwait : ¬ s.lastBeat s.params.mulLast) :
    ∃ t, BeatOf (.fn52 n) s.params.mulLast s t ∧ t.factors n = s.factors n := by
  have hbeat := longBeat_waits (n := n) (hs.executing (fn52_sequenced n)) hwait commitMultiply_keeps
  have ht := hs.beatOf rfl (congrArg Host.Outcome.next hbeat) rfl
  obtain ⟨-, hlong, -⟩ := ht.goesOn hwait
  exact ⟨_, ht, congrArg (Factors.mk _ _ _) (State.operandNow_of_long hlong)⟩

/-- The last beat of 52 (R194). -/
theorem fn52_commits (hs : s.Runs (.fn52 n)) (hlast : s.lastBeat s.params.mulLast) :
    ∃ t, BeatOf (.fn52 n) s.params.mulLast s t ∧ (t.acc, t.ar) = dlpair (s.factors n).product ∧
      t.oflow = ((s.factors n).oflow || decide ((s.factors n).product = 2 ^ 76)) := by
  obtain ⟨x, hbeat, -⟩ := multiplyResults n s.quietOutputs (hs.executing (fn52_sequenced n)) hlast
  exact ⟨_, hs.beatOf rfl hbeat rfl, rfl, rfl⟩

end

/-- Settles O25: the operand of the first beat is still the one in `MREG` on the last. -/
theorem multiplyRun : Obligations.MultiplyRun := by
  intro n s hinv hexec hir hl hreset
  have hs : s.Runs (.fn52 n) := ⟨hinv, hexec, hir, hreset⟩
  have hwaits (u : State) (hu : u.Runs (.fn52 n)) (hparams : u.params = s.params) (hwait : ¬ u.lastBeat s.params.mulLast) :
      ∃ t, BeatOf (.fn52 n) s.params.mulLast u t ∧ t.factors n = id (u.factors n) :=
    hparams ▸ fn52_waits hu (hparams ▸ hwait)
  rw [← State.operandNow_of_first hl]
  constructor
  · have hcommits (u : State) (hu : u.Runs (.fn52 n)) (hparams : u.params = s.params) (hlast : u.lastBeat s.params.mulLast)
        (hkept : u.factors n = id^[s.params.mulLast.toNat] (s.factors n)) :
        ∃ t, BeatOf (.fn52 n) s.params.mulLast u t ∧ (t.acc, t.ar) = dlpair (s.factors n).product ∧
          t.oflow = ((s.factors n).oflow || decide ((s.factors n).product = 2 ^ 76)) := by
      rw [Function.iterate_id, id] at hkept
      exact hkept ▸ hparams ▸ fn52_commits hu (hparams ▸ hlast)
    obtain ⟨t, hrun, -, ⟨hfetching, hscr, hlong, -⟩, hpair, hoflow⟩ := run_instruction hwaits hcommits hs hl
    exact ⟨t, hrun, hpair, hoflow, hfetching, hscr, hlong⟩
  · intro j hj
    have hleft : s.beatsLeft s.params.mulLast = s.params.mulLast.toNat + 1 := State.beatsLeft_of_first _ hl
    obtain ⟨t, hrun, ht, -, hscr, -, hfactors⟩ := run_before_last hwaits hs (by omega : j < s.beatsLeft s.params.mulLast)
    rw [Function.iterate_id, id] at hfactors
    obtain ⟨hacc, har, hoflow, -⟩ := Factors.mk.inj hfactors
    exact ⟨t, hrun, hacc, har, hoflow, ht.executes, hscr⟩

end Sys2Proof.Machine

/-! SUPPORT. The floating-point arithmetic of `44_group6_float.md` R221 to R225: what an exact result is as a rational number, its one
normalising exponent, and the word a rounding makes of it. -/

namespace Sys2Proof.Machine

open Sys2Proof

/-! ### Exact results as rational numbers (R221) -/

/-- The value of a word (R221). -/
theorem fpVal_toRat (w : Word) : (fpVal w).toRat = ratVal w := by
  rw [Exact.toRat, ratVal, sub_sub]
  simp [fpVal]

theorem two_pow_toNat_sub {e lo : ℤ} (h : lo ≤ e) : (2 : ℚ) ^ (e - lo).toNat * 2 ^ lo = 2 ^ e := by
  rw [← zpow_natCast, Int.toNat_of_nonneg (sub_nonneg.mpr h), ← zpow_add₀ two_ne_zero, sub_add_cancel]

theorem Exact.toRat_add {x y : Exact} (hx : x.den = 1) (hy : y.den = 1) : (x.add y).toRat = x.toRat + y.toRat := by
  simp only [Exact.toRat, Exact.add, hx, hy, Nat.cast_one, div_one]
  push_cast
  rw [add_mul, mul_assoc, mul_assoc, two_pow_toNat_sub (min_le_left _ _), two_pow_toNat_sub (min_le_right _ _)]

theorem Exact.toRat_neg (x : Exact) : x.neg.toRat = -x.toRat := by
  simp only [Exact.toRat, Exact.neg]
  push_cast
  ring

theorem Exact.toRat_mul (x y : Exact) : (x.mul y).toRat = x.toRat * y.toRat := by
  simp only [Exact.toRat, Exact.mul]
  push_cast
  rw [zpow_add₀ two_ne_zero, mul_div_mul_comm, mul_mul_mul_comm]

theorem Exact.toRat_div {x y : Exact} (hx : x.den = 1) (hy : y.den = 1) (h : y.num ≠ 0) : (x.div y).toRat = x.toRat / y.toRat := by
  have hsign : (y.num.sign : ℚ) / y.num.natAbs = 1 / y.num := by
    rw [div_eq_div_iff (by simpa using h) (by simpa using h), one_mul, Nat.cast_natAbs]
    exact_mod_cast Int.sign_mul_self_eq_abs y.num
  simp only [Exact.toRat, Exact.div, hx, hy, Nat.cast_one, div_one]
  push_cast
  rw [mul_div_assoc, hsign, zpow_sub₀ two_ne_zero, mul_one_div, div_mul_div_comm]

/-- The rational number a floating-point operation rounds (R225, R240). -/
def fpValue (op : FpOp) (a n : Word) : ℚ :=
  match op with
  | .add => ratVal a + ratVal n
  | .sub => ratVal a - ratVal n
  | .mul => ratVal a * ratVal n
  | .div => ratVal a / ratVal n
  | .std => (signed a : ℚ)

theorem fpExact_den {op : FpOp} {a n : Word} (h : op = .div → fpMant n ≠ 0) : (fpExact op a n).den ≠ 0 := by
  cases op with
  | div => exact Int.natAbs_ne_zero.mpr (h rfl)
  | add | sub | mul | std => exact one_ne_zero

/-- The exact result of the model is the result on the values of the words. -/
theorem fpExact_toRat {op : FpOp} {a n : Word} (h : op = .div → fpMant n ≠ 0) : (fpExact op a n).toRat = fpValue op a n := by
  cases op with
  | add => rw [fpExact, Exact.toRat_add rfl rfl, fpVal_toRat, fpVal_toRat, fpValue]
  | sub => rw [fpExact, Exact.toRat_add rfl rfl, Exact.toRat_neg, fpVal_toRat, fpVal_toRat, fpValue, sub_eq_add_neg]
  | mul => rw [fpExact, Exact.toRat_mul, fpVal_toRat, fpVal_toRat, fpValue]
  | div => rw [fpExact, Exact.toRat_div rfl rfl (h rfl), fpVal_toRat, fpVal_toRat, fpValue]
  | std => simp [fpExact, Exact.toRat, fpValue]

/-! ### The normalising exponent (R224) -/

theorem Exact.significand_add (v : Exact) (k j : ℤ) : v.significand (k + j) = v.significand k * 2 ^ j := by
  rw [Exact.significand, Exact.significand, zpow_add₀ two_ne_zero, mul_assoc]

theorem Exact.normShift_unique {v : Exact} (hn : v.num ≠ 0) (hd : v.den ≠ 0) {k : ℤ} (h : NormalRange (v.significand k)) :
    k = v.normShift := by
  rw [← add_sub_cancel v.normShift k, v.significand_add] at h
  exact sub_eq_zero.mp (NormalRange_unique (v.normShift_spec hn hd) h)

/-- The true exponent `x` of R224. -/
def Exact.trueExp (v : Exact) : ℤ := v.exp + 29 - v.normShift

/-- The fraction `v / 2^x` of R224 is a significand with the binary point after its sign. -/
theorem Exact.toRat_div_two_zpow (v : Exact) (x : ℤ) : v.toRat / 2 ^ x = v.significand (v.exp + 29 - x) / 2 ^ 29 := by
  have hexp : (2 : ℚ) ^ v.exp / 2 ^ x = 2 ^ (v.exp + 29 - x) / 2 ^ 29 := by
    rw [add_sub_right_comm, zpow_add₀ two_ne_zero, zpow_sub₀ two_ne_zero]
    exact (mul_div_cancel_right₀ _ (by norm_num)).symm
  rw [Exact.toRat, Exact.significand, mul_div_assoc, hexp, mul_div_assoc]

theorem Exact.fraction_trueExp (v : Exact) : v.toRat / 2 ^ v.trueExp * 2 ^ 29 = v.significand v.normShift := by
  rw [v.toRat_div_two_zpow, Exact.trueExp, sub_sub_cancel, div_mul_cancel₀ _ (by norm_num)]

/-- The normalised fractions of R224 are the normalised mantissas. -/
theorem normalRange_iff_fraction (q : ℚ) :
    NormalRange q ↔ (1 / 2 ≤ q / 2 ^ 29 ∧ q / 2 ^ 29 < 1) ∨ (-1 ≤ q / 2 ^ 29 ∧ q / 2 ^ 29 < -1 / 2) := by
  have hpos : (0 : ℚ) < 2 ^ 29 := by norm_num
  rw [NormalRange, le_div_iff₀ hpos, div_lt_iff₀ hpos, le_div_iff₀ hpos, div_lt_iff₀ hpos]
  norm_num

/-! ### The rounded mantissa (R224, R225) -/

/-- The mantissa before renormalisation: the floor of the significand, or the next integer. -/
def Exact.roundedMant (v : Exact) (up : Bool) : ℤ :=
  v.floorAt v.normShift + if up && !v.integralAt v.normShift then 1 else 0

theorem fpRoundTo_zero (up : Bool) {v : Exact} (hn : v.num = 0) : fpRoundTo up v = some 0 := if_pos hn

theorem fpRoundTo_eq (up : Bool) {v : Exact} (hn : v.num ≠ 0) : fpRoundTo up v = fpPack (v.roundedMant up) v.trueExp := if_neg hn

theorem Exact.normalised_floorAt {v : Exact} (hn : v.num ≠ 0) (hd : v.den ≠ 0) : normalised (v.floorAt v.normShift) = true := by
  rw [v.floorAt_eq _ hd, normalised_floor]
  exact v.normShift_spec hn hd

theorem normalised_iff (m : ℤ) : normalised m = true ↔ (2 ^ 28 ≤ m ∧ m < 2 ^ 29) ∨ (-2 ^ 29 ≤ m ∧ m < -2 ^ 28) := by
  simp [normalised]

/-- What `fpPack` renormalises: a normalised mantissa, or one that the rounding has carried past the end of its range. -/
def CarriedRange (m : ℤ) : Prop := (2 ^ 28 ≤ m ∧ m ≤ 2 ^ 29) ∨ (-2 ^ 29 ≤ m ∧ m ≤ -2 ^ 28)

theorem Exact.roundedMant_range {v : Exact} (up : Bool) (hn : v.num ≠ 0) (hd : v.den ≠ 0) : CarriedRange (v.roundedMant up) := by
  have hfloor := (normalised_iff _).mp (Exact.normalised_floorAt hn hd)
  unfold CarriedRange Exact.roundedMant
  split <;> omega

theorem Exact.roundedMant_of_integer {v : Exact} (up : Bool) (hd : v.den ≠ 0) {m : ℤ} (h : v.significand v.normShift = m) :
    v.roundedMant up = m := by
  have hfloor : ⌊v.significand v.normShift⌋ = m := by rw [h, Int.floor_intCast]
  have hint : v.integralAt v.normShift = true := by rw [v.integralAt_eq _ hd, hfloor, h]
  rw [Exact.roundedMant, hint, v.floorAt_eq _ hd, hfloor]
  simp

/-- Rounding half up looks at the first discarded bit alone (R120). -/
theorem floor_add_half (q : ℚ) : ⌊q + 1 / 2⌋ = ⌊q⌋ + if ⌊2 * q⌋ % 2 = 1 then 1 else 0 := by
  have hlo := Int.floor_le q
  have hhi := Int.lt_floor_add_one q
  rw [Int.floor_eq_iff]
  rcases lt_or_ge (2 * q) (2 * ⌊q⌋ + 1) with hbelow | habove
  · have hbit : ⌊2 * q⌋ = 2 * ⌊q⌋ := by
      rw [Int.floor_eq_iff]
      push_cast
      constructor <;> linarith
    rw [if_neg (by omega)]
    push_cast
    constructor <;> linarith
  · have hbit : ⌊2 * q⌋ = 2 * ⌊q⌋ + 1 := by
      rw [Int.floor_eq_iff]
      push_cast
      constructor <;> linarith
    rw [if_pos (by omega)]
    push_cast
    constructor <;> linarith

theorem Exact.halfUp_iff (v : Exact) (hd : v.den ≠ 0) : v.halfUp = true ↔ ⌊2 * v.significand v.normShift⌋ % 2 = 1 := by
  rw [Exact.halfUp, beq_iff_eq, v.floorAt_eq _ hd, v.significand_succ]

/-- The default rounding takes the nearest integer, half up (R224). -/
theorem Exact.roundedMant_halfUp (v : Exact) (hd : v.den ≠ 0) :
    v.roundedMant v.halfUp = ⌊v.significand v.normShift + 1 / 2⌋ := by
  by_cases hint : v.integralAt v.normShift = true
  · have hq := (v.integralAt_eq _ hd).mp hint
    rw [v.roundedMant_of_integer v.halfUp hd hq.symm, ← hq, floor_add_half, Int.floor_intCast, if_neg, add_zero]
    have hdouble : (2 : ℚ) * (⌊v.significand v.normShift⌋ : ℤ) = ((2 * ⌊v.significand v.normShift⌋ : ℤ) : ℚ) := by push_cast; rfl
    rw [hdouble, Int.floor_intCast]
    omega
  · rw [Exact.roundedMant, v.floorAt_eq _ hd, floor_add_half, Bool.eq_false_iff.mpr hint]
    simp only [Bool.not_false, Bool.and_true, v.halfUp_iff hd]

/-! ### The packed word (R222, R224, R232) -/

/-- The mantissa after renormalisation (R224). -/
def renormalisedMant (m : ℤ) : ℤ := if m = 2 ^ 29 then 2 ^ 28 else if m = -2 ^ 28 then -2 ^ 29 else m

/-- The true exponent after renormalisation (R224). -/
def renormalisedExp (m x : ℤ) : ℤ := if m = 2 ^ 29 then x + 1 else if m = -2 ^ 28 then x - 1 else x

/-- The end of `FpRound`: mantissa and exponent are renormalised, then the ends of the exponent range are looked at (R224, R231, R232). -/
theorem fpPack_eq (m x : ℤ) :
    fpPack m x =
      if renormalisedExp m x + 256 > 511 then none
      else if renormalisedExp m x + 256 < 0 then some 0
      else some (fpJoin (renormalisedMant m) (renormalisedExp m x + 256).toNat) := by
  unfold fpPack renormalisedExp renormalisedMant
  by_cases hup : m = 2 ^ 29
  · simp only [if_pos hup]
  · by_cases hdown : m = -2 ^ 28
    · simp only [if_neg hup, if_pos hdown]
    · simp only [if_neg hup, if_neg hdown]

theorem renormalised_of_normalised {m : ℤ} (x : ℤ) (hm : normalised m = true) :
    renormalisedMant m = m ∧ renormalisedExp m x = x := by
  rw [normalised_iff] at hm
  have hup : m ≠ 2 ^ 29 := by omega
  have hdown : m ≠ -2 ^ 28 := by omega
  simp only [renormalisedMant, renormalisedExp, if_neg hup, if_neg hdown, and_self]

theorem normalised_renormalisedMant {m : ℤ} (hm : CarriedRange m) : normalised (renormalisedMant m) = true := by
  rw [normalised_iff]
  unfold CarriedRange at hm
  unfold renormalisedMant
  split
  · omega
  · split <;> omega

theorem renormalisedExp_le (m x : ℤ) : renormalisedExp m x ≤ x + 1 := by
  unfold renormalisedExp
  split
  · omega
  · split <;> omega

theorem fpStandard_fpJoin {m : ℤ} (hm : normalised m = true) {e : ℕ} (he : e < 512) : fpStandard (fpJoin m e) = true := by
  have hrange := (normalised_iff m).mp hm
  rw [fpStandard_iff, fpMant_fpJoin (by omega) (by omega) he]
  exact .inr hm

theorem fpPack_standard {m x : ℤ} {w : Word} (hm : CarriedRange m) (h : fpPack m x = some w) : fpStandard w = true := by
  rw [fpPack_eq] at h
  split at h
  · cases h
  · split at h
    · cases h
      rfl
    · cases h
      exact fpStandard_fpJoin (normalised_renormalisedMant hm) (by omega)

theorem fpPack_normalised {m : ℤ} (hm : normalised m = true) {e : ℕ} (he : e < 512) : fpPack m (e - 256) = some (fpJoin m e) := by
  obtain ⟨hmant, hexp⟩ := renormalised_of_normalised (e - 256) hm
  rw [fpPack_eq, hmant, hexp, sub_add_cancel, if_neg (by omega), if_neg (by omega), Int.toNat_natCast]

/-- Up to the largest exponent but one there is no overflow, carry or not. -/
theorem fpPack_fits (m : ℤ) {x : ℤ} (hx : x < 255) : ∃ w, fpPack m x = some w := by
  have hexp := renormalisedExp_le m x
  rw [fpPack_eq, if_neg (by omega)]
  split
  · exact ⟨_, rfl⟩
  · exact ⟨_, rfl⟩

/-! ### The rounded result (R224, R225) -/

/-- The default gives the reference on the normalised fraction. -/
theorem fpRound_eq {v : Exact} (hn : v.num ≠ 0) (hd : v.den ≠ 0) :
    fpRound v = fpPack ⌊v.toRat / 2 ^ v.trueExp * 2 ^ 29 + 1 / 2⌋ v.trueExp := by
  rw [fpRound, fpRoundTo_eq _ hn, v.roundedMant_halfUp hd, v.fraction_trueExp]

theorem fpRoundTo_standard {up : Bool} {v : Exact} {w : Word} (hd : v.den ≠ 0) (h : fpRoundTo up v = some w) : fpStandard w = true := by
  by_cases hn : v.num = 0
  · cases (fpRoundTo_zero up hn).symm.trans h
    rfl
  · exact fpPack_standard (v.roundedMant_range up hn hd) ((fpRoundTo_eq up hn).symm.trans h)

theorem Exact.toRat_eq_zero_iff {v : Exact} (hd : v.den ≠ 0) : v.toRat = 0 ↔ v.num = 0 := by
  simp [Exact.toRat, hd, zpow_ne_zero]

/-- The value of a word over `2^x`, `x` its own exponent, is its mantissa (R221). -/
theorem ratVal_div_two_zpow (w : Word) : ratVal w / 2 ^ ((fpExp w : ℤ) - 256) = fpMant w / 2 ^ 29 := by
  rw [ratVal, mul_div_assoc, zpow_sub₀ two_ne_zero, div_right_comm, div_self (zpow_ne_zero _ two_ne_zero), mul_one_div]
  rfl

/-- A representable value rounds to its word, whatever the rounding (R224, R225 (2)). -/
theorem fpRoundTo_of_toRat_eq (up : Bool) {v : Exact} {w : Word} (hd : v.den ≠ 0) (hw : fpStandard w = true) (h : v.toRat = ratVal w) :
    fpRoundTo up v = some w := by
  rcases (fpStandard_iff w).mp hw with rfl | hm
  · refine fpRoundTo_zero up ((Exact.toRat_eq_zero_iff hd).mp (h.trans ?_))
    simp [ratVal, fpMant_eq, signed]
  · have hsig : v.significand (v.exp + 29 - ((fpExp w : ℤ) - 256)) = fpMant w := by
      have hfrac := v.toRat_div_two_zpow ((fpExp w : ℤ) - 256)
      rw [h, ratVal_div_two_zpow] at hfrac
      exact ((div_left_inj' (by norm_num)).mp hfrac).symm
    have hnormal : NormalRange (fpMant w : ℚ) := by rwa [← normalised_floor, Int.floor_intCast]
    have hn : v.num ≠ 0 := by
      rw [Ne, ← Exact.toRat_eq_zero_iff hd, h, ratVal]
      refine mul_ne_zero (fun h0 => ?_) (zpow_ne_zero _ two_ne_zero)
      rw [h0] at hnormal
      unfold NormalRange at hnormal
      norm_num at hnormal
    have hshift := Exact.normShift_unique hn hd (hsig ▸ hnormal)
    have hexp : v.trueExp = (fpExp w : ℤ) - 256 := by rw [Exact.trueExp, ← hshift, sub_sub_cancel]
    have he : fpExp w < 512 := by rw [fpExp_eq]; omega
    rw [fpRoundTo_eq up hn, v.roundedMant_of_integer up hd (hshift ▸ hsig), hexp, fpPack_normalised hm he, fpJoin_fpMant_fpExp]

/-- Every admissible `FPNUM` rounds the exact result to a neighbour (R225, log 6). -/
theorem fpNum_eq_fpRoundTo (r : FpRounding) (op : FpOp) (a n : Word) : ∃ up, fpNum r op a n = fpRoundTo up (fpExact op a n) := by
  cases r with
  | halfUp => exact ⟨_, rfl⟩
  | free => exact ⟨_, rfl⟩

theorem fpNum_of_representable (r : FpRounding) (op : FpOp) {a n w : Word} (hdiv : op = .div → fpMant n ≠ 0) (hw : fpStandard w = true)
    (h : ratVal w = fpValue op a n) : fpNum r op a n = some w := by
  obtain ⟨up, hup⟩ := fpNum_eq_fpRoundTo r op a n
  rw [hup]
  exact fpRoundTo_of_toRat_eq up (fpExact_den hdiv) hw ((fpExact_toRat hdiv).trans h.symm)

/-- The true exponent of an integer of 39 bits is at most 39. -/
theorem trueExp_std_le (a n : Word) : (fpExact .std a n).trueExp ≤ 39 := by
  have hlog : (signed a).natAbs.log2 ≤ 38 := by
    have hrange := signed_range a
    rw [Nat.log2_eq_log_two, ← Nat.lt_succ_iff]
    exact Nat.log_lt_of_lt_pow' (by norm_num) (by omega)
  have h1 : Nat.log2 1 = 0 := Nat.log2_two_pow (n := 0)
  simp only [Exact.trueExp, Exact.normShift, fpExact, h1]
  split <;> omega

/-- The conversion of an integer cannot overflow (R240). -/
theorem fpNum_std_fits (r : FpRounding) (a n : Word) : ∃ w, fpNum r .std a n = some w := by
  obtain ⟨up, hup⟩ := fpNum_eq_fpRoundTo r .std a n
  rw [hup]
  by_cases hn : (fpExact .std a n).num = 0
  · exact ⟨0, fpRoundTo_zero up hn⟩
  · rw [fpRoundTo_eq up hn]
    exact fpPack_fits _ (lt_of_le_of_lt (trueExp_std_le a n) (by norm_num))

/-! ### The obligations -/

/-- Settles O33: rounding leaves a normalised mantissa or one at the end of its range, which `fpPack` renormalises. -/
theorem floatResultsAreInStandardForm : Obligations.FloatResultsAreInStandardForm := by
  intro r op a n w hdiv h
  obtain ⟨up, hup⟩ := fpNum_eq_fpRoundTo r op a n
  exact fpRoundTo_standard (fpExact_den hdiv) (hup.symm.trans h)

/-- Settles O34: the value of a word is representable. -/
theorem roundingKeepsRepresentableValues : Obligations.RoundingKeepsRepresentableValues :=
  fun up w hw => fpRoundTo_of_toRat_eq up one_ne_zero hw (fpVal_toRat w)

/-- Settles O35: the normalising exponent is that of `normShift`, and no other power of two normalises. -/
theorem fpRoundIsTheReference : Obligations.FpRoundIsTheReference := by
  intro v hn hd
  refine ⟨v.trueExp, ?_, fun y hy => ?_, ?_⟩
  · rw [v.toRat_div_two_zpow, ← normalRange_iff_fraction, Exact.trueExp, sub_sub_cancel]
    exact v.normShift_spec hn hd
  · rw [v.toRat_div_two_zpow, ← normalRange_iff_fraction] at hy
    rw [Exact.trueExp, ← Exact.normShift_unique hn hd hy, sub_sub_cancel]
  · exact (fpRound_eq hn hd).trans (fpPack_eq _ _)

/-- The exact result is the one rational number every `FPNUM` rounds (R225). -/
theorem fpNum_rounds (op : FpOp) (a n : Word) (hdiv : op = .div → fpMant n ≠ 0) :
    ∃ v : Exact, v.den ≠ 0 ∧ v.toRat = fpValue op a n ∧ fpNum .halfUp op a n = fpRound v ∧
      ∀ r : FpRounding, ∃ up : Bool, fpNum r op a n = fpRoundTo up v :=
  ⟨fpExact op a n, fpExact_den hdiv, fpExact_toRat hdiv, rfl, fun r => fpNum_eq_fpRoundTo r op a n⟩

/-- Settles O36, one operation at a time. -/
theorem fpnumRoundsTheExactResult : Obligations.FpnumRoundsTheExactResult := by
  intro a n
  refine ⟨?_, ?_, ?_, fun hdiv => ?_, ?_⟩
  · exact fpNum_rounds .add a n nofun
  · exact fpNum_rounds .sub a n nofun
  · exact fpNum_rounds .mul a n nofun
  · exact fpNum_rounds .div a n fun _ => hdiv
  · exact fpNum_rounds .std a 0 nofun

/-- Settles O37, one operation at a time. -/
theorem representableResultsAreExact : Obligations.RepresentableResultsAreExact := by
  intro r a n w hw
  refine ⟨?_, ?_, ?_, fun hdiv => ?_, ?_⟩
  · exact fpNum_of_representable r .add nofun hw
  · exact fpNum_of_representable r .sub nofun hw
  · exact fpNum_of_representable r .mul nofun hw
  · exact fpNum_of_representable r .div (fun _ => hdiv) hw
  · exact fpNum_of_representable r .std nofun hw

end Sys2Proof.Machine

/-! SUPPORT. Functions 60 to 65 on their last beat (`44_group6_float.md` R230 to R240): a long function whose commit writes `ACC`, `AR`,
and, on overflow or by a free choice, `FPO` with `S`. -/

namespace Sys2Proof.Machine

open Sys2Proof

/-! ### What the commit of 60 to 64 writes (R230, R231, R236, U7) -/

theorem commitFloat_of_standard (u : State) {op : FpOp} {a b : Word} (hdiv : op = .div → fpMant b ≠ 0) (ha : fpStandard a = true)
    (hb : fpStandard b = true) : u.commitFloat op a b = u.floatResult (fpNum u.params.fpNum op a b) := by
  rw [State.commitFloat, if_neg fun h => hdiv h.1 h.2, ha, hb]
  rfl

/-- `ACC` holds the word `v` and `AR` is cleared; `stop` says whether `FPO` and `S` are set; one free value is drawn. -/
def State.unspecified (u : State) (v : Word) (stop : Bool) : State :=
  { u with acc := v, ar := 0, fpo := u.fpo || stop, stopped := u.stopped || stop, draws := u.draws + 1 }

theorem floatOverflow_unspecified (u : State) : u.floatOverflow = u.unspecified u.freeWord true := by
  simp [State.floatOverflow, State.unspecified, State.floatStop, State.drawn]

theorem floatZeroMantissa_unspecified (u : State) : u.floatZeroMantissa = u.unspecified u.freeWord u.freeFlag := by
  cases h : u.freeFlag <;> simp [State.floatZeroMantissa, State.unspecified, State.floatStop, State.drawn, h]

theorem floatUnspecified_unspecified (u : State) : ∃ v, u.floatUnspecified = u.unspecified v u.freeFlag := by
  cases h : u.freeFlag with
  | true =>
    refine ⟨u.freeWord, ?_⟩
    rw [State.floatUnspecified, if_pos h, floatOverflow_unspecified]
  | false =>
    refine ⟨if fpStandard u.freeWord then u.freeWord else 0, ?_⟩
    simp [State.floatUnspecified, State.unspecified, State.drawn, h]

/-- An operand that is not in standard form, be it a zero mantissa in the divisor or not. -/
theorem commitFloat_of_not_standard (u : State) (op : FpOp) {a b : Word} (h : fpStandard a = false ∨ fpStandard b = false) :
    ∃ v stop, u.commitFloat op a b = u.unspecified v stop := by
  have hboth : (fpStandard a && fpStandard b) = false := Bool.and_eq_false_iff.mpr h
  by_cases hzero : op = .div ∧ fpMant b = 0
  · refine ⟨u.freeWord, u.freeFlag, ?_⟩
    rw [State.commitFloat, if_pos hzero, floatZeroMantissa_unspecified]
  · obtain ⟨v, hv⟩ := floatUnspecified_unspecified u
    refine ⟨v, u.freeFlag, ?_⟩
    rw [State.commitFloat, if_neg hzero, hboth, if_neg Bool.false_ne_true, hv]

/-! ### The last beat -/

/-- The end of a last beat that has made `FPNUM`'s result `r` (R230), or overflowed (R231). -/
def EndsWithFloat (s : State) (n : Address) (k : BitVec 7) (m : Word) (r : Option Word)
    (o : Host.Outcome State Fault Refusal) : Prop :=
  ∃ x : Scratch,
    match r with
    | some w => o = .next (State.afterBeat
        { s with acc := w, ar := 0, mreg := m, scratch := x, draws := s.draws + 1 } n (s.memRead n) k)
    | none => ∃ v : Word, o = .next (State.afterBeat
        { s with
          acc := v, ar := 0, fpo := true, stopped := true
          mreg := m, scratch := x, draws := s.draws + 2 } n (s.memRead n) k)

/-- The end of a last beat whose result is not specified (U4, U7). -/
def EndsUnspecified (s : State) (n : Address) (k : BitVec 7) (m : Word) (o : Host.Outcome State Fault Refusal) : Prop :=
  ∃ (v : Word) (x : Scratch) (stop : Bool), o = .next (State.afterBeat
    { s with
      acc := v, ar := 0, fpo := s.fpo || stop, stopped := s.stopped || stop
      mreg := m, scratch := x, draws := s.draws + 2 } n (s.memRead n) k)

section
variable {s : State} {n : Address} {k : BitVec 7} {o : Host.Outcome State Fault Refusal}
variable {op : FpOp} {left right : State → Word} {a b : Word}

/-- The last beat of a long function that commits a floating-point operation on operands in standard form. -/
theorem longBeat_endsWithFloat (ho : o = .next (longBeat n k true (fun u => u.commitFloat op (left u) (right u)) s)) (hs : s.Executing)
    (hlast : s.lastBeat k) (hleft : left (s.worked n k) = a) (hright : right (s.worked n k) = b)
    (hdiv : op = .div → fpMant b ≠ 0) (ha : fpStandard a = true) (hb : fpStandard b = true) :
    EndsWithFloat s n k (s.operandNow n) (fpNum s.params.fpNum op a b) o := by
  have hbeat := longBeat_last (n := n) hs hlast fun u => commitFloat_keeps u op (left u) (right u)
  have hparams : (s.worked n k).params = s.params := rfl
  rw [hleft, hright, commitFloat_of_standard _ hdiv ha hb, State.worked_mreg, hparams] at hbeat
  rw [ho, hbeat]
  refine ⟨Config.drawScratch s.draws, ?_⟩
  cases fpNum s.params.fpNum op a b with
  | some w => rfl
  | none => exact ⟨_, rfl⟩

/-- The last beat of a long function that commits a floating-point operation on an operand not in standard form. -/
theorem longBeat_endsUnspecified (ho : o = .next (longBeat n k true (fun u => u.commitFloat op (left u) (right u)) s)) (hs : s.Executing)
    (hlast : s.lastBeat k) (hleft : left (s.worked n k) = a) (hright : right (s.worked n k) = b)
    (h : fpStandard a = false ∨ fpStandard b = false) : EndsUnspecified s n k (s.operandNow n) o := by
  have hbeat := longBeat_last (n := n) hs hlast fun u => commitFloat_keeps u op (left u) (right u)
  obtain ⟨v, stop, hv⟩ := commitFloat_of_not_standard (s.worked n k) op h
  rw [hleft, hright, hv, State.worked_mreg] at hbeat
  rw [ho, hbeat]
  exact ⟨v, Config.drawScratch s.draws, stop, rfl⟩

end

/-! ### Functions 60 to 63 -/

/-- Settles O29: each of the four commits its operation on `ACC` and the latched operand; 62 takes them the other way round. -/
theorem floatResults : Obligations.FloatResults := by
  intro n s hs m hacc hm
  refine ⟨fun hlast => ⟨?_, ?_, ?_⟩, fun hlast => ?_⟩
  · exact longBeat_endsWithFloat (left := State.acc) (right := State.mreg) rfl hs hlast rfl (s.worked_mreg n 1) nofun hacc hm
  · exact longBeat_endsWithFloat (left := State.acc) (right := State.mreg) rfl hs hlast rfl (s.worked_mreg n 1) nofun hacc hm
  · exact longBeat_endsWithFloat (left := State.mreg) (right := State.acc) rfl hs hlast (s.worked_mreg n 1) rfl nofun hm hacc
  · exact longBeat_endsWithFloat (left := State.acc) (right := State.mreg) rfl hs hlast rfl (s.worked_mreg n 15) nofun hacc hm

/-! ### Function 64 (R236, R238) -/

/-- But for the first beat with the zero-word divisor, 64 is a long function of 32 beats. -/
theorem exec_fn64_long {s : State} (n : Address) (h : s.longFn = true ∨ s.memRead n ≠ 0) :
    exec (.fn64 n) s = .next (longBeat n 31 true (fun u => u.commitFloat .div u.acc u.mreg) s) := by
  have hwork : (!s.longFn && s.memRead n == 0) = false := by
    rcases h with hl | hw
    · rw [hl]
      rfl
    · rw [beq_eq_false_iff_ne.mpr hw, Bool.and_false]
  have hbegun : (s.clearOnRead n).sequence (divideLast (s.memRead n)) true (s.memRead n) =
      (s.clearOnRead n).sequence 31 true (s.memRead n) := by
    rcases h with hl | hw
    · simp [State.sequence, hl]
    · rw [divideLast, if_neg hw]
  change Host.Outcome.next (sequencedBeat n divideLast true _ s) = _
  simp only [sequencedBeat, longBeat, hbegun, State.divideWork, hwork, Bool.false_eq_true, if_false]
  rfl

/-- The zero-word divisor ends 64 on its first beat (R236). -/
theorem exec_fn64_zero {s : State} {n : Address} (hs : s.Executing) (hl : s.longFn = false) (hw : s.memRead n = 0) :
    exec (.fn64 n) s = .next (State.ended { s with fpo := true, stopped := true, mreg := 0 } n 0) := by
  have hbeat := sequencedBeat_eq n divideLast true
    (fun first last sc s => { state := s.divideWork first last sc, sc := sc }) hs (divideWork_keeps _ _ _ _).frame
  rw [hl, hw] at hbeat
  exact congrArg _ (hbeat.trans (afterBeat_zero n 0 rfl))

theorem fpMant_ne_zero {w : Word} (hstd : fpStandard w = true) (hw : w ≠ 0) : fpMant w ≠ 0 := by
  have hnormal := (normalised_iff _).mp (((fpStandard_iff w).mp hstd).resolve_left hw)
  omega

/-- `T` 1 in the middle of a long function: this beat is its last (R308). -/
theorem lastBeat_of_long {s : State} (k : BitVec 7) (hl : s.longFn = true) (ht : s.t = 1) : s.lastBeat k := by
  rw [State.lastBeat, if_pos hl]
  exact ht

/-- Settles O30, the first beat with either kind of divisor, and the last. -/
theorem floatDivideResults : Obligations.FloatDivideResults := by
  intro n s hs
  refine ⟨exec_fn64_zero hs, fun hl hw => ?_, fun hl ht hacc hm hne => ?_⟩
  · have hwait : ¬ s.lastBeat 31 := by simp [State.lastBeat, hl]
    have hbeat := longBeat_waits (n := n) hs hwait fun u => commitFloat_keeps u .div u.acc u.mreg
    rw [State.operandNow_of_first hl] at hbeat
    refine ⟨_, Config.drawScratch s.draws, (exec_fn64_long n (.inr hw)).trans (congrArg _ hbeat), rfl, ?_⟩
    simp [State.afterBeat, State.nextT, hl]
  · have hmreg : (s.worked n 31).mreg = s.mreg := (s.worked_mreg n 31).trans (State.operandNow_of_long hl)
    have hends := longBeat_endsWithFloat (left := State.acc) (right := State.mreg) (exec_fn64_long n (.inl hl)) hs
      (lastBeat_of_long 31 hl ht) rfl hmreg (fun _ => fpMant_ne_zero hm hne) hacc hm
    rw [State.operandNow_of_long hl] at hends
    exact hends

/-! ### Operands not in standard form (R223) -/

/-- Settles O31: whatever the operation, a free word goes to `ACC`. -/
theorem floatOnUnnormalisedOperandsCompletes : Obligations.FloatOnUnnormalisedOperandsCompletes := by
  intro n s hs m h
  refine ⟨fun hlast => ⟨?_, ?_, ?_⟩, fun hlast => ?_, fun hl ht => ?_⟩
  · exact longBeat_endsUnspecified (left := State.acc) (right := State.mreg) rfl hs hlast rfl (s.worked_mreg n 1) h
  · exact longBeat_endsUnspecified (left := State.acc) (right := State.mreg) rfl hs hlast rfl (s.worked_mreg n 1) h
  · exact longBeat_endsUnspecified (left := State.mreg) (right := State.acc) rfl hs hlast (s.worked_mreg n 1) rfl h.symm
  · exact longBeat_endsUnspecified (left := State.acc) (right := State.mreg) rfl hs hlast rfl (s.worked_mreg n 15) h
  · exact longBeat_endsUnspecified (left := State.acc) (right := State.mreg) (exec_fn64_long n (.inl hl)) hs
      (lastBeat_of_long 31 hl ht) rfl (s.worked_mreg n 31) h

/-! ### Function 65 with N of 4096 or more (R240) -/

/-- Settles O32: the conversion always gives a word, which is committed. -/
theorem standardiseResults : Obligations.StandardiseResults := by
  intro n s hs hlast
  obtain ⟨r, hr⟩ := fpNum_std_fits s.params.fpNum s.acc 0
  refine ⟨r, Config.drawScratch s.draws, hr, ?_⟩
  have hbeat := longBeat_eq n s.params.stdLast false (fun u => u.floatResult (fpNum u.params.fpNum .std u.acc 0)) hs
    (floatResult_keeps _ _).frame
  have hcommit : fpNum (s.begun n (fun _ => s.params.stdLast) false).workScratch.params.fpNum .std
      (s.begun n (fun _ => s.params.stdLast) false).workScratch.acc 0 = some r := hr
  simp only [(lastBeat_iff s _).mp hlast, if_true, hcommit] at hbeat
  exact congrArg _ hbeat

end Sys2Proof.Machine

/-! SUPPORT. Functions 70 to 77 (`45_group7_io.md`): one beat of each, waiting or not, and the stalls that last for ever
(`70_reset_and_hazards.md` R365 condition 3). -/

namespace Sys2Proof.Machine

open Sys2Proof

/-! ### The words these functions make -/

/-- The button fields as numbers (R320); bit 19 is 0. -/
theorem wordGenerator_eq (w : Wires) :
    w.wordGenerator = BitVec.ofNat 39 (w.f1.toNat * 2 ^ 33 + w.n1.toNat * 2 ^ 20 + w.f2.toNat * 2 ^ 13 + w.n2.toNat) := by
  have hsum : w.wordGenerator.toNat = w.f1.toNat * 2 ^ 33 + w.n1.toNat * 2 ^ 20 + w.f2.toNat * 2 ^ 13 + w.n2.toNat := by
    simp only [Wires.wordGenerator, toNat_append_eq, BitVec.toNat_ofNat]
    omega
  rw [← hsum, BitVec.ofNat_toNat, BitVec.setWidth_eq]

/-- The link as a number (R264): the half is dropped. -/
theorem linkWord_eq (scr : BitVec 14) : linkWord scr = BitVec.ofNat 39 (scr.toNat / 2) := by
  rw [linkWord, ← BitVec.ofNat_toNat, scrWord_toNat]

/-! ### One beat outside `Sequence` (R260) -/

theorem readGenerator_waits {u : State} (h : u.wires.md = true ∧ u.wires.operate = false) : u.readGenerator = { u with busy := true } :=
  if_pos (by simpa using h)

theorem readGenerator_reads {u : State} (h : ¬ (u.wires.md = true ∧ u.wires.operate = false)) :
    u.readGenerator = { u with acc := u.wires.wordGenerator, busy := false } :=
  if_neg (by simpa using h)

/-- The state a handler outside `Sequence` is given (R307). -/
def State.ioBegun (s : State) (n : Address) : State := { s.clearOnRead n with lastWt := false }

section
variable {s : State} {n : Address} (hf : s.fetching = false) (hl : s.longFn = false) (hw : s.store.wf = true)
include hf hl hw

/-- A beat whose handler leaves `a` in `ACC`, `b` in `B` and drives `o`. -/
theorem ioBeat_of_handler {h : State → State} {a : Word} {b : Bool} {o : Outputs}
    (hh : h (s.ioBegun n) = { s.ioBegun n with acc := a, busy := b, out := o }) :
    ioBeat n h s = State.afterIo { s with acc := a, busy := b, out := o } n (s.memRead n) := by
  have hkeeps : IoKeeps (s.ioBegun n) (h (s.ioBegun n)) := by
    rw [hh]
    rfl
  exact (ioBeat_eq n h hf hl hw hkeeps).trans (by rw [← State.ioBegun, hh])

/-- A beat of 70 that waits for the operate event. -/
theorem exec_fn70_waits (h : s.wires.md = true ∧ s.wires.operate = false) :
    exec (.fn70 n) s = .next (State.afterIo { s with busy := true } n (s.memRead n)) :=
  congrArg _ (ioBeat_of_handler hf hl hw (readGenerator_waits h))

/-- A beat of 70 that reads the buttons. -/
theorem exec_fn70_reads (h : ¬ (s.wires.md = true ∧ s.wires.operate = false)) :
    exec (.fn70 n) s = .next (State.afterIo { s with acc := s.wires.wordGenerator, busy := false } n (s.memRead n)) :=
  congrArg _ (ioBeat_of_handler hf hl hw (readGenerator_reads h))

/-- With `READY` the transfer `g` is made on the accumulator, and acknowledged. -/
theorem transferBeat_ready {g : State → Word} {o : Outputs} (hr : s.wires.ready = true) :
    ioBeat n (fun u => u.transfer o fun u => { u with acc := g u }) s =
      State.afterIo { s with acc := g (s.ioBegun n), busy := false, out := { o with act := true } } n (s.memRead n) :=
  ioBeat_of_handler hf hl hw (if_pos hr)

/-- Without `READY` no transfer `g` is made, and `B` is set. -/
theorem transferBeat_waits {g : State → State} {o : Outputs} (hr : s.wires.ready = false) :
    ioBeat n (fun u => u.transfer o g) s = State.afterIo { s with busy := true, out := o } n (s.memRead n) :=
  ioBeat_of_handler hf hl hw (if_neg (Bool.eq_false_iff.mp hr))

/-- A busy stall sets `B`. -/
theorem stallBeat_eq : ioBeat n (fun u => { u with busy := true }) s = State.afterIo { s with busy := true } n (s.memRead n) :=
  ioBeat_of_handler hf hl hw rfl

end

/-! ### The obligations about one beat -/

/-- Settles O38: the two branches of the wait on manual data. -/
theorem wordGeneratorRead : Obligations.WordGeneratorRead := by
  intro n s hf hl hw b wg
  by_cases hwait : b.md = true ∧ b.operate = false
  · rw [if_pos hwait]
    exact exec_fn70_waits hf hl hw hwait
  · rw [if_neg hwait, ← wordGenerator_eq]
    exact exec_fn70_reads hf hl hw hwait

/-- Settles O39: the three differ in the strobe and in what `READY` transfers. -/
theorem peripheralTransfers : Obligations.PeripheralTransfers := by
  intro n s hf hl hw w lines
  refine ⟨fun hr => ?_, fun hr => ?_⟩
  · rw [BitVec.ofNat_toNat]
    have ready (g : State → Word) {o} := transferBeat_ready (n := n) (g := g) (o := o) hf hl hw hr
    exact ⟨congrArg _ (ready fun u => u.acc ||| u.wires.trlines.setWidth 39), congrArg _ (ready State.acc),
      congrArg _ (ready State.acc)⟩
  · have waits {g o} := transferBeat_waits (n := n) (g := g) (o := o) hf hl hw hr
    exact ⟨congrArg _ waits, congrArg _ waits, congrArg _ waits⟩

/-- Settles O40: 73 is a one-beat sequenced function that writes back the link. -/
theorem linkIsStored : Obligations.LinkIsStored := by
  intro n s hs hl
  rw [← linkWord_eq, ← afterBeat_zero n _ hl]
  exact congrArg _ (sequencedBeat_eq n (fun _ => 0) false (fun _ _ _ u => ⟨u, linkWord u.scr⟩) hs rfl)

/-- Settles O41: the two stalls are one beat outside `Sequence`, 77 a sequenced function that does nothing in its two. -/
theorem stallsAndTwoBeatNoOp : Obligations.StallsAndTwoBeatNoOp := by
  intro n s hf hw
  refine ⟨fun hl => ?_, fun hb => ?_⟩
  · have stall := stallBeat_eq (n := n) hf hl hw
    exact ⟨congrArg _ stall, congrArg _ stall⟩
  · exact congrArg _ (sequencedBeat_eq n (fun _ => 1) false (fun _ _ sc u => ⟨u, sc⟩) ⟨hf, hb, hw⟩ rfl)

/-! ### The stalls that last for ever (R365 condition 3) -/

/-- A word-time of a stall before the wires change: the lines `o` are driven and `B` is set, besides what every beat reloads. -/
def State.stalledBeat (s : State) (n : Address) (o : Outputs) : State := State.afterIo { s with busy := true, out := o } n (s.memRead n)

/-- An instruction word is the encoding of every instruction with its function code and its address. -/
theorem eq_encode_of_fields {x : InstrBits} {i : Instr} (hcode : fnField x = i.code) (haddress : addressField x = i.address) :
    x = encode i := by
  rw [encode, ← hcode, ← haddress]
  exact (fields_append x).symm

/-- The functions of a permanent stall are among the six outside `Sequence` (R307). -/
theorem State.StallsForEver.stallFunction {s : State} (h : s.StallsForEver) : stallFunction s.ir = true := by
  rw [Machine.stallFunction]
  rcases h with (h | h) | ⟨h | h | h, -⟩ | ⟨h, -⟩ <;> rw [h] <;> rfl

/-- Whatever the function, its beat in a permanent stall sets `B` and makes no transfer. -/
theorem State.StallsForEver.exec_eq {s : State} (h : s.StallsForEver) (hf : s.fetching = false) (hl : s.longFn = false)
    (hw : s.store.wf = true) :
    ∃ i n o, s.ir = encode i ∧ i.wellFormed = true ∧ exec i s.quietOutputs = .next (s.stalledBeat n o) := by
  have waits {n : Address} (hr : s.wires.ready = false) := (peripheralTransfers n s.quietOutputs hf hl hw).2 hr
  have stalls {n : Address} := (stallsAndTwoBeatNoOp n s.quietOutputs hf hw).1 hl
  rcases h with (h | h) | ⟨h | h | h, hready, -⟩ | ⟨h, hheld, -⟩
  · exact ⟨.fn75 (addressField s.ir), _, _, eq_encode_of_fields h rfl, rfl, stalls.1⟩
  · exact ⟨.fn76 (addressField s.ir), _, _, eq_encode_of_fields h rfl, rfl, stalls.2⟩
  · exact ⟨.fn71 (addressField s.ir), _, _, eq_encode_of_fields h rfl, rfl, (waits hready).1⟩
  · exact ⟨.fn72 (addressField s.ir), _, _, eq_encode_of_fields h rfl, rfl, (waits hready).2.1⟩
  · exact ⟨.fn74 (addressField s.ir), _, _, eq_encode_of_fields h rfl, rfl, (waits hready).2.2⟩
  · exact ⟨.fn70 (addressField s.ir), _, _, eq_encode_of_fields h rfl, rfl, exec_fn70_waits (s := s.quietOutputs) hf hl hw hheld⟩

/-- No function stalls because of the operate event, so the stall outlives a change of the wires. -/
theorem State.StallsForEver.nextWires {s : State} (h : s.StallsForEver) : s.nextWires.StallsForEver := by
  rcases h with h | ⟨h, hready⟩ | ⟨h, hheld⟩
  · exact .inl h
  · exact .inr (.inl ⟨h, hready.nextWires fun _ => id⟩)
  · exact .inr (.inr ⟨h, hheld.nextWires fun _ hw => ⟨hw.1, rfl⟩⟩)

/-- `s` stands in a stall that only RESET could end, and none is to come. -/
structure State.StaysStalled (s : State) : Prop where
  inv : s.Inv
  stall : s.PermanentStall
  noReset : s.NoReset

/-- The registers and the flag a stall leaves alone. -/
structure State.SameRegisters (s t : State) : Prop where
  scr : t.scr = s.scr
  ir : t.ir = s.ir
  acc : t.acc = s.acc
  ar : t.ar = s.ar
  oflow : t.oflow = s.oflow

theorem State.SameRegisters.trans {s t u : State} (h : s.SameRegisters t) (h' : t.SameRegisters u) : s.SameRegisters u :=
  ⟨h'.scr.trans h.scr, h'.ir.trans h.ir, h'.acc.trans h.acc, h'.ar.trans h.ar, h'.oflow.trans h.oflow⟩

/-- One word-time of a stall leads to another. -/
theorem State.StaysStalled.step {s : State} (h : s.StaysStalled) :
    ∃ t, step s = .next t ∧ t.StaysStalled ∧ s.SameRegisters t ∧ t.busy = true := by
  obtain ⟨hinv, ⟨hf, hstall⟩, hreset⟩ := h
  have hl : s.longFn = false :=
    Bool.eq_false_iff.mpr fun hl => nomatch (hinv.longSequenced hl).symm.trans hstall.stallFunction
  obtain ⟨i, n, o, hir, hi, hbeat⟩ := hstall.exec_eq hf hl hinv.storeWf
  have hstep := State.Runs.step ⟨hinv, hf, hir, hreset⟩ hi hbeat
  have hstays : (s.stalledBeat n o).nextWires.StaysStalled :=
    { inv := everyStepKeepsTheInvariant s _ hinv hstep
      stall := ⟨rfl, State.StallsForEver.nextWires (s := s.stalledBeat n o) hstall⟩
      noReset := State.Always.nextWires (s := s.stalledBeat n o) hreset fun _ => id }
  exact ⟨_, hstep, hstays, ⟨rfl, rfl, rfl, rfl, rfl⟩, rfl⟩

/-- The stall after any number of word-times: each finds it as the one before left it. -/
theorem State.StaysStalled.run {s : State} (h : s.StaysStalled) (k : Nat) :
    ∃ t, Sys2Proof.core.run k s = .next t ∧ t.StaysStalled ∧ s.SameRegisters t ∧ (0 < k → t.busy = true) := by
  induction k with
  | zero => exact ⟨s, rfl, h, ⟨rfl, rfl, rfl, rfl, rfl⟩, fun hk => absurd hk (Nat.lt_irrefl 0)⟩
  | succ k ih =>
    obtain ⟨t, hrun, ht, hsame, -⟩ := ih
    obtain ⟨u, hstep, hu, hsame', hbusy⟩ := ht.step
    exact ⟨u, (core_run_add hrun).trans (core_run_succ hstep), hu, hsame.trans hsame', fun _ => hbusy⟩

/-- Settles O42: a stall with no RESET to come is one that stays. -/
theorem stallsNeverEndWithoutReset : Obligations.StallsNeverEndWithoutReset := by
  intro s k hinv hstall hreset
  obtain ⟨t, hrun, ht, ⟨hscr, hir, hacc, har, hoflow⟩, hbusy⟩ := State.StaysStalled.run ⟨hinv, hstall, hreset⟩ k
  exact ⟨t, hrun, ht.stall, hbusy, hscr, hir, hacc, har, hoflow⟩

end Sys2Proof.Machine

/-! SUPPORT. The cycle controller (`50_cycle_controller.md` R290 to R309): the console's beats, the fetch, RESET, and the beats of a long
function before its last. -/

namespace Sys2Proof.Machine

open Sys2Proof

/-! ### The stopped machine (R295, R296) -/

theorem State.isStopped_iff (s : State) : s.isStopped = true ↔ s.fetching = true ∧ s.stopped = true := by
  rw [State.isStopped, Bool.and_eq_true]

theorem Wires.consoleQuiet_iff (w : Wires) : w.consoleQuiet = true ↔ w.reset = false ∧ w.operate = false := by
  rw [Wires.consoleQuiet, Bool.and_eq_true, Bool.not_eq_true', Bool.not_eq_true']

theorem stoppedBeat_idle {s : State} (hop : s.wires.operate = false) : stoppedBeat s = .next s := by
  simp only [stoppedBeat, hop, Bool.false_eq_true, if_false]

theorem stoppedBeat_normal {s : State} (hop : s.wires.operate = true) (hron : s.wires.ron = .normal) :
    stoppedBeat s = .next { s with stopped := false } := by
  simp only [stoppedBeat, hop, hron, if_true]

theorem stoppedBeat_read {s : State} (hop : s.wires.operate = true) (hron : s.wires.ron = .read) :
    stoppedBeat s = .next s.loadButtons := by
  simp only [stoppedBeat, hop, hron, if_true]

theorem stoppedBeat_obey {s : State} (hop : s.wires.operate = true) (hron : s.wires.ron = .obey) :
    stoppedBeat s = decodeBeat s.loadButtons := by
  simp only [stoppedBeat, hop, hron, if_true]

/-- A word-time of the stopped machine, by what its beat answers. -/
theorem step_of_stoppedBeat {s t : State} (hr : s.wires.reset = false) (hf : s.fetching = true) (hs : s.stopped = true)
    (ht : stoppedBeat s.quietOutputs = .next t) : step s = .next t.nextWires :=
  step_of_wordTime ((wordTime_stopped hr hf hs).trans ht)

/-- The buttons hold a jump exactly when the first octal digit of F1 is 4 (R85). -/
theorem isJumpBits_buttons (w : Wires) : isJumpBits w.buttons = decide (w.f1.toNat / 8 = 4) := by
  have hgroup : ∀ c : FnCode, (fnGroup c == 4#3) = decide (c.toNat / 8 = 4) := by decide
  rw [isJumpBits, Wires.buttons, fnField_append, hgroup]

/-- A jump answers with `S` and `R` as they were (R170). -/
theorem exec_decode_of_jump {s : State} (hj : isJumpBits s.ir = true) :
    ∃ t, exec (decode s.ir) s = .next t ∧ t.stopped = s.stopped ∧ t.fetching = s.fetching := by
  rcases decodeBeat_cases s with ⟨hplain, -⟩ | ⟨-, scr, m, o, he, -⟩
  · exact nomatch hj.symm.trans hplain
  · exact ⟨_, (decodeBeat_jump hj).symm.trans he, rfl, rfl⟩

/-- Settles O46, one setting of the selector at a time; Obey splits on the group of the buttons' function. -/
theorem consoleActions : Obligations.ConsoleActions := by
  intro s hr hf hs s0 loaded
  have step_of {t : State} := step_of_stoppedBeat (t := t) hr hf hs
  have hdecodes (hop : s.wires.operate = true) (hron : s.wires.ron = .obey) : stoppedBeat s0 = decodeBeat loaded :=
    stoppedBeat_obey hop hron
  have hjump : isJumpBits loaded.ir = decide (s.wires.f1.toNat / 8 = 4) := isJumpBits_buttons s.wires
  refine ⟨fun hop => step_of (stoppedBeat_idle hop), fun hop hron => step_of (stoppedBeat_normal hop hron),
    fun hop hron => step_of (stoppedBeat_read hop hron), fun hop hron hgroup => ?_, fun hop hron hgroup => ?_⟩
  · exact step_of ((hdecodes hop hron).trans (decodeBeat_plain (hjump.trans (decide_eq_false hgroup))))
  · have hj := hjump.trans (decide_eq_true hgroup)
    obtain ⟨t, he, hstopped, hfetching⟩ := exec_decode_of_jump hj
    exact ⟨t, he, step_of ((hdecodes hop hron).trans ((decodeBeat_jump hj).trans he)), hstopped.trans hs, hfetching.trans hf⟩

/-- A word-time of the stopped machine with a quiet console (R295). -/
theorem step_idle {s : State} (hs : s.isStopped = true) (hq : s.wires.consoleQuiet = true) :
    step s = .next s.quietOutputs.nextWires := by
  obtain ⟨hfetching, hstopped⟩ := s.isStopped_iff.mp hs
  obtain ⟨hreset, hop⟩ := s.wires.consoleQuiet_iff.mp hq
  exact (consoleActions s hreset hfetching hstopped).1 hop

/-- Settles O47, one word-time after the other: the next state is stopped too and its console as quiet. -/
theorem stoppedIsASteadyState : Obligations.StoppedIsASteadyState := by
  intro s k hs hq
  induction k generalizing s with
  | zero => exact ⟨s, rfl, s.out, s.wires, s.feed, rfl⟩
  | succ k ih =>
    have hquiet : s.quietOutputs.nextWires.ConsoleQuiet :=
      State.Always.nextWires (s := s.quietOutputs) hq fun w hw =>
        (Wires.consoleQuiet_iff _).mpr ⟨((Wires.consoleQuiet_iff w).mp hw).1, rfl⟩
    obtain ⟨t, hrun, o, b, f, ht⟩ := ih s.quietOutputs.nextWires hs hquiet
    exact ⟨t, (core_run_succ (step_idle hs hq.1)).trans hrun, o, b, f, ht⟩

/-! ### The fetch (R300 to R304) -/

/-- The clear-store wire acts on the word at `SCR`, bootstrap words excepted (R75). -/
theorem clearsAt_scr (s : State) :
    (s.wires.cs && !reserved (scrWord s.scr)) = decide (s.wires.cs = true ∧ 4 ≤ s.scr.toNat / 2) := by
  rw [reserved_eq, scrWord_toNat, Bool.eq_iff_iff]
  simp

theorem fetchRead_scr (s : State) :
    s.fetchRead (scrWord s.scr) = if s.wires.cs = true ∧ 4 ≤ s.scr.toNat / 2 then 0 else s.store.read (s.scr.toNat / 2) := by
  simp only [State.fetchRead, clearsAt_scr, scrWord_toNat, decide_eq_true_eq]

theorem clearOnRead_scr_store (s : State) : (s.clearOnRead (scrWord s.scr)).store =
    if s.wires.cs = true ∧ 4 ≤ s.scr.toNat / 2 then s.store.write (s.scr.toNat / 2) 0 else s.store := by
  simp only [State.clearOnRead_store, clearsAt_scr, scrWord_toNat, decide_eq_true_eq]

/-- A first half as a number is the word without its low 20 bits (R82). -/
theorem firstHalf_eq_ofNat (w : Word) : firstHalf w = BitVec.ofNat 19 (w.toNat / 2 ^ 20) := by
  rw [← firstHalf_toNat, BitVec.ofNat_toNat, BitVec.setWidth_eq]

/-- A second half, modified or not, is a sum modulo 2^19 (R84, R302). -/
theorem modified_eq_ofNat (w : Word) (m : Bool) (breg : BitVec 19) :
    modified w m breg = BitVec.ofNat 19 (w.toNat + if m = true then breg.toNat else 0) := by
  have hbreg := breg.isLt
  apply BitVec.eq_of_toNat_eq
  cases m <;> simp [modified, secondHalf_toNat, BitVec.toNat_add]

/-- Settles O44, one field at a time. -/
theorem fetchLoadsTheInstruction : Obligations.FetchLoadsTheInstruction := by
  intro s a cleared w first
  have hread : s.fetchRead (scrWord s.scr) = w := fetchRead_scr s
  have hstore : (s.clearOnRead (scrWord s.scr)).store = if cleared then s.store.write a 0 else s.store := clearOnRead_scr_store s
  have hhalf : scrSecond s.scr = !decide first := by
    rw [scrSecond_eq, Bool.eq_iff_iff]
    simp only [first, decide_eq_true_eq, Bool.not_eq_true', decide_eq_false_iff_not]
    omega
  have hir : (if scrSecond s.scr then modified w s.modPending s.breg else firstHalf w) =
      if first then BitVec.ofNat 19 (w.toNat / 2 ^ 20)
      else BitVec.ofNat 19 (w.toNat + if s.modPending = true then s.breg.toNat else 0) := by
    rw [hhalf, modified_eq_ofNat, firstHalf_eq_ofNat]
    by_cases hfirst : first <;> simp [hfirst]
  have hm : (!scrSecond s.scr && bDigit w) = decide (first ∧ w.toNat / 2 ^ 19 % 2 = 1) := by
    rw [hhalf, Bool.not_not, bDigit_eq, Bool.decide_and]
  have hstop : (s.wires.ss && s.wires.n1 == scrWord s.scr) = decide (s.wires.ss = true ∧ s.wires.n1.toNat = a) := by
    rw [Bool.eq_iff_iff, Bool.and_eq_true, beq_iff_eq, BitVec.toNat_eq, scrWord_toNat, decide_eq_true_eq]
  rw [← hir, ← hm, ← hstop, ← hstore, ← hread]
  rfl

/-- Settles O43: the decoder finds the instruction by its encoding, in the execute phase and at the end of a fetch. -/
theorem stepRunsTheDecodedInstruction : Obligations.StepRunsTheDecodedInstruction := by
  intro i s hw hr s0
  refine ⟨fun hf hj hir t ht => ?_, fun hf hs hj hir t ht => ?_, fun hf hs hj hir => ?_⟩
  · have hplain : isJumpBits s0.ir = false := (congrArg isJumpBits hir).trans ((isJumpBits_encode i).trans hj)
    rw [← decode_eq_of_encode hw hir.symm] at ht
    exact step_of_wordTime ((wordTime_execute hr hf).trans ((executeBeat_plain hplain).trans ht))
  · have hjump : isJumpBits s0.fetched.ir = true := hir ▸ (isJumpBits_encode i).trans hj
    rw [← decode_eq_of_encode hw hir.symm] at ht
    exact step_of_wordTime ((wordTime_fetch hr hf hs).trans ((decodeBeat_jump hjump).trans ht))
  · have hplain : isJumpBits s0.fetched.ir = false := hir ▸ (isJumpBits_encode i).trans hj
    exact step_of_wordTime ((wordTime_fetch hr hf hs).trans (decodeBeat_plain hplain))

/-- Settles O56 from the frame of the fetch phase. -/
theorem fetchPhaseKeepsTheRegisters : Obligations.FetchPhaseKeepsTheRegisters := by
  intro s t h hf hnr
  obtain ⟨u, rfl, hc⟩ := step_cases h
  cases hc with
  | reset hr _ => exact nomatch hr.symm.trans hnr
  | fetch _ _ hu =>
    rw [hu.frame]
    exact ⟨rfl, rfl, rfl, rfl, rfl, rfl, rfl, rfl, rfl, rfl, rfl, rfl, rfl, rfl⟩
  | execute _ he _ _ => exact nomatch hf.symm.trans he

/-! ### Every state has a next one (R290, R340) -/

/-- `Decode` always answers a next state. -/
theorem decodeBeat_next (s : State) : ∃ t, decodeBeat s = .next t := by
  rcases decodeBeat_cases s with ⟨-, he⟩ | ⟨-, scr, m, o, he, -⟩
  · exact ⟨_, he⟩
  · exact ⟨_, he⟩

theorem stoppedBeat_next (s : State) : ∃ t, stoppedBeat s = .next t := by
  rcases stoppedBeat_cases s with he | ⟨-, -, he⟩ | ⟨-, -, he⟩ | ⟨-, -, he⟩
  · exact ⟨_, he⟩
  · exact ⟨_, he⟩
  · exact ⟨_, he⟩
  · exact he ▸ decodeBeat_next _

/-- The execute beat faults on a jump alone (R307). -/
theorem executeBeat_next {s : State} (hj : isJumpBits s.ir = false) : ∃ t, executeBeat s = .next t := by
  obtain ⟨t, he, -⟩ := exec_keeps_wires (decode s.ir) s
  exact ⟨t, (executeBeat_plain hj).trans he⟩

/-- Settles O52: the one fault is that of a jump in the execute phase, which the invariant excludes. -/
theorem theMachineNeverFaults : Obligations.TheMachineNeverFaults := by
  intro s hs
  suffices hbeat : ∃ t, wordTime s = .next t by
    obtain ⟨t, ht⟩ := hbeat
    exact ⟨_, step_of_wordTime ht⟩
  cases hr : s.wires.reset
  · cases hf : s.fetching
    · exact wordTime_execute hr hf ▸ executeBeat_next (hs.noJumpExecutes hf)
    · cases hstop : s.stopped
      · exact wordTime_fetch hr hf hstop ▸ decodeBeat_next _
      · exact wordTime_stopped hr hf hstop ▸ stoppedBeat_next _
  · exact ⟨_, wordTime_reset hr⟩

/-! ### RESET (R293, U1) -/

/-- The functions RESET can cut off: 52, 53, 56, 60 to 65 (U1). -/
theorem worksUnseen_eq (x : InstrBits) :
    worksUnseen x = decide (fnField x ∈ [42#6, 43#6, 46#6, 48#6, 49#6, 50#6, 51#6, 52#6, 53#6]) := by
  have hcodes : ∀ f : FnCode, (f == 42#6 || f == 43#6 || f == 46#6 || (decide (48 ≤ f.toNat) && decide (f.toNat ≤ 53))) =
      decide (f ∈ [42#6, 43#6, 46#6, 48#6, 49#6, 50#6, 51#6, 52#6, 53#6]) := by decide
  exact hcodes _

theorem State.cutOff_eq_self {s : State} (h : (s.longFn && worksUnseen s.ir) = false) : s.cutOff = s := by
  simp only [State.cutOff, h, Bool.false_eq_true, if_false]

/-- Settles O45: the free values stand only where a function is cut off. -/
theorem resetWire : Obligations.ResetWire := by
  intro s hr
  refine ⟨s.cutOff.acc, s.cutOff.ar, s.cutOff.draws, step_of_wordTime (wordTime_reset hr), fun h => ?_, resetBeat_arSign⟩
  have hkeeps : (s.longFn && worksUnseen s.ir) = false := by
    rw [Bool.and_eq_false_iff, worksUnseen_eq, decide_eq_false_iff_not]
    exact h
  rw [State.cutOff_eq_self hkeeps]
  exact ⟨rfl, rfl, rfl⟩

/-! ### Power-on (R360, R363) -/

/-- A stopped machine that drives no output, through wires `q` that keep the console quiet, up to the wires `w` after them. -/
theorem run_idle {s : State} {q rest : List Wires} {w : Wires} (hs : s.isStopped = true) (hout : s.out = Outputs.quiet)
    (hfeed : s.wires :: s.feed = q ++ w :: rest) (hq : ∀ x ∈ q, x.reset = false ∧ x.operate = false) :
    Sys2Proof.core.run q.length s = .next { s with wires := w, feed := rest } := by
  induction q generalizing s with
  | nil =>
    obtain ⟨rfl, rfl⟩ := List.cons.inj hfeed
    rfl
  | cons x q ih =>
    obtain ⟨rfl, hlater⟩ := List.cons.inj hfeed
    have hquiet := (Wires.consoleQuiet_iff _).mpr (hq _ List.mem_cons_self)
    have hnext : s.quietOutputs.nextWires.wires :: s.quietOutputs.nextWires.feed = q ++ w :: rest := by
      simp only [State.nextWires_wires, State.nextWires_feed, State.quietOutputs_feed, hlater]
      cases q <;> rfl
    have hrun := ih (s := s.quietOutputs.nextWires) hs rfl hnext fun y hy => hq y (List.mem_cons_of_mem _ hy)
    rw [List.length_cons, core_run_succ (step_idle hs hquiet), hrun]
    simp only [State.quietOutputs, State.nextWires, hout]

/-- The fetch of the first half of word 0, whatever is on the wires: a bootstrap word cannot be cleared (R75). -/
theorem fetched_wordZero {s : State} (hscr : s.scr = 0) :
    s.fetched.ir = firstHalf (s.store.read 0) ∧ s.fetched.store = s.store := by
  rw [fetchLoadsTheInstruction s, firstHalf_eq_ofNat]
  simp [hscr]

theorem powerOn_bootWords (p : Params) (image : Option (List (BitVec 8))) {a : Nat} (ha : a < reservedLow) :
    (State.powerOn p image).store.read a = Store.initial a := by
  cases image with
  | none => rfl
  | some bytes => exact loadImage_read_low bytes ha

/-- The first of the initial instructions is `26 4` (R361). -/
theorem firstHalf_initial_zero : firstHalf (Store.initial 0) = encode (.fn26 4) := firstHalf_packWord _ _ _

/-- The word-time that fetches the first of the initial instructions, which waits in `IR` for its execute beat (R303, R363). -/
theorem step_wordZero {s : State} (hr : s.wires.reset = false) (hf : s.fetching = true) (hs : s.stopped = false) (hscr : s.scr = 0)
    (hboot : s.store.read 0 = Store.initial 0) :
    ∃ t, step s = .next t ∧ t.ir = encode (.fn26 4) ∧ t.fetching = false ∧ t.scr = s.scr ∧ t.acc = s.acc ∧ t.ar = s.ar ∧
      t.oflow = s.oflow ∧ t.store = s.store := by
  obtain ⟨hfirst, hstore⟩ := fetched_wordZero (s := s.quietOutputs) hscr
  have hir : s.quietOutputs.fetched.ir = encode (.fn26 4) := by
    rw [hfirst, State.quietOutputs_store, hboot, firstHalf_initial_zero]
  obtain ⟨-, -, hwaits⟩ := stepRunsTheDecodedInstruction (.fn26 4) s rfl hr
  exact ⟨_, hwaits hf hs (by decide) hir, hir, rfl, rfl, rfl, rfl, rfl, hstore⟩

/-- Settles O59: `q` goes by in the stopped machine, the event is Normal's, and the fetch is that of word 0. -/
theorem powerOnIsIdle : Obligations.PowerOnIsIdle := by
  intro p image b f q rest start after _ hwires hq hreset hop hron hafter s
  have idle {q' rest' : List Wires} {w : Wires} (h : b :: f = q' ++ w :: rest') (hq' : ∀ x ∈ q', x ∈ q) :
      Sys2Proof.core.run q'.length s = .next { s with wires := w, feed := rest' } :=
    run_idle (s := s) rfl rfl h fun x hx => hq x (hq' x hx)
  have hstart : step { s with wires := start, feed := after :: rest } =
      .next { s with stopped := false, wires := after, feed := rest } := by
    obtain ⟨-, hnormal, -⟩ := consoleActions { s with wires := start, feed := after :: rest } hreset rfl rfl
    exact hnormal hop hron
  have hstarted : Sys2Proof.core.run (q.length + 1) s = .next { s with stopped := false, wires := after, feed := rest } :=
    (core_run_add (idle hwires fun _ => id)).trans (core_run_succ hstart)
  refine ⟨fun j hj => ?_, hstarted, ?_⟩
  · obtain ⟨w, rest', hdrop⟩ := List.exists_cons_of_ne_nil (l := q.drop j ++ start :: after :: rest) (by simp)
    have hsplit : b :: f = q.take j ++ w :: rest' := by
      rw [← hdrop, ← List.append_assoc, List.take_append_drop, hwires]
    have hrun := idle hsplit fun x hx => List.mem_of_mem_take hx
    rw [List.length_take_of_le hj] at hrun
    exact ⟨w, rest', hrun⟩
  · obtain ⟨t, hstep, hir, hfetching, hscr, hacc, har, hoflow, hstore⟩ :=
      step_wordZero (s := { s with stopped := false, wires := after, feed := rest }) hafter rfl rfl rfl
        (powerOn_bootWords p image (by decide))
    exact ⟨t, (core_run_add hstarted).trans (core_run_succ (k := 0) hstep), hir, hfetching, hscr, hacc, har, hoflow, hstore⟩

/-! ### Long functions before their last beat (R309) -/

/-- A beat before the last of a long function that latches no operand (65 with N of 4096 or more): no result is written. -/
theorem longBeat_waits_unlatched {s : State} {n : Address} {k : BitVec 7} {commit : State → State} (hs : s.Executing)
    (hwait : ¬ s.lastBeat k) (hc : ∀ u, SequencedKeeps u (commit u)) :
    longBeat n k false commit s = State.afterBeat
      { s with scratch := Config.drawScratch s.draws, draws := s.draws + 1 } n (s.memRead n) k := by
  rw [longBeat_eq n k false commit hs (hc _).frame]
  simp only [mt (lastBeat_iff s k).mpr hwait, if_false]
  rfl

/-- Settles O28: each of them is a long function, whose commit is left for the last beat. -/
theorem longFunctionsWaitForTheirLastBeat : Obligations.LongFunctionsWaitForTheirLastBeat := by
  intro n s hs w
  refine ⟨Config.drawScratch s.draws, fun hwait => ?_, fun hwait => ?_, fun hwait => ?_, fun hwait => ?_, fun hwait hw => ?_,
    fun hwait => ?_⟩
  · exact ⟨congrArg _ (longBeat_waits hs hwait commitMultiply_keeps), congrArg _ (longBeat_waits hs hwait commitRoundedMultiply_keeps)⟩
  · exact congrArg _ (longBeat_waits hs hwait commitDivide_keeps)
  · exact ⟨congrArg _ (longBeat_waits hs hwait fun u => commitFloat_keeps u .add u.acc u.mreg),
      congrArg _ (longBeat_waits hs hwait fun u => commitFloat_keeps u .sub u.acc u.mreg),
      congrArg _ (longBeat_waits hs hwait fun u => commitFloat_keeps u .sub u.mreg u.acc)⟩
  · exact congrArg _ (longBeat_waits hs hwait fun u => commitFloat_keeps u .mul u.acc u.mreg)
  · exact (exec_fn64_long n hw).trans (congrArg _ (longBeat_waits hs hwait fun u => commitFloat_keeps u .div u.acc u.mreg))
  · exact congrArg _ (longBeat_waits_unlatched hs hwait fun u => floatResult_keeps u _)

end Sys2Proof.Machine

/-! SUPPORT. Power-on with a core image (`70_reset_and_hazards.md` R360, R361): the four initial instructions as text and as words, and the
place of each byte of the image file in the store (`20_memory.md` R76). -/

namespace Sys2Proof.Machine

open Sys2Proof

/-! ### The initial instructions (R361) -/

/-- The literals of the source are the words that unlisted addresses 0 to 3 read as, under the grammar of R93. -/
theorem parseWord_bootLiterals :
    parseWord? ['2', '6', '4', ':', '0', '6', '0'] = some (Store.initial 0) ∧
    parseWord? ['2', '2', '4', '/', '1', '6', '3'] = some (Store.initial 1) ∧
    parseWord? ['5', '5', '5', ':', '7', '1', '0'] = some (Store.initial 2) ∧
    parseWord? ['4', '3', '1', ':', '4', '0', '2'] = some (Store.initial 3) := by decide

/-- The decimal column of the table of R361. -/
theorem Store.initial_bootTable :
    Store.initial 0 = 188982804480#39 ∧ Store.initial 1 = 154623655939#39 ∧
    Store.initial 2 = 386552766464#39 ∧ Store.initial 3 = 300649021442#39 := by decide

theorem State.reset_read (a : Nat) : State.reset.store.read a = Store.initial a := rfl

/-- Settles O5: each literal parses to what its address reads as, and the table gives that word as a number. -/
theorem bootstrapWords : Obligations.BootstrapWords := by
  obtain ⟨p0, p1, p2, p3⟩ := parseWord_bootLiterals
  obtain ⟨w0, w1, w2, w3⟩ := Store.initial_bootTable
  simp only [Obligations.BootstrapWords, State.reset_read, p0, p1, p2, p3, w0, w1, w2, w3, and_self]

/-! ### The bytes of an image file (R76) -/

/-- The bytes are the container's digits to base 256, the least significant first. -/
theorem bytesOfContainer_containerOfBytes (b0 b1 b2 b3 b4 b5 b6 b7 : BitVec 8) :
    bytesOfContainer (containerOfBytes b0 b1 b2 b3 b4 b5 b6 b7) = [b0, b1, b2, b3, b4, b5, b6, b7] := by
  simp only [bytesOfContainer, containerOfBytes, List.range, List.range.loop, List.map, List.cons.injEq, ← BitVec.toNat_inj,
    BitVec.extractLsb'_toNat, toNat_append_eq, Nat.shiftRight_eq_div_pow, and_true]
  omega

/-- A file of whole containers is the bytes of its containers in order. -/
theorem flatMap_containersOfBytes : ∀ bytes : List (BitVec 8), 8 ∣ bytes.length →
    (containersOfBytes bytes).flatMap bytesOfContainer = bytes
  | b0 :: b1 :: b2 :: b3 :: b4 :: b5 :: b6 :: b7 :: rest, h => by
    have hrest : 8 ∣ rest.length := (Nat.dvd_add_left (Nat.dvd_refl 8)).mp h
    rw [containersOfBytes, List.flatMap_cons, bytesOfContainer_containerOfBytes, flatMap_containersOfBytes rest hrest]
    rfl
  | [], _ => rfl
  | [_], h | [_, _], h | [_, _, _], h | [_, _, _, _], h | [_, _, _, _, _], h | [_, _, _, _, _, _], h
  | [_, _, _, _, _, _, _], h => absurd h (by simp)

/-- Bit `8 * i + j` of container `a` is bit `j` of the byte at offset `8 * a + i`. -/
theorem containersOfBytes_getLsbD {bytes : List (BitVec 8)} (hwhole : 8 ∣ bytes.length) {a i j : Nat}
    (ha : 8 * a < bytes.length) (hi : i < 8) (hj : j < 8) :
    ((containersOfBytes bytes).getD a 0).getLsbD (8 * i + j) = (bytes.getD (8 * a + i) 0).getLsbD j := by
  have hbytes := flatMap_containersOfBytes bytes hwhole
  have hlen : 8 * (containersOfBytes bytes).length = bytes.length := by rw [← flatMap_bytesOfContainer_length, hbytes]
  have hbyte := flatMap_bytesOfContainer_getD (containersOfBytes bytes) (a := a) (by omega) hi
  rw [hbytes] at hbyte
  rw [hbyte, BitVec.getLsbD_extractLsb', decide_eq_true hj, Bool.true_and]

/-- The bytes of a loaded word, from address 4 on; bits 39 to 63 of its container are ignored. -/
theorem loadImage_read_getLsbD {bytes : List (BitVec 8)} (hlen : bytes.length = 8 * storeWords) {a i j : Nat}
    (hlow : reservedLow ≤ a) (ha : a < storeWords) (hj : j < 8) (hbit : 8 * i + j < 39) :
    ((loadImage bytes).read a).getLsbD (8 * i + j) = (bytes.getD (8 * a + i) 0).getLsbD j := by
  rw [loadImage, storeFrom_read _ (Nat.zero_le a) hlow ha, Nat.sub_zero, wordOfContainer, BitVec.getLsbD_setWidth,
    decide_eq_true hbit, Bool.true_and, containersOfBytes_getLsbD ⟨storeWords, hlen⟩ (by omega) (by omega) hj]

/-! ### Power-on (R360) -/

theorem powerOn_store_wf (p : Params) (image : Option (List (BitVec 8))) : (State.powerOn p image).store.wf = true := by
  cases image with
  | none => rfl
  | some bytes => exact loadImage_wf bytes

/-- The image reaches the store alone: every other clause is the one of the power-on state without an image. -/
theorem powerOn_inv (p : Params) (image : Option (List (BitVec 8))) : (State.powerOn p image).Inv :=
  { powerOnMeetsTheInvariant with
    storeWf := powerOn_store_wf p image
    bootWords := fun _ => powerOn_bootWords p image }

/-- Settles O50: the containers from word 4 on are the bytes of the file in order, and no image reaches words 0 to 3. -/
theorem powerOnWithAnImage : Obligations.PowerOnWithAnImage := by
  intro p bytes hlen s
  obtain ⟨w0, w1, w2, w3⟩ := Store.initial_bootTable
  have boot {a : Nat} (ha : a < reservedLow) : s.store.read a = Store.initial a := powerOn_bootWords p (some bytes) ha
  refine ⟨powerOn_inv p (some bytes), rfl, fun a i j hlow ha hj hbit => loadImage_read_getLsbD hlen hlow ha hj hbit, ?_⟩
  exact ⟨(boot (by decide)).trans w0, (boot (by decide)).trans w1, (boot (by decide)).trans w2, (boot (by decide)).trans w3⟩

end Sys2Proof.Machine
